-- ==== Sys2Proof/Word.lean ====
section
/-! DEFINITION. The word types of the block (00_scope R6, R7): bytes, target addresses, port numbers, the 16-bit size. -/

namespace Sys2Proof

/-- One byte: `DATA_WIDTH` = 8 (00_scope R6, R13). -/
abbrev Byte := BitVec 8

/-- An address of the target memory space: `AW` = 16 (00_scope R7, decision D4). -/
abbrev Addr := BitVec 16

/-- A port number: `PORT_WIDTH` = 4 (00_scope R6). -/
abbrev Port := BitVec 4

/-- The size field: `SIZE_WIDTH` = 16 (00_scope R6). -/
abbrev Size := BitVec 16

end Sys2Proof
end

