-- ==== Sys2Proof/Config.lean ====
section
/-! DEFINITION. What an implementation fixes (00_scope R6, R7) and the values the spec leaves open. A constant without a body
is an OPEN parameter or a free value: nothing in Lean can evaluate it or prove a value of it. -/

namespace Sys2Proof.Config

/-! ## Numbers the source fixes (00_scope R6) -/

/-- `RX_DEPTH` (R6): depth of the hardware receive buffer. -/
def rxDepth : Nat := 2

/-- `UPLOAD_MAX_LB` (R6): compared with the length byte (90_conflicts C1). -/
def uploadMaxLb : Byte := 16

/-- `LOAD_MAX_LB` (R6). -/
def loadMaxLb : Byte := 255

/-- `REGION_LEN` (R6). -/
def regionLen : Nat := 16

/-- `BLOCK_MAX` (R6). -/
def blockMax : Nat := 256

/-! ## Parameters the spec decides (00_scope R7) -/

/-- `LEDCMD_DISABLE`, decided 0 (D35). -/
def ledcmdDisable : Byte := 0

/-- `LEDCMD_ENABLE`, decided 1 (D35). -/
def ledcmdEnable : Byte := 1

/-- `LEDCMD_MODE_LED`, decided 2 (D35). -/
def ledcmdModeLed : Byte := 2

/-- `LEDCMD_MODE_SWITCH`, decided 3 (D35). -/
def ledcmdModeSwitch : Byte := 3

/-! ## OPEN parameters (00_scope R7; log 11, 12). -/

/-- `TICKS_PER_BYTE - 1`: the parameter itself is an integer of at least 1 (R7, D15). -/
opaque ticksPerByteLessOne : Nat

/-- `TICKS_PER_BYTE` (R7, D15): OPEN, at least 1. -/
def ticksPerByte : Nat := ticksPerByteLessOne + 1

/-- `TIMER_MAX - 1`: the parameter itself is an integer of at least 1 (R7, D15). -/
opaque timerMaxLessOne : Nat

/-- `TIMER_MAX` (R7, D15): OPEN, at least 1. -/
def timerMax : Nat := timerMaxLessOne + 1

/-- The first byte of `BOOTSTRAP`: `BOOT_LEN` is at least 1 (R7, D26). -/
opaque bootFirst : Byte

/-- The bytes of `BOOTSTRAP` after the first (R7, D26). -/
opaque bootRest : List Byte

/-- `BOOTSTRAP` (R7, D26): OPEN, `BOOT_LEN` at least 1. -/
def bootstrap : List Byte := bootFirst :: bootRest

/-- `COUNT_CELL` (R7, D26): OPEN. -/
opaque countCell : Addr

/-- `LOAD_BASE` (R7, D26): OPEN. -/
opaque loadBase : Addr

/-- `BANK_MAP` (R7, 20_memory R62, D33): OPEN, the physical location of an address of a bank. -/
opaque bankMap : Byte → Addr → Nat

/-- `LOSSY_ERROR_LATCH` (R7, 40_serial_link R130): OPEN. -/
opaque lossyErrorLatch : Bool

/-! ## Free values -/

/-- The byte a physical location holds at startup: any byte at every location (20_memory R61, U19; log 13). -/
opaque startupByte : Nat → Byte

/-- A free byte: the value stored for a Timeout result (40_serial_link R121 (e), U20; log 7). -/
opaque freeByte : Nat → Byte

/-- A free choice between the two outcomes the spec admits (U10, U14; log 8, 9). -/
opaque freeBit : Nat → Bool

end Sys2Proof.Config
end

