-- ==== Sys2Proof/Syntax.lean ====
section
/-! DEFINITION. The operations of the block as syntax: one constructor of `Instr` per mnemonic of spec/opcode_table.json, and
the operand types. -/

namespace Sys2Proof

/-- Direction of the target's I/O cycle, sampled from `RW` (30_encoding R104). -/
inductive IoDir where
  | read
  | write
  deriving DecidableEq, Repr

/-- The four timer primitives of the table's one row (40_serial_link R124; log 27). -/
inductive TimerOp where
  /-- `timer_arm(d)`. -/
  | arm (d : Nat)
  /-- `timer_expired()`. -/
  | expired
  /-- `timer_clear()`. -/
  | clear
  /-- `tick`, the timer agent's step. -/
  | tick
  deriving DecidableEq, Repr

/-- The two operations of the table's row `inject_raw_inject_image` (42_bus_arbiter R174; log 27). -/
inductive InjectForm where
  /-- `inject_raw`: the writes alone. -/
  | raw
  /-- `inject_image`: acquire, the writes, release unless `keepLocked`. -/
  | image (keepLocked : Bool)
  deriving DecidableEq, Repr

/-- The formats of 30_encoding that have a wire or table form. -/
inductive Format where
  | cmd
  | status
  | size
  | block
  | ioreq
  | ledcmd
  deriving DecidableEq, Repr

/-- The operations of the block: one constructor per mnemonic of spec/opcode_table.json. -/
inductive Instr where
  -- CMD (30_encoding R91, R92)
  /-- `LoadBinary`, 43_command_loop R206. -/
  | loadBinary
  /-- `Echo`, R202. -/
  | echo
  /-- `UploadToRam`, R203. -/
  | uploadToRam
  /-- `DownloadFromRam`, R204. -/
  | downloadFromRam
  /-- `Unknown`, R205, with the command byte received. -/
  | unknown (b : Byte)
  -- STATUS (30_encoding R93, R94)
  /-- `STATUS.Ok`. -/
  | statusOk
  /-- `STATUS.Timeout`. -/
  | statusTimeout
  /-- `STATUS.InvalidSize`. -/
  | statusInvalidSize
  /-- `STATUS.ChecksumFailed`. -/
  | statusChecksumFailed
  /-- `STATUS.UnknownCommand`. -/
  | statusUnknownCommand
  /-- `STATUS.FrameError`. -/
  | statusFrameError
  /-- `STATUS.BufferOverflow`. -/
  | statusBufferOverflow
  /-- `STATUS.reserved`, R102: values 7 to 255. -/
  | statusReserved (b : Byte)
  -- IOREQ (30_encoding R104, R105)
  /-- `PORT0.Write.console`, 45_io_ports R261. -/
  | port0Write
  /-- `PORT0.Read.none`, R262. -/
  | port0Read
  /-- `PORT1.Read.ledsw_level`, R263. -/
  | port1Read
  /-- `PORT1.Write.ledsw_command`, R276. -/
  | port1Write
  /-- `PORT2.Read.bank_index`, R269. -/
  | port2Read
  /-- `PORT2.Write.bank_switch`, R270. -/
  | port2Write
  /-- `PORTx.unknown`, R271: ports 3 to 15, either direction. -/
  | portUnknown (dir : IoDir) (port : Port)
  -- LEDCMD (30_encoding R106)
  /-- `LEDCMD.disable_led`, R264. -/
  | ledDisable
  /-- `LEDCMD.enable_led`, R265. -/
  | ledEnable
  /-- `LEDCMD.select_led_mode`, R266. -/
  | ledSelectLed
  /-- `LEDCMD.select_switch_mode`, R267. -/
  | ledSelectSwitch
  /-- `LEDCMD.none`, R268: data bytes 4 to 255. -/
  | ledNone (b : Byte)
  -- SIZE and BLOCK (30_encoding R95, R96)
  /-- `SIZE`: `total_size = {hi, lo}`. -/
  | size (hi lo : Byte)
  /-- `BLOCK`: length byte, payload, checksum byte. -/
  | block (lb : Byte) (payload : List Byte) (ck : Byte)
  -- INTERNAL operations
  /-- `fetch`, 43_command_loop R200. -/
  | fetch
  /-- `dispatch`, R201. -/
  | dispatch
  /-- `LoadBinary.failure_ending`, R207. -/
  | loadFailure
  /-- `LoadBinary.success_ending`, R208. -/
  | loadSuccess
  /-- `load_protocol`, 44_load_protocol R230. -/
  | loadProtocol
  /-- `arm_timeout(n)`, 40_serial_link R123. -/
  | armTimeout (n : Nat)
  /-- `recv_byte()`, R121. -/
  | recvByte
  /-- `send_byte(b)`, R122. -/
  | sendByte (b : Byte)
  /-- `flush_input()`, R126. -/
  | flushInput
  /-- `validate()`, R125. -/
  | validate
  /-- the timer primitives, R124. -/
  | timer (op : TimerOp)
  /-- `receive_block(max_size)`, 41_block_transfer R150. -/
  | receiveBlock (maxSize : Byte)
  /-- `send_block(bytes, length)`, R151; the length is the list's. -/
  | sendBlock (bytes : List Byte)
  /-- `acquire_bus()`, 42_bus_arbiter R170. -/
  | acquireBus
  /-- `release_bus()`, R171. -/
  | releaseBus
  /-- `write_byte_at(addr, value)`, R172. -/
  | writeByteAt (addr : Addr) (value : Byte)
  /-- `read_byte_at(addr)`, R173. -/
  | readByteAt (addr : Addr)
  /-- `inject_raw` and `inject_image`, R174; `n` is the list's length. -/
  | inject (form : InjectForm) (base : Addr) (bytes : List Byte)
  /-- `read_region(count)`, R175. -/
  | readRegion (count : Nat)
  /-- `switch_bank(index)`, R176. -/
  | switchBank (index : Byte)
  /-- `trap_entry`, 60_exceptions R301. -/
  | trapEntry
  /-- `IOTrapDispatcher`, R302. -/
  | ioTrapDispatcher
  /-- `complete_trap`, R303. -/
  | completeTrap
  /-- `trap_return`, R304. -/
  | trapReturn
  deriving DecidableEq, Repr

end Sys2Proof
end

