-- ==== Sys2Proof/WellFormed.lean ====
section
/-! DEFINITION. Which terms of `Instr` stand for an operation with operands the spec allows. -/

namespace Sys2Proof

/-- The operands of `i` are in the range the spec gives them. -/
def Instr.wellFormed : Instr → Bool
  | .loadBinary => true
  | .echo => true
  | .uploadToRam => true
  | .downloadFromRam => true
  -- 30_encoding R92, R101: every byte but 1 to 4
  | .unknown b => b == 0 || 4 < b
  | .statusOk => true
  | .statusTimeout => true
  | .statusInvalidSize => true
  | .statusChecksumFailed => true
  | .statusUnknownCommand => true
  | .statusFrameError => true
  | .statusBufferOverflow => true
  -- R102: values 7 to 255
  | .statusReserved b => 6 < b
  | .port0Write => true
  | .port0Read => true
  | .port1Read => true
  | .port1Write => true
  | .port2Read => true
  | .port2Write => true
  -- R105: ports 3 to 15
  | .portUnknown _ p => 2 < p
  | .ledDisable => true
  | .ledEnable => true
  | .ledSelectLed => true
  | .ledSelectSwitch => true
  -- R106: data bytes 4 to 255
  | .ledNone b => 3 < b
  | .size _ _ => true
  -- R96, R97: `length_byte + 1` payload bytes
  | .block lb payload _ => payload.length == lb.toNat + 1
  | .fetch => true
  | .dispatch => true
  | .loadFailure => true
  | .loadSuccess => true
  | .loadProtocol => true
  -- 40_serial_link R123: an integer from 1 to 257
  | .armTimeout n => decide (1 ≤ n) && decide (n ≤ 257)
  | .recvByte => true
  | .sendByte _ => true
  | .flushInput => true
  | .validate => true
  -- R124: `d` in 1..TIMER_MAX
  | .timer (.arm d) => decide (1 ≤ d) && decide (d ≤ Config.timerMax)
  | .timer .expired => true
  | .timer .clear => true
  | .timer .tick => true
  | .receiveBlock _ => true
  -- 41_block_transfer R151: length 1 to 256
  | .sendBlock bytes => decide (1 ≤ bytes.length) && decide (bytes.length ≤ Config.blockMax)
  | .acquireBus => true
  | .releaseBus => true
  | .writeByteAt _ _ => true
  | .readByteAt _ => true
  | .inject _ _ _ => true
  -- 42_bus_arbiter R175: count 1 to 256
  | .readRegion count => decide (1 ≤ count) && decide (count ≤ Config.blockMax)
  | .switchBank _ => true
  | .trapEntry => true
  | .ioTrapDispatcher => true
  | .completeTrap => true
  | .trapReturn => true

end Sys2Proof
end

