-- ==== Sys2Proof/Decode.lean ====
section
/-! DEFINITION. Decoding of the six formats of 30_encoding, total on any bytes and rejecting by name, and the encoder. -/

namespace Sys2Proof

/-- Why bytes are no encoding of a format. -/
inductive DecodeError where
  /-- There is no byte to read. -/
  | noBytes
  /-- The bytes end before the SIZE field or BLOCK frame does (30_encoding R95, R111). -/
  | shortFrame
  /-- An IOREQ word has 5 bits (R104): a bit above them is set. -/
  | notIoreq
  deriving DecidableEq, Repr

/-- R92: the command is the whole byte. -/
def decodeCmd (b : Byte) : Instr :=
  if b = 0x01 then .loadBinary
  else if b = 0x02 then .echo
  else if b = 0x03 then .uploadToRam
  else if b = 0x04 then .downloadFromRam
  else .unknown b

/-- R94, R102. -/
def decodeStatus (b : Byte) : Instr :=
  if b = 0x00 then .statusOk
  else if b = 0x01 then .statusTimeout
  else if b = 0x02 then .statusInvalidSize
  else if b = 0x03 then .statusChecksumFailed
  else if b = 0x04 then .statusUnknownCommand
  else if b = 0x05 then .statusFrameError
  else if b = 0x06 then .statusBufferOverflow
  else .statusReserved b

/-- R105: the port and the direction select the operation. -/
def decodePort (dir : IoDir) (port : Port) : Instr :=
  if port = 0 then (match dir with | .write => .port0Write | .read => .port0Read)
  else if port = 1 then (match dir with | .write => .port1Write | .read => .port1Read)
  else if port = 2 then (match dir with | .write => .port2Write | .read => .port2Read)
  else .portUnknown dir port

/-- R104: bit `w` of the table's word, 1 for Write (D41). -/
def IoDir.bit : IoDir → BitVec 1
  | .read => 0
  | .write => 1

/-- R104: the packed word `{w, io_port[3:0]}` in the low 5 bits of a byte. -/
def ioreqWord (dir : IoDir) (port : Port) : Byte := 0#3 ++ dir.bit ++ port

/-- R104: the direction a word stands for. -/
def ioreqDir (b : Byte) : IoDir := if b.extractLsb' 4 1 = 1 then .write else .read

/-- R106: the data byte of a port-1 Write. -/
def decodeLedcmd (b : Byte) : Instr :=
  if b = Config.ledcmdDisable then .ledDisable
  else if b = Config.ledcmdEnable then .ledEnable
  else if b = Config.ledcmdModeLed then .ledSelectLed
  else if b = Config.ledcmdModeSwitch then .ledSelectSwitch
  else .ledNone b

/-- The instruction at the front of `bytes`, read in format `f`, and the bytes after it. Reserved values never fall through to
a neighbour: each format's remaining values are its own constructor. -/
def decode (f : Format) (bytes : List Byte) : Except DecodeError (Instr × List Byte) :=
  match bytes with
  | [] => .error .noBytes
  | b :: rest =>
    match f with
    | .cmd => .ok (decodeCmd b, rest)
    | .status => .ok (decodeStatus b, rest)
    | .ledcmd => .ok (decodeLedcmd b, rest)
    | .ioreq =>
      if b.extractLsb' 5 3 = 0 then .ok (decodePort (ioreqDir b) (b.extractLsb' 0 4), rest) else .error .notIoreq
    | .size =>
      match rest with
      | [] => .error .shortFrame
      | lo :: rest' => .ok (.size b lo, rest')
    | .block =>
      match rest.drop (b.toNat + 1) with
      | [] => .error .shortFrame
      | ck :: rest' => .ok (.block b (rest.take (b.toNat + 1)) ck, rest')

/-- The format and the bytes of an instruction, from the encoding tables of 30_encoding; an INTERNAL operation has no wire
form. -/
def encode : Instr → Option (Format × List Byte)
  | .loadBinary => some (.cmd, [0x01])
  | .echo => some (.cmd, [0x02])
  | .uploadToRam => some (.cmd, [0x03])
  | .downloadFromRam => some (.cmd, [0x04])
  | .unknown b => some (.cmd, [b])
  | .statusOk => some (.status, [0x00])
  | .statusTimeout => some (.status, [0x01])
  | .statusInvalidSize => some (.status, [0x02])
  | .statusChecksumFailed => some (.status, [0x03])
  | .statusUnknownCommand => some (.status, [0x04])
  | .statusFrameError => some (.status, [0x05])
  | .statusBufferOverflow => some (.status, [0x06])
  | .statusReserved b => some (.status, [b])
  | .port0Write => some (.ioreq, [ioreqWord .write 0])
  | .port0Read => some (.ioreq, [ioreqWord .read 0])
  | .port1Read => some (.ioreq, [ioreqWord .read 1])
  | .port1Write => some (.ioreq, [ioreqWord .write 1])
  | .port2Read => some (.ioreq, [ioreqWord .read 2])
  | .port2Write => some (.ioreq, [ioreqWord .write 2])
  | .portUnknown dir port => some (.ioreq, [ioreqWord dir port])
  | .ledDisable => some (.ledcmd, [Config.ledcmdDisable])
  | .ledEnable => some (.ledcmd, [Config.ledcmdEnable])
  | .ledSelectLed => some (.ledcmd, [Config.ledcmdModeLed])
  | .ledSelectSwitch => some (.ledcmd, [Config.ledcmdModeSwitch])
  | .ledNone b => some (.ledcmd, [b])
  | .size hi lo => some (.size, [hi, lo])
  | .block lb payload ck => some (.block, lb :: payload ++ [ck])
  | .fetch => none
  | .dispatch => none
  | .loadFailure => none
  | .loadSuccess => none
  | .loadProtocol => none
  | .armTimeout _ => none
  | .recvByte => none
  | .sendByte _ => none
  | .flushInput => none
  | .validate => none
  | .timer _ => none
  | .receiveBlock _ => none
  | .sendBlock _ => none
  | .acquireBus => none
  | .releaseBus => none
  | .writeByteAt _ _ => none
  | .readByteAt _ => none
  | .inject _ _ _ => none
  | .readRegion _ => none
  | .switchBank _ => none
  | .trapEntry => none
  | .ioTrapDispatcher => none
  | .completeTrap => none
  | .trapReturn => none

/-- The first `n` bytes of a word, the lowest first (the numbering of spec/opcode_table.json). -/
def wordBytes : Nat → Nat → List Byte
  | 0, _ => []
  | n + 1, w => BitVec.ofNat 8 w :: wordBytes n (w / 256)

/-- The format a table row of `nbits` bits is read in: 5 bits an IOREQ word, up to 8 a command byte, up to 16 the SIZE field,
more a BLOCK frame. The table's one-byte formats share their words; the machine tells them apart by position (log 1). -/
def tableFormat (nbits : Nat) : Format :=
  if nbits = 5 then .ioreq else if nbits ≤ 8 then .cmd else if nbits ≤ 16 then .size else .block

/-- How many bytes an instruction of a format can take (30_encoding R111: a frame at most 258). -/
def formatBytes : Format → Nat
  | .cmd => 1
  | .status => 1
  | .ledcmd => 1
  | .ioreq => 1
  | .size => 2
  | .block => 258

/-- The bytes of the table word `w`, in wire order. -/
def tableBytes (nbits w : Nat) : List Byte := wordBytes (formatBytes (tableFormat nbits)) w

/-- The instruction the decoder reads from a table word. -/
def decodeTableWord (nbits w : Nat) : Option Instr :=
  match decode (tableFormat nbits) (tableBytes nbits w) with
  | .ok (i, _) => some i
  | .error _ => none

end Sys2Proof
end

