-- ==== Sys2Proof/Machine/State.lean ====
section
/-! DEFINITION. The state of the block as plain data (10_state R20), the ways a step can stop, and the state after startup
(10_state R40). -/

namespace Sys2Proof.Machine

/-- The countdown timer (10_state R22). -/
inductive Timer where
  | idle
  /-- Armed, `n` ticks left. -/
  | running (n : Nat)
  | expired
  deriving DecidableEq, Repr

/-- Direction of a line group: `inp` is input with pull-up, released (10_state R30). -/
inductive LineDir where
  | inp
  | out
  deriving DecidableEq, Repr

/-- The two values of bus ownership (10_state R25). -/
inductive Owner where
  | controllerOwned
  | targetOwned
  deriving DecidableEq, Repr

/-- The six errors (60_exceptions R290). -/
inductive Err where
  | timeout
  | invalidSize
  | checksumFailed
  | unknownCommand
  | frameError
  | bufferOverflow
  deriving DecidableEq, Repr

/-- States of the load protocol (10_state R24, 44_load_protocol R230). -/
inductive LoadState where
  | awaitSize
  | awaitBlocks
  | done
  | aborted
  deriving DecidableEq, Repr

/-- The result of the operation that returned last (00_scope R13, Results). -/
inductive Ret where
  | unit
  | ok
  /-- `Ok(n)` of `receive_block`. -/
  | okLen (n : Nat)
  /-- `Err(E)`. -/
  | err (e : Err)
  /-- A byte of `recv_byte` or `read_byte_at`. -/
  | byte (v : Byte)
  /-- The signal `Timeout` of `recv_byte`. -/
  | timeout
  /-- The answer of `timer_expired`. -/
  | flag (b : Bool)
  /-- `load_protocol` returned `Done`. -/
  | done
  /-- `load_protocol` returned `Aborted`. -/
  | aborted
  deriving DecidableEq, Repr

/-- The variable on the left of an `x <- recv_byte()` statement. -/
inductive RxDst where
  /-- `cmd` (R200). -/
  | cmd
  /-- `b` of Echo (R202). -/
  | echoByte
  /-- `hi` of the size field (R230). -/
  | sizeHi
  /-- `lo` of the size field (R230). -/
  | sizeLo
  /-- `blk_lb` (R150). -/
  | blkLb
  /-- `blk_ck` (R150). -/
  | blkCk
  deriving DecidableEq, Repr

/-- A statement of an operation that is no call of a table row; each names its rule and statement number. -/
inductive Micro where
  /-- `x <- recv_byte()`. -/
  | recvInto (d : RxDst)
  /-- R150 step 6 for index `i`. -/
  | recvBuf (i : Byte)
  /-- R122 step 2. -/
  | txWrite (b : Byte)
  /-- R125 step 2. -/
  | validateChoose
  /-- R125 step 5. -/
  | validateClear
  /-- R123 step 2, for the product `d` of step 1. -/
  | armClamp (d : Nat)
  /-- `return r`. -/
  | giveResult (r : Ret)
  /-- R150 the test of step 3. -/
  | blockChecked (maxSize : Byte)
  /-- R150 step 4. -/
  | blockLength (maxSize : Byte)
  /-- R150 the test of step 8. -/
  | blockPayload
  /-- R150 step 10. -/
  | blockCompare
  /-- R150 step 11. -/
  | blockOk
  /-- R151 step 2. -/
  | sendBlockZero (bytes : List Byte)
  /-- R151 steps 3, 4: the bytes still to send. -/
  | sendBlockBytes (bytes : List Byte)
  /-- R151 step 3, the XOR. -/
  | sendBlockFold (b : Byte)
  /-- R170 step 2. -/
  | awaitGrant
  /-- R174 `inject_image` step 3. -/
  | injectRelease (keepLocked : Bool)
  /-- R175 step 2 from index `i`, `left` reads to go. -/
  | readRegion (i : Byte) (left : Nat)
  /-- R202 step 4. -/
  | echoReply
  /-- `fg_pc <- FETCH`, the last step of every command (R202 to R206). -/
  | toFetch
  /-- R203 step 2. -/
  | uploadChecked
  /-- R203 step 3. -/
  | uploadLength
  /-- R203 step 4, for the length `n` of step 3. -/
  | uploadInject (n : Nat)
  /-- R204 step 2. -/
  | downloadSend
  /-- R206 and R207 step 2. -/
  | assertReset
  /-- R206 step 3. -/
  | disableTrap
  /-- R206 step 5. -/
  | releaseReset
  /-- R206 step 6. -/
  | startClock
  /-- R206 step 8. -/
  | loadResult
  /-- R230 the test of step 5. -/
  | sizeChecked
  /-- R230 step 8. -/
  | writeCount
  /-- R230 step 11. -/
  | enterBlocks
  /-- R230 step 12. -/
  | blocksLoop
  /-- R230 the test of step 13. -/
  | blockReceived
  /-- R230 step 14. -/
  | requireLb
  /-- R230 step 15, for the `required_lb` of step 14. -/
  | checkLb (required : Byte)
  /-- R230 step 16. -/
  | takeBlock
  /-- R230 step 17, for the `n` and `final` of step 16. -/
  | injectBlock (n : Nat) (final : Bool)
  /-- R230 step 18. -/
  | advanceAddr (n : Nat)
  /-- R230 step 20. -/
  | reduceRemaining (n : Nat)
  /-- R230 `load_state <- Aborted; return Aborted` of step 15. -/
  | loadAbort
  /-- R230 step 21. -/
  | loadDone
  deriving DecidableEq, Repr

/-- One entry of the foreground's remaining program (10_state R37). -/
inductive Stmt where
  /-- A call of an operation of the table. -/
  | op (i : Instr)
  /-- The label `DISPATCH(cmd)` (R201): a command byte to decode in format CMD. -/
  | command (b : Byte)
  /-- R230 step 6: the two size bytes, to decode in format SIZE. -/
  | sizeField
  /-- R150 step 9: the received frame, to decode in format BLOCK. -/
  | blockField
  /-- Any other statement. -/
  | micro (m : Micro)
  deriving DecidableEq, Repr

/-- The dispatcher's position (60_exceptions R302, R303). -/
inductive TrapPos where
  /-- R302 step 2: an IOREQ word to decode. -/
  | dispatchPort
  /-- R302 step 3, R303 step 1. -/
  | complete
  /-- R303 step 2. -/
  | pulseWaitAck
  /-- R303 step 3. -/
  | awaitAck
  /-- R303 step 4. -/
  | releaseData
  /-- R303 step 5. -/
  | dropRequest
  /-- R302 step 4. -/
  | ret
  deriving DecidableEq, Repr

/-- The error marks of a received byte (10_state R26). -/
structure RxMarks where
  fe : Bool
  ovf : Bool
  deriving DecidableEq, Repr

/-- A record of the receive queue (10_state R26). -/
structure RxRecord where
  data : Byte
  marks : RxMarks
  deriving DecidableEq, Repr

/-- A byte on the serial wire toward the controller (00_scope R9, R12 `RX`; 60_exceptions R325). -/
structure WireByte where
  data : Byte
  /-- Its stop bit was bad. -/
  badStop : Bool
  deriving DecidableEq, Repr

/-- A bus cycle of the target (60_exceptions R321 to R323). -/
inductive BusCycle where
  | memRead (a : Addr)
  | memWrite (a : Addr) (v : Byte)
  /-- An I/O cycle; on a Read `data` is the level the undriven lines show (log 18). -/
  | io (port : Port) (dir : IoDir) (data : Byte)
  deriving DecidableEq, Repr

/-- Who moves next (00_scope R9; log 4). -/
inductive Move where
  /-- The controller: the trap context if it is running or may be entered, else the foreground. -/
  | controller
  /-- The foreground although the trap could be entered: a delayed entry (60_exceptions R300). -/
  | foreground
  /-- The host puts a byte on the wire, with or without a bad stop bit (R9, 60_exceptions R325). -/
  | hostSend (d : Byte) (badStop : Bool)
  /-- The host takes a byte the controller sent (R9). -/
  | hostTake
  /-- The receiver moves a byte from the wire into its queue (10_state R26). -/
  | rx
  /-- The UART's lossy error status will skip these assignments for the next byte consumed (40_serial_link R130; log 10). -/
  | loseMarks (fe ovf : Bool)
  /-- The transmitter (10_state R27). -/
  | tx
  /-- The timer agent (40_serial_link R124). -/
  | tick
  /-- The target sees the request, releases the bus and acknowledges (60_exceptions R320 a). -/
  | grant
  /-- The target sees the request withdrawn and drops its acknowledgment (R320 d). -/
  | ungrant
  /-- The target begins a bus cycle (R320 a, R321). -/
  | cycleStart (c : BusCycle)
  /-- The bus cycle in progress has its effect: memory is read or written (R323), or the I/O request is made (R322). -/
  | cycleEnd
  /-- The switch changes the level it puts on LEDSW (10_state R34). -/
  | switchLevel (v : Bool)
  deriving DecidableEq, Repr

/-- SerialLink (10_state R21, R22). -/
structure Link where
  /-- `frame_error`. -/
  frameError : Bool
  /-- `buffer_overflow`. -/
  bufferOverflow : Bool
  /-- `timeout`. -/
  timeout : Bool
  /-- `timer`. -/
  timer : Timer
  /-- The model's own: the assignments skipped for the next byte consumed, under LOSSY_ERROR_LATCH (40_serial_link R130;
  log 10). -/
  skipNext : RxMarks
  /-- The model's own: how many bytes must still be consumed before a checkpoint, since an assignment was skipped (R130;
  log 10). -/
  owed : Nat
  deriving DecidableEq, Repr

/-- Block (10_state R23). -/
structure Block where
  /-- `blk_buf[0..255]`. -/
  buf : Vector Byte 256
  /-- `blk_lb`. -/
  lb : Byte
  /-- `blk_xor`. -/
  xor : Byte
  /-- `blk_ck`. -/
  ck : Byte
  deriving DecidableEq, Repr

/-- BinaryImage (10_state R24). -/
structure Image where
  /-- `total_size`. -/
  totalSize : Size
  /-- `remaining_size`. -/
  remainingSize : Size
  /-- `block_count`, 0 to 256. -/
  blockCount : BitVec 9
  /-- `next_addr`. -/
  nextAddr : Addr
  /-- `load_state`. -/
  loadState : LoadState
  deriving DecidableEq, Repr

/-- Bus (10_state R28 to R32). -/
structure Bus where
  /-- `BUSREQ`. -/
  busreq : Bool
  /-- `BUSACK`, driven by the target. -/
  busack : Bool
  /-- `data_dir`. -/
  dataDir : LineDir
  /-- `data_out`. -/
  dataOut : Byte
  /-- `addr_dir`. -/
  addrDir : LineDir
  /-- `addr_out`. -/
  addrOut : Addr
  /-- `memctl_dir`. -/
  memctlDir : LineDir
  /-- `mem_oe`. -/
  memOe : Bool
  /-- `mem_we`. -/
  memWe : Bool
  /-- `mem_ce`. -/
  memCe : Bool
  /-- `TGT_RESET`. -/
  tgtReset : Bool
  /-- `TGT_CLK_RUN`. -/
  tgtClkRun : Bool
  deriving DecidableEq, Repr

/-- MemoryBank (10_state R33). -/
structure Bank where
  /-- `bank_index`. -/
  bankIndex : Byte
  /-- `visible_bank`, the external latch. -/
  visibleBank : Byte
  deriving DecidableEq, Repr

/-- The port-1 line (10_state R34). -/
structure Port1 where
  /-- `ledsw_dir`. -/
  dir : LineDir
  /-- `ledsw_out`. -/
  out : Bool
  /-- `ledsw_ext`, driven by the switch. -/
  ext : Bool
  deriving DecidableEq, Repr

/-- The trap bits and the IORequest (10_state R35, R36), with the dispatcher's position. -/
structure Trap where
  /-- `trap_enable`. -/
  enable : Bool
  /-- `trap_pending`. -/
  pending : Bool
  /-- `in_trap`. -/
  inTrap : Bool
  /-- `io_port`. -/
  ioPort : Port
  /-- `io_dir`. -/
  ioDir : IoDir
  /-- `io_data`. -/
  ioData : Byte
  /-- The dispatcher's position; without meaning while `inTrap` is false (log 17). -/
  pos : TrapPos
  deriving DecidableEq, Repr

/-- The foreground position (10_state R37) with the variables of its pseudocode (log 17). -/
structure Foreground where
  /-- `fg_pc`: the remaining program, the statement to execute next first. -/
  pc : List Stmt
  /-- `cmd` (R200). -/
  cmd : Byte
  /-- `b` of Echo (R202). -/
  echoByte : Byte
  /-- `hi` (R230). -/
  sizeHi : Byte
  /-- `lo` (R230). -/
  sizeLo : Byte
  /-- The result of the operation that returned last. -/
  ret : Ret
  deriving DecidableEq, Repr

/-- The UART primitive (10_state R26, R27). -/
structure Uart where
  /-- `rx_fifo`, oldest first. -/
  rxFifo : List RxRecord
  /-- `rx_lost`. -/
  rxLost : Bool
  /-- `tx_reg`: `none` is Empty. -/
  txReg : Option Byte
  deriving DecidableEq, Repr

/-- What the environment drives, has received and has in progress (00_scope R9, R12, 60_exceptions R319 to R325; log 18). -/
structure Env where
  /-- `PA`. -/
  pa : Port
  /-- `RW`. -/
  rw : IoDir
  /-- The level on `DATA` while the controller does not drive it. -/
  dataIn : Byte
  /-- `IOTRAP`: true from the start of an I/O cycle to its end. -/
  iotrap : Bool
  /-- The bytes on the wire toward the controller, oldest first (00_scope R9). -/
  rxWire : List WireByte
  /-- The bytes on the wire toward the host, oldest first (10_state R27, 00_scope R9). -/
  txWire : List Byte
  /-- The bytes the host has taken, oldest first (00_scope R9). -/
  hostRecv : List Byte
  /-- The value the target's last read cycle took. -/
  tgtData : Byte
  /-- The target's bus cycle in progress (60_exceptions R320 a; log 6). -/
  cycle : Option BusCycle
  /-- The target has begun no cycle since its reset (60_exceptions R319). -/
  fresh : Bool
  deriving DecidableEq, Repr

/-- The whole state: the entities of 10_state, the memory device, the environment, and the model's own counter of free values
and schedule. -/
structure State where
  /-- SerialLink, R21, R22. -/
  link : Link
  /-- Block, R23. -/
  blk : Block
  /-- BinaryImage, R24. -/
  img : Image
  /-- Bus, R28 to R32. -/
  bus : Bus
  /-- MemoryBank, R33. -/
  bank : Bank
  /-- Port 1, R34. -/
  port1 : Port1
  /-- Trap and IORequest, R35, R36. -/
  trap : Trap
  /-- The foreground position, R37. -/
  fg : Foreground
  /-- The UART, R26, R27. -/
  uart : Uart
  /-- The environment's lines and streams. -/
  env : Env
  /-- `mem` by physical location (20_memory R61): sorted, no entry equal to the startup byte of its location (log 13). -/
  mem : List Host.Cell
  /-- The model's own: how many free values were drawn (log 7). -/
  freeCount : Nat
  /-- The model's own: who moves next; empty means the controller (log 4). -/
  schedule : List Move
  deriving DecidableEq, Repr

/-- The faults of the machine. -/
inductive Fault where
  /-- `fault(DriveWhileNotOwner)` (42_bus_arbiter R177, U1): raised by `write_byte_at`, `read_byte_at` and `switch_bank` (and
  the operations that call them) when the target owns the bus; safe: the source calls what follows undefined. -/
  | driveWhileNotOwner
  deriving DecidableEq, Repr

/-- The refusals of the machine. -/
inductive Refusal where
  /-- Raised by an arm of `exec` whose instruction has no meaning yet; safe. -/
  | notModelled (mnemonic : String)
  /-- Raised by `STATUS.reserved` (30_encoding R102, U12: never sent, a model that sends one is wrong); safe. -/
  | reservedStatus (b : Byte)
  /-- Raised by `validate` where a scheduled move had the assignment of one of the last `RX_DEPTH` bytes consumed skipped:
  40_serial_link R130 admits no such run (log 10); safe, and raised under the parameter alone. -/
  | skippedLatch
  /-- Raised by a scheduled move of the target that its contract does not have (60_exceptions R318 to R324, U22: refuse);
  unsafe for a target that breaks the contract. -/
  | targetContract (m : Move)
  /-- Raised where bytes at a decode position are no encoding of the position's format; no position of the machine's own
  making does; safe. -/
  | undecodable (e : DecodeError)
  deriving DecidableEq, Repr

/-- The outcome of one step or operation. -/
abbrev Result := Host.Outcome State Fault Refusal

/-- The machine right after startup (10_state R40; the values R40 leaves unspecified are log 14's). -/
def State.reset : State where
  link := { frameError := false, bufferOverflow := false, timeout := false, timer := .idle, skipNext := ⟨false, false⟩, owed := 0 }
  blk := { buf := Vector.replicate 256 0, lb := 0, xor := 0, ck := 0 }
  img := { totalSize := 0, remainingSize := 0, blockCount := 0, nextAddr := 0, loadState := .awaitSize }
  bus :=
    { busreq := false, busack := false, dataDir := .inp, dataOut := 0, addrDir := .inp, addrOut := 0, memctlDir := .inp,
      memOe := false, memWe := false, memCe := false, tgtReset := false, tgtClkRun := true }
  bank := { bankIndex := 0, visibleBank := 0 }
  port1 := { dir := .inp, out := false, ext := false }
  trap :=
    { enable := true, pending := false, inTrap := false, ioPort := 0, ioDir := .read, ioData := 0, pos := .dispatchPort }
  fg := { pc := [.op .fetch], cmd := 0, echoByte := 0, sizeHi := 0, sizeLo := 0, ret := .unit }
  uart := { rxFifo := [], rxLost := false, txReg := none }
  env :=
    { pa := 0, rw := .read, dataIn := 0, iotrap := false, rxWire := [], txWire := [], hostRecv := [], tgtData := 0,
      cycle := none, fresh := false }
  mem := []
  freeCount := 0
  schedule := []

end Sys2Proof.Machine
end

