-- ==== Sys2Proof/Machine/Ops.lean ====
section
/-! DEFINITION. The named operations over memory, lines, timer, UART and trap that the meanings share (00_scope R13), taking the
trap and returning from it among them. -/

namespace Sys2Proof.Machine

/-! ## Memory (20_memory R61 to R65) -/

/-- The byte at physical location `a`: an unlisted location holds its startup byte (R61; log 13). -/
def memRead : List Host.Cell → Nat → Byte
  | [], a => Config.startupByte a
  | (k, v) :: m, a => if k = a then v else memRead m a

/-- `mem` with byte `v` at physical location `a`, in canonical form. -/
def memWrite : List Host.Cell → Nat → Byte → List Host.Cell
  | [], a, v => if v = Config.startupByte a then [] else [(a, v)]
  | (k, w) :: m, a, v =>
    if a < k then (if v = Config.startupByte a then (k, w) :: m else (a, v) :: (k, w) :: m)
    else if a = k then (if v = Config.startupByte a then m else (a, v) :: m)
    else (k, w) :: memWrite m a v

/-- The canonical form: locations strictly rising, no entry equal to what an unlisted location reads as. -/
abbrev memWf (m : List Host.Cell) : Prop :=
  m.Pairwise (fun c d => c.1 < d.1) ∧ ∀ c ∈ m, c.2 ≠ Config.startupByte c.1

/-- The physical location of address `a` in the visible bank (20_memory R62, R63). -/
def State.location (s : State) (a : Addr) : Nat := Config.bankMap s.bank.visibleBank a

/-- `MemRead(addr, 1)` (20_memory R64). -/
def State.memByte (s : State) (a : Addr) : Byte := memRead s.mem (s.location a)

/-- `MemWrite(addr, 1, v)` (20_memory R65). -/
def State.setMemByte (s : State) (a : Addr) (v : Byte) : State := { s with mem := memWrite s.mem (s.location a) v }

/-! ## Ownership and the target's condition -/

/-- `owner` as a function of three signals (10_state R28). -/
def State.owner (s : State) : Owner :=
  if s.bus.tgtReset || (s.bus.busreq && s.bus.busack) then .controllerOwned else .targetOwned

/-- The five conditions of the target (60_exceptions R318). -/
inductive TargetCondition where
  | held
  | stopped
  | frozen
  | granted
  | running
  deriving DecidableEq, Repr

/-- The first condition that applies, in R318's order. -/
def State.targetCondition (s : State) : TargetCondition :=
  if s.bus.tgtReset then .held
  else if !s.bus.tgtClkRun then .stopped
  else if s.trap.pending then .frozen
  else if s.bus.busack then .granted
  else .running

/-- The requirement of every driving operation (42_bus_arbiter R177). -/
def requireOwner (s : State) (k : State → Result) : Result :=
  match s.owner with
  | .controllerOwned => k s
  | .targetOwned => .fault .driveWhileNotOwner

/-! ## The foreground position -/

/-- The statements `ks` come before what was to follow. -/
def State.push (s : State) (ks : List Stmt) : State := { s with fg.pc := ks ++ s.fg.pc }

/-- `fg_pc <- L`: what follows is exactly `ks`. -/
def State.goto (s : State) (ks : List Stmt) : State := { s with fg.pc := ks }

/-- `return r`. -/
def State.give (s : State) (r : Ret) : State := { s with fg.ret := r }

/-! ## Free values -/

/-- One more free value has been drawn. -/
def State.drawn (s : State) : State := { s with freeCount := s.freeCount + 1 }

/-! ## Line groups (00_scope R13: set_dir, drive, sample) -/

/-- `set_dir(DATA, d)`. -/
def State.setDataDir (s : State) (d : LineDir) : State := { s with bus.dataDir := d }

/-- `drive(DATA, v)`. -/
def State.driveData (s : State) (v : Byte) : State := { s with bus.dataOut := v }

/-- `set_dir(ADDR, d)`. -/
def State.setAddrDir (s : State) (d : LineDir) : State := { s with bus.addrDir := d }

/-- `drive(ADDR, a)`. -/
def State.driveAddr (s : State) (a : Addr) : State := { s with bus.addrOut := a }

/-- `set_dir(MEMCTL, d)`. -/
def State.setMemctlDir (s : State) (d : LineDir) : State := { s with bus.memctlDir := d }

/-- The levels of `mem_ce`, `mem_we`, `mem_oe`. -/
def State.strobes (s : State) (ce we oe : Bool) : State :=
  { s with bus.memCe := ce, bus.memWe := we, bus.memOe := oe }

/-- `sample(DATA)`: the controller's own level while it drives, else the environment's. -/
def State.sampleData (s : State) : Byte :=
  match s.bus.dataDir with
  | .out => s.bus.dataOut
  | .inp => s.env.dataIn

/-- `sample(LEDSW)` (10_state R34). -/
def State.sampleLedsw (s : State) : Bool :=
  match s.port1.dir with
  | .out => s.port1.out
  | .inp => s.port1.ext

/-- The line operations of `write_byte_at` in order (42_bus_arbiter R172), once ownership holds. -/
def State.writeCycle (s : State) (a : Addr) (v : Byte) : State :=
  let driven := (((s.setAddrDir .out).driveAddr a).setDataDir .out).driveData v
  let strobed := (driven.setMemctlDir .out).strobes true true false
  let written := strobed.setMemByte a v
  (((written.strobes false false false).setMemctlDir .inp).setDataDir .inp).setAddrDir .inp

/-- The line operations of `read_byte_at` in order (42_bus_arbiter R173), once ownership holds. -/
def State.readCycle (s : State) (a : Addr) : State × Byte :=
  let driven := ((s.setAddrDir .out).driveAddr a).setDataDir .inp
  let strobed := (driven.setMemctlDir .out).strobes true false true
  let v := strobed.memByte a
  (((strobed.strobes false false false).setMemctlDir .inp).setAddrDir .inp, v)

/-- `pulse(BANK_LATCH)`: the latch captures the level on DATA (42_bus_arbiter R176, 45_io_ports R270). -/
def State.latchBank (s : State) (v : Byte) : State := { s with bank.visibleBank := v }

/-- `bank_index <- v`. -/
def State.setBankIndex (s : State) (v : Byte) : State := { s with bank.bankIndex := v }

/-- The line operations of `switch_bank` in order (42_bus_arbiter R176), once ownership holds. -/
def State.bankCycle (s : State) (v : Byte) : State :=
  let driven := (s.setDataDir .out).driveData v
  let latched := driven.latchBank driven.sampleData
  (latched.setDataDir .inp).setBankIndex v

/-- `BUSREQ <- b`. -/
def State.setBusreq (s : State) (b : Bool) : State := { s with bus.busreq := b }

/-- `TGT_CLK_RUN <- b`: `clock_start()`, `clock_stop()` (00_scope R13). -/
def State.setClock (s : State) (b : Bool) : State := { s with bus.tgtClkRun := b }

/-- `TGT_RESET <- 1`, with what the target does at once (60_exceptions R324): its cycle, frozen or in progress, is abandoned,
the acknowledgment falls, and it will begin at address 0 (R319). DESIGN CHOICE: `PA`, `RW` and the undriven `DATA` keep their
last level, which the spec does not give (log 18). -/
def State.holdTarget (s : State) : State :=
  { s with
    bus.tgtReset := true, bus.busack := false, trap.pending := false, env.iotrap := false, env.cycle := none,
    env.fresh := true }

/-- `TGT_RESET <- 0` (60_exceptions R319). -/
def State.freeTarget (s : State) : State := { s with bus.tgtReset := false }

/-- `trap_enable <- b` (60_exceptions R306). -/
def State.setTrapEnable (s : State) (b : Bool) : State := { s with trap.enable := b }

/-! ## The timer (40_serial_link R124) -/

/-- `timer <- t`. -/
def State.setTimer (s : State) (t : Timer) : State := { s with link.timer := t }

/-- One tick: both statements of R124 within it, so that `running 1` becomes `expired`. -/
def Timer.tick : Timer → Timer
  | .idle => .idle
  | .running n => if n ≤ 1 then .expired else .running (n - 1)
  | .expired => .expired

/-- The duration `arm_timeout(n)` computes: a saturating product (R123). -/
def timeoutTicks (n : Nat) : Nat := min (n * Config.ticksPerByte) Config.timerMax

/-- `arm_timeout(n)` step 1 (R123), with steps 2 and 3 to follow. -/
def State.armTimeout (s : State) (n : Nat) : State := s.push [.micro (.armClamp (n * Config.ticksPerByte))]

/-! ## The UART (10_state R26, R27) -/

/-- The receiver's step for byte `d` with frame-error mark `fe` (R26). -/
def State.receive (s : State) (d : Byte) (fe : Bool) : State :=
  if s.uart.rxFifo.length < Config.rxDepth then
    { s with uart.rxFifo := s.uart.rxFifo ++ [⟨d, ⟨fe, s.uart.rxLost⟩⟩], uart.rxLost := false }
  else { s with uart.rxLost := true }

/-- The transmitter's step (R27): `tx_reg` moves onto the wire. -/
def State.transmit (s : State) : State :=
  match s.uart.txReg with
  | none => s
  | some b => { s with uart.txReg := none, env.txWire := s.env.txWire ++ [b] }

/-- The host puts a byte on the wire toward the controller (00_scope R9). -/
def State.hostSend (s : State) (d : Byte) (badStop : Bool) : State :=
  { s with env.rxWire := s.env.rxWire ++ [⟨d, badStop⟩] }

/-- The host takes the oldest byte on its wire, if there is one (00_scope R9). -/
def State.hostTake (s : State) : State :=
  match s.env.txWire with
  | [] => s
  | b :: rest => { s with env.txWire := rest, env.hostRecv := s.env.hostRecv ++ [b] }

/-- The receiver moves the oldest byte of its wire, if there is one, into its queue (00_scope R9, R26). -/
def State.receiveWire (s : State) : State :=
  match s.env.rxWire with
  | [] => s
  | w :: rest => { s with env.rxWire := rest }.receive w.data w.badStop

/-- `flush_input()` (40_serial_link R126): one step. -/
def State.flushInput (s : State) : State := { s with uart.rxFifo := [], uart.rxLost := false }

/-- `tx_write(b)`: into an empty register; with the register occupied one of the two bytes is lost, a free choice
(45_io_ports R261 (b), 40_serial_link R122, U10; log 9). -/
def State.txWrite (s : State) (b : Byte) : State :=
  match s.uart.txReg with
  | none => { s with uart.txReg := some b }
  | some p => { s.drawn with uart.txReg := some (if Config.freeBit s.freeCount then b else p) }

/-- `send_byte(b)` up to the first test of its wait (40_serial_link R122): with the transmitter free what remains is
`tx_write(b)`, else the whole call. -/
def State.sendByte (s : State) (b : Byte) : State :=
  match s.uart.txReg with
  | none => s.push [.micro (.txWrite b)]
  | some _ => s.push [.op (.sendByte b)]

/-! ## Bus brackets (42_bus_arbiter R170, R174) -/

/-- `acquire_bus()` step 1; the wait of step 2 remains. -/
def State.acquireBus (s : State) : State := (s.setBusreq true).push [.micro .awaitGrant]

/-- `inject_image(base, bytes, n, keep_locked)` up to the wait of its `acquire_bus` (R174). -/
def State.injectImage (s : State) (base : Addr) (bytes : List Byte) (keepLocked : Bool) : State :=
  (s.push [.op (.inject .raw base bytes), .micro (.injectRelease keepLocked)]).acquireBus

/-! ## Taking the trap and returning from it (60_exceptions R299 to R305) -/

/-- R300: the trap context may be entered. -/
def State.trapReady (s : State) : Bool := s.trap.enable && s.trap.pending && !s.trap.inTrap

/-- R301: the request is sampled from the lines; nothing else is saved, the foreground position stays. -/
def State.enterTrap (s : State) : State :=
  { s with
    trap.inTrap := true, trap.ioPort := s.env.pa, trap.ioDir := s.env.rw, trap.ioData := s.sampleData,
    trap.pos := .dispatchPort }

/-- R304: the foreground continues where it was. -/
def State.leaveTrap (s : State) : State := { s with trap.inTrap := false }

/-- The dispatcher goes on at `p`. -/
def State.setTrapPos (s : State) (p : TrapPos) : State := { s with trap.pos := p }

/-- R303 step 2, `pulse(WAIT_ACK)`: the target takes the value on DATA on a Read (R273, R322) and ends its cycle. DESIGN
CHOICE: `PA` and `RW` keep their last level (log 18). -/
def State.pulseWaitAck (s : State) : State :=
  { s with
    trap.pending := false, env.iotrap := false,
    env.tgtData := (match s.trap.ioDir with | .read => s.sampleData | .write => s.env.tgtData) }

/-- The target begins bus cycle `c` (R320 a, R321). -/
def State.startCycle (s : State) (c : BusCycle) : State := { s with env.cycle := some c, env.fresh := false }

/-- No bus cycle of the target is in progress. -/
def State.endCycle (s : State) : State := { s with env.cycle := none }

/-- The value the target's read cycle takes. -/
def State.targetTakes (s : State) (v : Byte) : State := { s with env.tgtData := v }

/-- The target's I/O cycle makes its request and freezes it (R322). -/
def State.startIoCycle (s : State) (port : Port) (dir : IoDir) (data : Byte) : State :=
  { s with
    env.pa := port, env.rw := dir, env.dataIn := data, env.iotrap := true, trap.pending := true }

end Sys2Proof.Machine
end

