-- ==== Sys2Proof/Machine/Operands.lean ====
section
/-! DEFINITION. Operands of the operations: the block buffer, frames, the size arithmetic of 30_encoding R110. -/

namespace Sys2Proof.Machine

/-- `blk_buf[i] <- v` (10_state R23). -/
def State.setBuf (s : State) (i v : Byte) : State := { s with blk.buf := s.blk.buf.set i.toNat v i.isLt }

/-- `blk_buf[0..n-1]`. -/
def State.bufBytes (s : State) (n : Nat) : List Byte := s.blk.buf.toList.take n

/-- The payload of the block received: `blk_lb + 1` bytes, computed in more than 8 bits (30_encoding R97). -/
def State.payloadLen (s : State) : Nat := s.blk.lb.toNat + 1

/-- The payload bytes of the block received. -/
def State.payload (s : State) : List Byte := s.bufBytes s.payloadLen

/-- The frame the Block registers hold, in wire order (30_encoding R96). -/
def State.frameBytes (s : State) : List Byte := s.blk.lb :: s.payload ++ [s.blk.ck]

/-- A buffer whose first bytes are `bytes` and whose others stay. -/
def bufStore (buf : Vector Byte 256) (bytes : List Byte) : Vector Byte 256 :=
  Vector.ofFn fun j => match bytes[j.val]? with
    | some b => b
    | none => buf[j.val]

/-- The Block registers hold the frame `lb`, `payload`, `ck` (41_block_transfer R150 steps 2, 6, 7). -/
def State.storeFrame (s : State) (lb : Byte) (payload : List Byte) (ck : Byte) : State :=
  { s with blk.lb := lb, blk.buf := bufStore s.blk.buf payload, blk.ck := ck }

/-- The checksum: XOR of all bytes from the initial value 0 (30_encoding R98). -/
def xorFold (bytes : List Byte) : Byte := bytes.foldl (· ^^^ ·) 0

/-- `total_size = {hi, lo}` (30_encoding R95). -/
def sizeOf (hi lo : Byte) : Size := hi ++ lo

/-- `block_count = (total_size + 255) div 256`, without wrap (30_encoding R99, R110). -/
def blockCountOf (total : Size) : BitVec 9 := BitVec.ofNat 9 ((total.toNat + 255) / 256)

/-- `required_lb = min(remaining_size, 256) - 1` (30_encoding R110; evaluated with `remaining_size >= 1`). -/
def requiredLb (remaining : Size) : Byte := BitVec.ofNat 8 (min remaining.toNat 256 - 1)

/-- `(a + n) mod 2^AW` (20_memory R71). -/
def addrPlus (a : Addr) (n : Nat) : Addr := a + BitVec.ofNat 16 n

/-- Step 6 of the load protocol for the size field `hi lo` (44_load_protocol R230). -/
def State.setSize (s : State) (hi lo : Byte) : State :=
  { s with
    img.totalSize := sizeOf hi lo, img.remainingSize := sizeOf hi lo, img.blockCount := blockCountOf (sizeOf hi lo),
    img.nextAddr := Config.loadBase }

/-- `load_state <- l`. -/
def State.setLoadState (s : State) (l : LoadState) : State := { s with img.loadState := l }

/-- The byte that reaches the status stream for an error (30_encoding R94). -/
def Err.code : Err → Byte
  | .timeout => 1
  | .invalidSize => 2
  | .checksumFailed => 3
  | .unknownCommand => 4
  | .frameError => 5
  | .bufferOverflow => 6

/-- The status operation that reports an error (30_encoding R94). -/
def Err.status : Err → Instr
  | .timeout => .statusTimeout
  | .invalidSize => .statusInvalidSize
  | .checksumFailed => .statusChecksumFailed
  | .unknownCommand => .statusUnknownCommand
  | .frameError => .statusFrameError
  | .bufferOverflow => .statusBufferOverflow

/-- The variable `d` takes value `v`. -/
def State.store (s : State) (d : RxDst) (v : Byte) : State :=
  match d with
  | .cmd => { s with fg.cmd := v }
  | .echoByte => { s with fg.echoByte := v }
  | .sizeHi => { s with fg.sizeHi := v }
  | .sizeLo => { s with fg.sizeLo := v }
  | .blkLb => { s with blk.lb := v }
  | .blkCk => { s with blk.ck := v }

/-- The level read from LEDSW as a data byte: bit 0 (45_io_ports R263, D37). -/
def levelByte (v : Bool) : Byte := if v then 1 else 0

/-- `set_dir(DATA, Out); drive(DATA, v)`: the answer to a port Read, held until the handshake (45_io_ports R272). -/
def State.answerRead (s : State) (v : Byte) : State := (s.setDataDir .out).driveData v

end Sys2Proof.Machine
end

