-- ==== Sys2Proof/Machine/Flags.lean ====
section
/-! DEFINITION. The sticky flags: latching marks, the checkpoint's choice, and one test of `recv_byte` (40_serial_link R121,
R125, R127, R130). -/

namespace Sys2Proof.Machine

/-- The assignments of R121: each flag from 0 to 1 only. -/
def Link.latch (l : Link) (m : RxMarks) : Link :=
  { l with frameError := l.frameError || m.fe, bufferOverflow := l.bufferOverflow || m.ovf }

/-- The marks whose assignments are made, of a byte with marks `m`, where those of `skip` are skipped (R130). -/
def RxMarks.kept (m skip : RxMarks) : RxMarks := ⟨m.fe && !skip.fe, m.ovf && !skip.ovf⟩

/-- Latching under LOSSY_ERROR_LATCH (R130): either assignment may be skipped, each by itself; `RX_DEPTH` further bytes are
then owed before a checkpoint (log 10). -/
def Link.latchLossy (l : Link) (m : RxMarks) : Link :=
  { l.latch (m.kept l.skipNext) with
    skipNext := ⟨false, false⟩, owed := if m.kept l.skipNext = m then l.owed - 1 else Config.rxDepth }

/-- What `recv_byte` does with the marks of the byte it consumes: R121, weakened by R130 under the parameter. -/
def State.latchMarks (s : State) (m : RxMarks) : State :=
  { s with link := if Config.lossyErrorLatch then s.link.latchLossy m else s.link.latch m }

/-- An assignment was skipped for one of the last `RX_DEPTH` bytes consumed: R130 has no checkpoint here (log 10). -/
def Link.skippedLate (l : Link) : Bool := l.owed != 0 && Config.lossyErrorLatch

/-- All three sticky flags are 0 (R125 step 1). -/
def Link.clear (l : Link) : Bool := !l.frameError && !l.bufferOverflow && !l.timeout

/-- The error a checkpoint reports: FrameError, then BufferOverflow, then Timeout (R127). -/
def Link.choose (l : Link) : Err :=
  if l.frameError then .frameError else if l.bufferOverflow then .bufferOverflow else .timeout

/-- R125 step 5: the flags and the timer are cleared. -/
def State.clearFlags (s : State) : State :=
  { s with
    link.frameError := false, link.bufferOverflow := false, link.timeout := false, link.timer := .idle }

/-- What one test of `recv_byte` finds. -/
inductive Recv where
  /-- A byte was taken. -/
  | got (d : Byte) (s : State)
  /-- The result is `Timeout`. -/
  | expired (s : State)
  /-- Neither: the wait goes on. -/
  | waiting

/-- `timeout <- 1` (R121, D10). -/
def State.setTimeout (s : State) : State := { s with link.timeout := true }

/-- The receive queue without its oldest record. -/
def State.popRx (s : State) (rest : List RxRecord) : State := { s with uart.rxFifo := rest }

/-- One test of the loop of `recv_byte` (R121). With a byte waiting and the timer expired both outcomes are admitted, a free
choice (R121 (c), U14; log 8). -/
def State.recvTest (s : State) : Recv :=
  match s.uart.rxFifo, s.link.timer with
  | [], .expired => .expired s.setTimeout
  | [], .idle => .waiting
  | [], .running _ => .waiting
  | r :: rest, .idle => .got r.data ((s.popRx rest).latchMarks r.marks)
  | r :: rest, .running _ => .got r.data ((s.popRx rest).latchMarks r.marks)
  | r :: rest, .expired =>
    if Config.freeBit s.freeCount then .got r.data ((s.drawn.popRx rest).latchMarks r.marks)
    else .expired s.drawn.setTimeout

/-- `x <- recv_byte()` as one test: `done` continues with the byte stored, a free byte for a Timeout result (R121 (e), U20;
log 7); otherwise `again` is still to be executed. -/
def State.recvStore (s : State) (put : State → Byte → State) (again : Stmt) (next : List Stmt) : Result :=
  match s.recvTest with
  | .got d s' => .next ((put s' d).push next)
  | .expired s' => .next ((put s'.drawn (Config.freeByte s'.freeCount)).push next)
  | .waiting => .next (s.push [again])

end Sys2Proof.Machine
end

