-- ==== Sys2Proof/Machine/BlockTransfer.lean ====
section
/-! DEFINITION. BlockTransfer: the meanings of `receive_block`, `send_block` (41_block_transfer), of a received BLOCK frame
(30_encoding R96 to R98) and of their statements. -/

namespace Sys2Proof.Machine

/-- `receive_block(max_size)` (41_block_transfer R150): the start of step 1, with the rest of steps 1 to 3 to follow. -/
def State.receiveBlock (s : State) (maxSize : Byte) : State :=
  (s.push [.micro (.recvInto .blkLb), .op .validate, .micro (.blockChecked maxSize)]).armTimeout 1

/-- `receive_block(max_size)` (R150). -/
def execReceiveBlock (maxSize : Byte) (s : State) : Result := .next (s.receiveBlock maxSize)

/-- R150 the test of step 3. DESIGN CHOICE: after a failure the Block registers keep what the steps before it stored, a value
the spec leaves unspecified (corner case h; log 30). -/
def microBlockChecked (maxSize : Byte) (s : State) : Result :=
  match s.fg.ret with
  | .err _ => .next s
  | _ => .next (s.push [.micro (.blockLength maxSize)])

/-- R150 step 4. DESIGN CHOICE on the Block registers: log 30. -/
def microBlockLength (maxSize : Byte) (s : State) : Result :=
  if maxSize < s.blk.lb then
    .next (s.push [.op .flushInput, .op .statusInvalidSize, .micro (.giveResult (.err .invalidSize))])
  else
    .next (s.push [.op (.armTimeout (s.blk.lb.toNat + 2)), .micro (.recvBuf 0), .micro (.recvInto .blkCk), .op .validate,
        .micro .blockPayload])

/-- R150 step 6: one test of `blk_buf[i] <- recv_byte()`, for `i` in `0 .. blk_lb`. -/
def microRecvBuf (i : Byte) (s : State) : Result :=
  s.recvStore (fun t v => t.setBuf i v) (.micro (.recvBuf i)) (if i < s.blk.lb then [.micro (.recvBuf (i + 1))] else [])

/-- R150 the test of step 8. DESIGN CHOICE on the Block registers: log 30. -/
def microBlockPayload (s : State) : Result :=
  match s.fg.ret with
  | .err _ => .next s
  | _ => .next (s.push [.blockField, .micro .blockCompare])

/-- A BLOCK frame (30_encoding R96): the Block registers hold it and its XOR is computed over exactly `length_byte + 1`
payload bytes (R98, R150 step 9; log 21). -/
def execBlock (lb : Byte) (payload : List Byte) (ck : Byte) (s : State) : Result :=
  .next { s.storeFrame lb payload ck with blk.xor := xorFold payload }

/-- R150 step 10. DESIGN CHOICE on the Block registers: log 30. -/
def microBlockCompare (s : State) : Result :=
  if s.blk.xor = s.blk.ck then .next (s.push [.micro .blockOk])
  else .next (s.push [.op .flushInput, .op .statusChecksumFailed, .micro (.giveResult (.err .checksumFailed))])

/-- R150 step 11. -/
def microBlockOk (s : State) : Result := .next (s.give (.okLen s.payloadLen))

/-- `send_block(bytes, length)` (R151) up to the first test of step 1. -/
def State.sendBlock (s : State) (bytes : List Byte) : State :=
  (s.push [.micro (.sendBlockZero bytes)]).sendByte (BitVec.ofNat 8 (bytes.length - 1))

/-- `send_block(bytes, length)` (R151). -/
def execSendBlock (bytes : List Byte) (s : State) : Result := .next (s.sendBlock bytes)

/-- R151 step 2. -/
def microSendBlockZero (bytes : List Byte) (s : State) : Result :=
  .next ({ s with blk.xor := 0 }.push [.micro (.sendBlockBytes bytes)])

/-- R151 step 3 for the first byte left, step 4 when none is left. -/
def microSendBlockBytes (bytes : List Byte) (s : State) : Result :=
  match bytes with
  | [] => .next (s.sendByte s.blk.xor)
  | b :: rest => .next ((s.push [.micro (.sendBlockFold b), .micro (.sendBlockBytes rest)]).sendByte b)

/-- R151 step 3: `blk_xor <- blk_xor ^ bytes[i]`. -/
def microSendBlockFold (b : Byte) (s : State) : Result := .next { s with blk.xor := s.blk.xor ^^^ b }

end Sys2Proof.Machine
end

