-- ==== Sys2Proof/Machine/BusArbiter.lean ====
section
/-! DEFINITION. BusArbiter: the meanings of the operations of 42_bus_arbiter and of their statements. -/

namespace Sys2Proof.Machine

/-- `acquire_bus()` (42_bus_arbiter R170): step 1, with the wait of step 2 to follow. -/
def execAcquireBus (s : State) : Result := .next s.acquireBus

/-- R170 step 2: one test of the wait; no timeout. -/
def microAwaitGrant (s : State) : Result :=
  if s.bus.busack then .next s else .next (s.push [.micro .awaitGrant])

/-- `release_bus()` (R171). -/
def execReleaseBus (s : State) : Result := .next (s.setBusreq false)

/-- `write_byte_at(addr, value)` (R172): one atomic step, with the requirement of R177. -/
def execWriteByteAt (addr : Addr) (value : Byte) (s : State) : Result :=
  requireOwner s fun s => .next (s.writeCycle addr value)

/-- `read_byte_at(addr)` (R173): one atomic step, with the requirement of R177; the byte is its result. -/
def execReadByteAt (addr : Addr) (s : State) : Result :=
  requireOwner s fun s => .next ((s.readCycle addr).1.give (.byte (s.readCycle addr).2))

/-- `inject_raw` (R174): the write of the first byte, with the later ones to follow, ascending modulo 2^AW. -/
def injectRaw (base : Addr) (bytes : List Byte) (s : State) : Result :=
  match bytes with
  | [] => .next s
  | v :: rest =>
    requireOwner s fun s =>
      .next ((s.writeCycle base v).push (match rest with
        | [] => []
        | _ :: _ => [.op (.inject .raw (addrPlus base 1) rest)]))

/-- `inject_raw` and `inject_image` (R174). -/
def execInject (form : InjectForm) (base : Addr) (bytes : List Byte) (s : State) : Result :=
  match form with
  | .raw => injectRaw base bytes s
  | .image keepLocked => .next (s.injectImage base bytes keepLocked)

/-- R174 `inject_image` step 3. -/
def microInjectRelease (keepLocked : Bool) (s : State) : Result :=
  if keepLocked then .next s else .next (s.push [.op .releaseBus])

/-- `read_region(count)` (R175): step 1 of its `acquire_bus`, with the rest to follow. -/
def State.readRegion (s : State) (count : Nat) : State :=
  (s.push [.micro (.readRegion 0 count), .op .releaseBus]).acquireBus

/-- `read_region(count)` (R175). -/
def execReadRegion (count : Nat) (s : State) : Result := .next (s.readRegion count)

/-- R175 step 2: `blk_buf[i] <- read_byte_at(i)`, one step per byte. -/
def microReadRegion (i : Byte) (left : Nat) (s : State) : Result :=
  match left with
  | 0 => .next s
  | n + 1 =>
    requireOwner s fun s =>
      .next (((s.readCycle (i.setWidth 16)).1.setBuf i (s.readCycle (i.setWidth 16)).2).push (match n with
        | 0 => []
        | _ + 1 => [.micro (.readRegion (i + 1) n)]))

/-- `switch_bank(index)` (R176): one atomic step, with the requirement of R177. -/
def execSwitchBank (index : Byte) (s : State) : Result :=
  requireOwner s fun s => .next (s.bankCycle index)

end Sys2Proof.Machine
end

