-- ==== Sys2Proof/Machine/Command.lean ====
section
/-! DEFINITION. CommandLoop: fetch, dispatch, the four commands, the unknown command and the endings of LoadBinary
(43_command_loop), with their statements. Every command ends at FETCH (R211). -/

namespace Sys2Proof.Machine

/-- `FETCH` (43_command_loop R200): one test of step 1; with a byte taken, step 2 follows. -/
def execFetch (s : State) : Result := s.recvStore (fun t v => t.store .cmd v) (.op .fetch) [.op .dispatch]

/-- R200 step 2, R201: `fg_pc <- DISPATCH(cmd)`. -/
def execDispatch (s : State) : Result := .next (s.goto [.command s.fg.cmd])

/-- `fg_pc <- FETCH` (R200, R211). -/
def microToFetch (s : State) : Result := .next (s.goto [.op .fetch])

/-- Echo (R202): the start of step 1, with the rest to follow. -/
def execEcho (s : State) : Result :=
  .next ((s.goto [.micro (.recvInto .echoByte), .op .validate, .micro .echoReply, .micro .toFetch]).armTimeout 1)

/-- R202 step 4. -/
def microEchoReply (s : State) : Result :=
  match s.fg.ret with
  | .ok => .next (s.push [.op (.sendByte s.fg.echoByte)])
  | _ => .next s

/-- UploadToRam (R203): `receive_block(16)` begins, with steps 2 to 6 to follow. -/
def execUploadToRam (s : State) : Result :=
  .next ((s.goto [.micro .uploadChecked]).receiveBlock Config.uploadMaxLb)

/-- R203 step 2. -/
def microUploadChecked (s : State) : Result :=
  match s.fg.ret with
  | .err _ => .next (s.goto [.op .fetch])
  | _ => .next (s.push [.micro .uploadLength])

/-- R203 step 3, with steps 4 to 6 to follow. -/
def microUploadLength (s : State) : Result :=
  .next (s.push [.micro (.uploadInject s.payloadLen), .op .statusOk, .micro .toFetch])

/-- R203 the start of step 4. -/
def microUploadInject (n : Nat) (s : State) : Result := .next (s.injectImage 0 (s.bufBytes n) false)

/-- DownloadFromRam (R204): `read_region(16)` begins, with steps 2 and 3 to follow. -/
def execDownloadFromRam (s : State) : Result :=
  .next ((s.goto [.micro .downloadSend, .micro .toFetch]).readRegion Config.regionLen)

/-- R204 step 2. -/
def microDownloadSend (s : State) : Result := .next (s.sendBlock (s.bufBytes Config.regionLen))

/-- Unknown command (R205): step 1, with steps 2 and 3 to follow. -/
def execUnknown (s : State) : Result := .next (s.flushInput.goto [.op .statusUnknownCommand, .micro .toFetch])

/-- LoadBinary (R206): step 1, with steps 2 to 9 to follow. -/
def execLoadBinary (s : State) : Result :=
  .next ((s.setClock false).goto [.micro .assertReset, .micro .disableTrap, .op (.inject .raw 0 Config.bootstrap),
    .micro .releaseReset, .micro .startClock, .op .loadProtocol, .micro .loadResult, .micro .toFetch])

/-- R206 step 2, R207 step 2 (60_exceptions R324). -/
def microAssertReset (s : State) : Result := .next s.holdTarget

/-- R206 step 3. -/
def microDisableTrap (s : State) : Result := .next (s.setTrapEnable false)

/-- R206 step 5. -/
def microReleaseReset (s : State) : Result := .next s.freeTarget

/-- R206 step 6. -/
def microStartClock (s : State) : Result := .next (s.setClock true)

/-- R206 step 8. -/
def microLoadResult (s : State) : Result :=
  match s.fg.ret with
  | .done => .next (s.push [.op .loadSuccess])
  | _ => .next (s.push [.op .loadFailure])

/-- LoadBinary's failure ending (R207): step 1, with step 2 to follow. -/
def execLoadFailure (s : State) : Result := .next ((s.setClock false).push [.micro .assertReset])

/-- LoadBinary's success ending (R208): step 1, with step 2 to follow. -/
def execLoadSuccess (s : State) : Result := .next ((s.setTrapEnable true).push [.op .releaseBus])

end Sys2Proof.Machine
end

