-- ==== Sys2Proof/Machine/Load.lean ====
section
/-! DEFINITION. The Composite Load Protocol (44_load_protocol R230), the SIZE field (30_encoding R95) and their statements. -/

namespace Sys2Proof.Machine

/-- `load_protocol()` (44_load_protocol R230): step 1, with steps 2 to 5 to follow. -/
def execLoadProtocol (s : State) : Result :=
  .next ((s.setLoadState .awaitSize).push [.op (.armTimeout 2), .micro (.recvInto .sizeHi), .micro (.recvInto .sizeLo),
    .op .validate, .micro .sizeChecked])

/-- `load_state <- Aborted; return Aborted`. -/
def State.abortLoad (s : State) : State := (s.setLoadState .aborted).give .aborted

/-- R230 the test of step 5, with steps 6 to 12 to follow. -/
def microSizeChecked (s : State) : Result :=
  match s.fg.ret with
  | .err _ => .next s.abortLoad
  | _ =>
    .next (s.push [.sizeField, .op .acquireBus, .micro .writeCount, .op .releaseBus, .op .statusOk, .micro .enterBlocks,
      .micro .blocksLoop])

/-- A SIZE field (30_encoding R95): step 6 of the load protocol (R230, R231; log 21). -/
def execSize (hi lo : Byte) (s : State) : Result := .next (s.setSize hi lo)

/-- R230 step 8: `write_byte_at(COUNT_CELL, block_count[7:0])` (R232). -/
def microWriteCount (s : State) : Result :=
  requireOwner s fun s => .next (s.writeCycle Config.countCell (s.img.blockCount.setWidth 8))

/-- R230 step 11. -/
def microEnterBlocks (s : State) : Result := .next (s.setLoadState .awaitBlocks)

/-- R230 the loop test of step 12 (R233). -/
def microBlocksLoop (s : State) : Result :=
  if s.img.remainingSize = 0 then .next (s.push [.micro .loadDone])
  else .next (s.push [.op (.receiveBlock Config.loadMaxLb), .micro .blockReceived])

/-- R230 step 21. -/
def microLoadDone (s : State) : Result := .next ((s.setLoadState .done).give .done)

/-- R230 the test of step 13. -/
def microBlockReceived (s : State) : Result :=
  match s.fg.ret with
  | .err _ => .next s.abortLoad
  | _ => .next (s.push [.micro .requireLb])

/-- R230 step 14 (R234). -/
def microRequireLb (s : State) : Result := .next (s.push [.micro (.checkLb (requiredLb s.img.remainingSize))])

/-- R230 step 15 (R234). -/
def microCheckLb (required : Byte) (s : State) : Result :=
  if s.blk.lb = required then .next (s.push [.micro .takeBlock])
  else .next (s.push [.op .statusInvalidSize, .micro .loadAbort])

/-- R230 step 16, with steps 17 to 20 and the loop to follow (R235). -/
def microTakeBlock (s : State) : Result :=
  .next (s.push [.micro (.injectBlock s.payloadLen (decide (s.payloadLen = s.img.remainingSize.toNat))),
    .micro (.advanceAddr s.payloadLen), .op .statusOk, .micro (.reduceRemaining s.payloadLen), .micro .blocksLoop])

/-- R230 the start of step 17 (R235). -/
def microInjectBlock (n : Nat) (final : Bool) (s : State) : Result :=
  .next (s.injectImage s.img.nextAddr (s.bufBytes n) final)

/-- R230 step 18. -/
def microAdvanceAddr (n : Nat) (s : State) : Result := .next { s with img.nextAddr := addrPlus s.img.nextAddr n }

/-- R230 step 20 (R236). -/
def microReduceRemaining (n : Nat) (s : State) : Result :=
  .next { s with img.remainingSize := s.img.remainingSize - BitVec.ofNat 16 n }

/-- R230 the end of step 15. -/
def microLoadAbort (s : State) : Result := .next s.abortLoad

end Sys2Proof.Machine
end

