-- ==== Sys2Proof/Machine/Serial.lean ====
section
/-! DEFINITION. SerialLink: the meanings of `arm_timeout`, `recv_byte`, `send_byte`, `flush_input`, `validate`, the timer
primitives (40_serial_link) and of their statements. -/

namespace Sys2Proof.Machine

/-- `arm_timeout(n)` (40_serial_link R123): step 1, with steps 2 and 3 to follow. -/
def execArmTimeout (n : Nat) (s : State) : Result := .next (s.armTimeout n)

/-- R123 step 2, with `timer_arm` of step 3 to follow. -/
def microArmClamp (d : Nat) (s : State) : Result := .next (s.push [.op (.timer (.arm (min d Config.timerMax)))])

/-- `recv_byte()` (R121): one test of its loop; the byte or the signal Timeout is its result. -/
def execRecvByte (s : State) : Result :=
  match s.recvTest with
  | .got d s' => .next (s'.give (.byte d))
  | .expired s' => .next (s'.give .timeout)
  | .waiting => .next (s.push [.op .recvByte])

/-- `send_byte(b)` (R122) up to the first test of step 1. -/
def execSendByte (b : Byte) (s : State) : Result := .next (s.sendByte b)

/-- R122 step 2. -/
def microTxWrite (b : Byte) (s : State) : Result := .next (s.txWrite b)

/-- `flush_input()` (R126). -/
def execFlushInput (s : State) : Result := .next s.flushInput

/-- `validate()` step 1 (R125). Under the parameter R130 admits no checkpoint within `RX_DEPTH` bytes of a skipped assignment. -/
def execValidate (s : State) : Result :=
  if s.link.skippedLate then .refused .skippedLatch
  else if s.link.clear then .next ((s.setTimer .idle).give .ok)
  else .next (s.push [.micro .validateChoose])

/-- R125 step 2, with steps 3 to 6 to follow. -/
def microValidateChoose (s : State) : Result :=
  let e := s.link.choose
  .next (s.push [.op .flushInput, .op e.status, .micro .validateClear, .micro (.giveResult (.err e))])

/-- R125 step 5. -/
def microValidateClear (s : State) : Result := .next s.clearFlags

/-- The timer primitives (R124). -/
def execTimer (op : TimerOp) (s : State) : Result :=
  match op with
  | .arm d => .next (s.setTimer (.running d))
  | .expired => .next (s.give (.flag (s.link.timer == .expired)))
  | .clear => .next (s.setTimer .idle)
  | .tick => .next (s.setTimer s.link.timer.tick)

/-- `x <- recv_byte()`. -/
def microRecvInto (d : RxDst) (s : State) : Result :=
  s.recvStore (fun t v => t.store d v) (.micro (.recvInto d)) []

/-- `return r`. -/
def microGiveResult (r : Ret) (s : State) : Result := .next (s.give r)

end Sys2Proof.Machine
end

