-- ==== Sys2Proof/Machine/Micro.lean ====
section
/-! DEFINITION. The statements that are no call of a table row, each by its meaning. -/

namespace Sys2Proof.Machine

/-- The meaning of a statement, with what follows it at `s.fg.pc`. -/
def runMicro (m : Micro) (s : State) : Result :=
  match m with
  | .recvInto d => microRecvInto d s
  | .recvBuf i => microRecvBuf i s
  | .txWrite b => microTxWrite b s
  | .validateChoose => microValidateChoose s
  | .validateClear => microValidateClear s
  | .armClamp d => microArmClamp d s
  | .giveResult r => microGiveResult r s
  | .blockChecked maxSize => microBlockChecked maxSize s
  | .blockLength maxSize => microBlockLength maxSize s
  | .blockPayload => microBlockPayload s
  | .blockCompare => microBlockCompare s
  | .blockOk => microBlockOk s
  | .sendBlockZero bytes => microSendBlockZero bytes s
  | .sendBlockBytes bytes => microSendBlockBytes bytes s
  | .sendBlockFold b => microSendBlockFold b s
  | .awaitGrant => microAwaitGrant s
  | .injectRelease keepLocked => microInjectRelease keepLocked s
  | .readRegion i left => microReadRegion i left s
  | .echoReply => microEchoReply s
  | .toFetch => microToFetch s
  | .uploadChecked => microUploadChecked s
  | .uploadLength => microUploadLength s
  | .uploadInject n => microUploadInject n s
  | .downloadSend => microDownloadSend s
  | .assertReset => microAssertReset s
  | .disableTrap => microDisableTrap s
  | .releaseReset => microReleaseReset s
  | .startClock => microStartClock s
  | .loadResult => microLoadResult s
  | .sizeChecked => microSizeChecked s
  | .writeCount => microWriteCount s
  | .enterBlocks => microEnterBlocks s
  | .blocksLoop => microBlocksLoop s
  | .blockReceived => microBlockReceived s
  | .requireLb => microRequireLb s
  | .checkLb required => microCheckLb required s
  | .takeBlock => microTakeBlock s
  | .injectBlock n final => microInjectBlock n final s
  | .advanceAddr n => microAdvanceAddr n s
  | .reduceRemaining n => microReduceRemaining n s
  | .loadAbort => microLoadAbort s
  | .loadDone => microLoadDone s

end Sys2Proof.Machine
end

