-- ==== Sys2Proof/Machine/Ports.lean ====
section
/-! DEFINITION. The emulated I/O ports (45_io_ports): each operation one atomic step of the trap context. -/

namespace Sys2Proof.Machine

/-- Port 0 Write, console write (45_io_ports R261): no wait for the transmitter. -/
def execPort0Write (s : State) : Result := .next (s.txWrite s.trap.ioData)

/-- Port 0 Read (R262): nothing is driven. -/
def execPort0Read (s : State) : Result := .next s

/-- Port 1 Read (R263): the level of LEDSW in bit 0. -/
def execPort1Read (s : State) : Result := .next (s.answerRead (levelByte s.sampleLedsw))

/-- LEDCMD disable LED (R264). -/
def execLedDisable (s : State) : Result := .next { s with port1.out := false }

/-- LEDCMD select LED-output mode (R266). -/
def execLedSelectLed (s : State) : Result := .next { s with port1.dir := .out }

/-- LEDCMD enable LED (R265): the fall-through into the select-LED-mode case is preserved (D36). -/
def execLedEnable (s : State) : Result := .next { s with port1.out := true, port1.dir := .out }

/-- LEDCMD select switch-input mode (R267). -/
def execLedSelectSwitch (s : State) : Result := .next { s with port1.dir := .inp }

/-- LEDCMD other (R268): no state changes. -/
def execLedNone (s : State) : Result := .next s

/-- Port 1 Write (R276): the dispatch on the data byte, one atomic step. -/
def execPort1Write (s : State) : Result :=
  if s.trap.ioData = Config.ledcmdDisable then execLedDisable s
  else if s.trap.ioData = Config.ledcmdEnable then execLedEnable s
  else if s.trap.ioData = Config.ledcmdModeLed then execLedSelectLed s
  else if s.trap.ioData = Config.ledcmdModeSwitch then execLedSelectSwitch s
  else execLedNone s

/-- Port 2 Read (R269): the stored bank index. -/
def execPort2Read (s : State) : Result := .next (s.answerRead s.bank.bankIndex)

/-- Port 2 Write (R270): the index is stored and the latch captures the target's own data byte. -/
def execPort2Write (s : State) : Result := .next ((s.setBankIndex s.trap.ioData).latchBank s.trap.ioData)

/-- Ports 3 to 15 (R271): a no-op. -/
def execPortUnknown (s : State) : Result := .next s

end Sys2Proof.Machine
end

