-- ==== Sys2Proof/Machine/Status.lean ====
section
/-! DEFINITION. The status bytes (30_encoding R93, R94): each is `send_byte` of its code (40_serial_link R122; log 20). -/

namespace Sys2Proof.Machine

/-- `STATUS.Ok`: `send_byte(0x00)` (R94). -/
def execStatusOk (s : State) : Result := .next (s.sendByte 0)

/-- `STATUS.Timeout`: `send_byte(0x01)` (60_exceptions R291). -/
def execStatusTimeout (s : State) : Result := .next (s.sendByte Err.timeout.code)

/-- `STATUS.InvalidSize`: `send_byte(0x02)` (R292). -/
def execStatusInvalidSize (s : State) : Result := .next (s.sendByte Err.invalidSize.code)

/-- `STATUS.ChecksumFailed`: `send_byte(0x03)` (R293). -/
def execStatusChecksumFailed (s : State) : Result := .next (s.sendByte Err.checksumFailed.code)

/-- `STATUS.UnknownCommand`: `send_byte(0x04)` (R294). -/
def execStatusUnknownCommand (s : State) : Result := .next (s.sendByte Err.unknownCommand.code)

/-- `STATUS.FrameError`: `send_byte(0x05)` (R295). -/
def execStatusFrameError (s : State) : Result := .next (s.sendByte Err.frameError.code)

/-- `STATUS.BufferOverflow`: `send_byte(0x06)` (R296). -/
def execStatusBufferOverflow (s : State) : Result := .next (s.sendByte Err.bufferOverflow.code)

/-- `STATUS.reserved`: "Status values 7 to 255 are never sent as a status byte by any rule" (30_encoding R102; log 20). -/
def execStatusReserved (b : Byte) (_s : State) : Result := .refused (.reservedStatus b)

end Sys2Proof.Machine
end

