-- ==== Sys2Proof/Machine/TrapContext.lean ====
section
/-! DEFINITION. The I/O trap (60_exceptions): entry, the dispatcher, the completion handshake and its statements, return. -/

namespace Sys2Proof.Machine

/-- `trap_entry` (60_exceptions R301). -/
def execTrapEntry (s : State) : Result := .next s.enterTrap

/-- `IOTrapDispatcher` (R302): step 1, with steps 2 to 4 to follow at the trap position. -/
def execIoTrapDispatcher (s : State) : Result := .next (s.enterTrap.setTrapPos .dispatchPort)

/-- `complete_trap` (R303): step 1, with steps 2 to 5 to follow at the trap position. -/
def execCompleteTrap (s : State) : Result := .next ((s.setBusreq true).setTrapPos .pulseWaitAck)

/-- R303 step 2. -/
def trapPulse (s : State) : Result := .next (s.pulseWaitAck.setTrapPos .awaitAck)

/-- R303 step 3: one test of the wait; no timeout. -/
def trapAwaitAck (s : State) : Result := if s.bus.busack then .next (s.setTrapPos .releaseData) else .next s

/-- R303 step 4. -/
def trapReleaseData (s : State) : Result :=
  match s.trap.ioDir with
  | .read => .next ((s.setDataDir .inp).setTrapPos .dropRequest)
  | .write => .next (s.setTrapPos .dropRequest)

/-- R303 step 5. -/
def trapDropRequest (s : State) : Result := .next ((s.setBusreq false).setTrapPos .ret)

/-- `trap_return` (R304). -/
def execTrapReturn (s : State) : Result := .next s.leaveTrap

end Sys2Proof.Machine
end

