-- ==== Sys2Proof/Machine/Dispatch.lean ====
section
/-! DEFINITION. One arm per operation: the meaning it has. -/

namespace Sys2Proof.Machine

-- the first atomic statement of operation `i`, called with `s.fg.pc` as what follows it (00_scope R10, 10_state R37)
def exec (i : Instr) (s : State) : Host.Outcome State Fault Refusal :=
  match i with
  -- CMD
  | .loadBinary => Sys2Proof.Machine.execLoadBinary s
  | .echo => Sys2Proof.Machine.execEcho s
  | .uploadToRam => Sys2Proof.Machine.execUploadToRam s
  | .downloadFromRam => Sys2Proof.Machine.execDownloadFromRam s
  | .unknown _ => Sys2Proof.Machine.execUnknown s
  -- STATUS
  | .statusOk => Sys2Proof.Machine.execStatusOk s
  | .statusTimeout => Sys2Proof.Machine.execStatusTimeout s
  | .statusInvalidSize => Sys2Proof.Machine.execStatusInvalidSize s
  | .statusChecksumFailed => Sys2Proof.Machine.execStatusChecksumFailed s
  | .statusUnknownCommand => Sys2Proof.Machine.execStatusUnknownCommand s
  | .statusFrameError => Sys2Proof.Machine.execStatusFrameError s
  | .statusBufferOverflow => Sys2Proof.Machine.execStatusBufferOverflow s
  | .statusReserved b => Sys2Proof.Machine.execStatusReserved b s
  -- IOREQ
  | .port0Write => Sys2Proof.Machine.execPort0Write s
  | .port0Read => Sys2Proof.Machine.execPort0Read s
  | .port1Read => Sys2Proof.Machine.execPort1Read s
  | .port1Write => Sys2Proof.Machine.execPort1Write s
  | .port2Read => Sys2Proof.Machine.execPort2Read s
  | .port2Write => Sys2Proof.Machine.execPort2Write s
  | .portUnknown _ _ => Sys2Proof.Machine.execPortUnknown s
  -- LEDCMD
  | .ledDisable => Sys2Proof.Machine.execLedDisable s
  | .ledEnable => Sys2Proof.Machine.execLedEnable s
  | .ledSelectLed => Sys2Proof.Machine.execLedSelectLed s
  | .ledSelectSwitch => Sys2Proof.Machine.execLedSelectSwitch s
  | .ledNone _ => Sys2Proof.Machine.execLedNone s
  -- SIZE, BLOCK
  | .size hi lo => Sys2Proof.Machine.execSize hi lo s
  | .block lb payload ck => Sys2Proof.Machine.execBlock lb payload ck s
  -- INTERNAL
  | .fetch => Sys2Proof.Machine.execFetch s
  | .dispatch => Sys2Proof.Machine.execDispatch s
  | .loadFailure => Sys2Proof.Machine.execLoadFailure s
  | .loadSuccess => Sys2Proof.Machine.execLoadSuccess s
  | .loadProtocol => Sys2Proof.Machine.execLoadProtocol s
  | .armTimeout n => Sys2Proof.Machine.execArmTimeout n s
  | .recvByte => Sys2Proof.Machine.execRecvByte s
  | .sendByte b => Sys2Proof.Machine.execSendByte b s
  | .flushInput => Sys2Proof.Machine.execFlushInput s
  | .validate => Sys2Proof.Machine.execValidate s
  | .timer op => Sys2Proof.Machine.execTimer op s
  | .receiveBlock maxSize => Sys2Proof.Machine.execReceiveBlock maxSize s
  | .sendBlock bytes => Sys2Proof.Machine.execSendBlock bytes s
  | .acquireBus => Sys2Proof.Machine.execAcquireBus s
  | .releaseBus => Sys2Proof.Machine.execReleaseBus s
  | .writeByteAt addr value => Sys2Proof.Machine.execWriteByteAt addr value s
  | .readByteAt addr => Sys2Proof.Machine.execReadByteAt addr s
  | .inject form base bytes => Sys2Proof.Machine.execInject form base bytes s
  | .readRegion count => Sys2Proof.Machine.execReadRegion count s
  | .switchBank index => Sys2Proof.Machine.execSwitchBank index s
  | .trapEntry => Sys2Proof.Machine.execTrapEntry s
  | .ioTrapDispatcher => Sys2Proof.Machine.execIoTrapDispatcher s
  | .completeTrap => Sys2Proof.Machine.execCompleteTrap s
  | .trapReturn => Sys2Proof.Machine.execTrapReturn s

end Sys2Proof.Machine
end

