-- ==== Sys2Proof/Machine/Environment.lean ====
section
/-! DEFINITION. The moves of the agents around the controller, each enabled as the contracts of 60_exceptions R318 to R325 say. -/

namespace Sys2Proof.Machine

/-- A move of the target: refused where its contract does not have it (93 U22; log 5). -/
def targetMove (m : Move) (enabled : Bool) (t : State) : Result :=
  if enabled then .next t else .refused (.targetContract m)

/-- The target, asked and with no cycle in progress, grants the bus (60_exceptions R320 a, b; log 6). DESIGN CHOICE: seeing
`BUSREQ = 1` and acknowledging are one move, so no grant follows a withdrawn request (log 32). -/
def moveGrant (s : State) : Result :=
  targetMove .grant (s.targetCondition == .running && s.bus.busreq && s.env.cycle == none) { s with bus.busack := true }

/-- The target takes the bus back (R320 d). DESIGN CHOICE: seeing `BUSREQ = 0` and dropping `BUSACK` are one move, so the
acknowledgment does not fall once `BUSREQ` has risen again (log 32). -/
def moveUngrant (s : State) : Result :=
  targetMove .ungrant (s.targetCondition == .granted && !s.bus.busreq) { s with bus.busack := false }

/-- The target may begin cycle `c`: it runs, is not asked off the bus, has no other cycle in progress, and begins at address 0
after a reset (R319, R320 a, R321, 90_conflicts C14). -/
def State.mayStart (s : State) (c : BusCycle) : Bool :=
  s.targetCondition == .running && !s.bus.busreq && s.env.cycle == none && (!s.env.fresh || c == .memRead 0)

/-- The target begins a bus cycle (R320 a, R321). -/
def moveCycleStart (c : BusCycle) (s : State) : Result := targetMove (.cycleStart c) (s.mayStart c) (s.startCycle c)

/-- The effect of bus cycle `c`, which is then no longer in progress, but for an I/O cycle that goes on frozen (R322, R323). -/
def State.finishCycle (s : State) (c : BusCycle) : State :=
  match c with
  | .memRead a => s.endCycle.targetTakes (s.memByte a)
  | .memWrite a v => s.endCycle.setMemByte a v
  | .io port dir data => s.endCycle.startIoCycle port dir data

/-- The target's bus cycle in progress has its effect, also where the request rose after it began (R320 a, R321). -/
def moveCycleEnd (s : State) : Result :=
  match s.env.cycle with
  | none => .refused (.targetContract .cycleEnd)
  | some c => targetMove .cycleEnd (s.targetCondition == .running) (s.finishCycle c)

/-- The host sends a byte (00_scope R9). -/
def moveHostSend (d : Byte) (badStop : Bool) (s : State) : Result := .next (s.hostSend d badStop)

/-- The host takes a byte (00_scope R9). -/
def moveHostTake (s : State) : Result := .next s.hostTake

/-- The receiver's step (10_state R26). -/
def moveRx (s : State) : Result := .next s.receiveWire

/-- The choice R130 admits for the next byte consumed (log 10); read under the parameter alone. -/
def moveLoseMarks (fe ovf : Bool) (s : State) : Result := .next { s with link.skipNext := ⟨fe, ovf⟩ }

/-- The transmitter's step (10_state R27). -/
def moveTx (s : State) : Result := .next s.transmit

/-- The timer agent's step (40_serial_link R124). -/
def moveTick (s : State) : Result := .next (s.setTimer s.link.timer.tick)

/-- The switch changes its level (10_state R34). -/
def moveSwitchLevel (v : Bool) (s : State) : Result := .next { s with port1.ext := v }

end Sys2Proof.Machine
end

