-- ==== Sys2Proof/Machine/Sequencer.lean ====
section
/-! DEFINITION. Who moves and what it executes: the foreground's statement, the dispatcher's statement, the entry of the trap,
the scheduled moves (00_scope R8 to R10, 60_exceptions R300). -/

namespace Sys2Proof.Machine

/-- What was read at a decode position is executed. -/
def runDecoded (r : Except DecodeError (Instr × List Byte)) (s : State) : Result :=
  match r with
  | .ok (i, _) => exec i s
  | .error e => .refused (.undecodable e)

/-- One statement, with what follows it at `s.fg.pc`. -/
def runStmt (st : Stmt) (s : State) : Result :=
  match st with
  | .op i => exec i s
  | .command b => runDecoded (decode .cmd [b]) s
  | .sizeField => runDecoded (decode .size [s.fg.sizeHi, s.fg.sizeLo]) s
  | .blockField => runDecoded (decode .block s.frameBytes) s
  | .micro m => runMicro m s

/-- One foreground step (R10): the statement at `fg_pc`; with nothing left the foreground is at FETCH (43_command_loop R211). -/
def foregroundStep (s : State) : Result :=
  match s.fg.pc with
  | [] => exec .fetch s
  | st :: rest => runStmt st (s.goto rest)

/-- One step of the dispatcher (60_exceptions R302, R303). -/
def trapStep (s : State) : Result :=
  match s.trap.pos with
  | .dispatchPort => runDecoded (decode .ioreq [ioreqWord s.trap.ioDir s.trap.ioPort]) (s.setTrapPos .complete)
  | .complete => exec .completeTrap s
  | .pulseWaitAck => trapPulse s
  | .awaitAck => trapAwaitAck s
  | .releaseData => trapReleaseData s
  | .dropRequest => trapDropRequest s
  | .ret => exec .trapReturn s

/-- The controller's step: the dispatcher runs to completion; the trap is entered at the first boundary where it may be
(R300); else the foreground. -/
def controllerStep (s : State) : Result :=
  if s.trap.inTrap then trapStep s
  else if s.trapReady then exec .ioTrapDispatcher s
  else foregroundStep s

/-- A scheduled move. -/
def runMove (m : Move) (s : State) : Result :=
  match m with
  | .controller => controllerStep s
  -- while in_trap is set the foreground takes no step (R10)
  | .foreground => if s.trap.inTrap then trapStep s else foregroundStep s
  | .hostSend d badStop => moveHostSend d badStop s
  | .hostTake => moveHostTake s
  | .rx => moveRx s
  | .loseMarks fe ovf => moveLoseMarks fe ovf s
  | .tx => moveTx s
  | .tick => moveTick s
  | .grant => moveGrant s
  | .ungrant => moveUngrant s
  | .cycleStart c => moveCycleStart c s
  | .cycleEnd => moveCycleEnd s
  | .switchLevel v => moveSwitchLevel v s

/-- One step of the whole: the first scheduled move, the controller when none is scheduled (log 4). -/
def stepScheduled (s : State) : Result :=
  match s.schedule with
  | [] => controllerStep s
  | m :: rest => runMove m { s with schedule := rest }

/-- `s` with the instruction of table word `w` placed at the decode position of its format, about to be executed (log 2). -/
def placeWord (s : State) (nbits w : Nat) : State :=
  match tableFormat nbits, tableBytes nbits w with
  | .ioreq, b :: _ =>
    { s with
      schedule := [], trap.inTrap := true, trap.pos := .dispatchPort, trap.ioDir := ioreqDir b,
      trap.ioPort := b.extractLsb' 0 4 }
  | .size, hi :: lo :: _ =>
    { s with
      schedule := [], trap.inTrap := false, trap.pending := false, fg.pc := [.sizeField], fg.sizeHi := hi, fg.sizeLo := lo }
  | .block, lb :: rest =>
    { s.storeFrame lb (rest.take (lb.toNat + 1)) (rest.getD (lb.toNat + 1) 0) with
      schedule := [], trap.inTrap := false, trap.pending := false, fg.pc := [.blockField] }
  | _, b :: _ =>
    { s with
      schedule := [], trap.inTrap := false, trap.pending := false, fg.pc := [.command b], fg.cmd := b }
  | _, [] => s

end Sys2Proof.Machine
end

