-- ==== Sys2Proof/Machine/Step.lean ====
section
/-! DEFINITION. One step of the machine, and placing a word where the next step decodes it. -/

namespace Sys2Proof.Machine

/-- One step: one atomic statement of the controller or one move of its environment (00_scope R9, R10). -/
def step (s : State) : Host.Outcome State Fault Refusal := stepScheduled s

/-- `s` with the instruction whose bits are `w` where the very next step decodes and executes it (log 2). -/
def State.withFetchWord (s : State) (nbits w : Nat) : State := placeWord s nbits w

end Sys2Proof.Machine
end

