-- ==== Sys2Proof/Safety.lean ====
section
/-! DEFINITION. What counts as a legal state and a safe run, and the vocabulary statements use: which operations the foreground
may call, the invariant of the machine, quiet states, environments that deliver a byte or take one. -/

namespace Sys2Proof

/-- The operations the foreground executes (60_exceptions R310, R311, 40_serial_link R133): everything but the port operations,
the LED sub-commands and the dispatcher; a reserved status byte is never sent (30_encoding R102). -/
def Instr.foreground : Instr → Bool
  | .loadBinary => true
  | .echo => true
  | .uploadToRam => true
  | .downloadFromRam => true
  | .unknown _ => true
  | .statusOk => true
  | .statusTimeout => true
  | .statusInvalidSize => true
  | .statusChecksumFailed => true
  | .statusUnknownCommand => true
  | .statusFrameError => true
  | .statusBufferOverflow => true
  | .statusReserved _ => false
  | .port0Write => false
  | .port0Read => false
  | .port1Read => false
  | .port1Write => false
  | .port2Read => false
  | .port2Write => false
  | .portUnknown _ _ => false
  | .ledDisable => false
  | .ledEnable => false
  | .ledSelectLed => false
  | .ledSelectSwitch => false
  | .ledNone _ => false
  | .size _ _ => true
  | .block _ _ _ => true
  | .fetch => true
  | .dispatch => true
  | .loadFailure => true
  | .loadSuccess => true
  | .loadProtocol => true
  | .armTimeout _ => true
  | .recvByte => true
  | .sendByte _ => true
  | .flushInput => true
  | .validate => true
  | .timer _ => true
  | .receiveBlock _ => true
  | .sendBlock _ => true
  | .acquireBus => true
  | .releaseBus => true
  | .writeByteAt _ _ => true
  | .readByteAt _ => true
  | .inject _ _ _ => true
  | .readRegion _ => true
  | .switchBank _ => true
  | .trapEntry => false
  | .ioTrapDispatcher => false
  | .completeTrap => false
  | .trapReturn => false

/-- The operations a trap request selects (45_io_ports R260). -/
def Instr.port : Instr → Bool
  | .port0Write => true
  | .port0Read => true
  | .port1Read => true
  | .port1Write => true
  | .port2Read => true
  | .port2Write => true
  | .portUnknown _ _ => true
  | _ => false

namespace Machine

/-- The operand of a statement is in the range its rule gives it: a duration is at least 1 (40_serial_link R124). -/
def Micro.legal : Micro → Bool
  | .armClamp d => decide (1 ≤ d)
  | _ => true

/-- A statement the foreground's program may hold. -/
def Stmt.legal : Stmt → Bool
  | .op i => i.foreground && i.wellFormed
  | .command _ => true
  | .sizeField => true
  | .blockField => true
  | .micro m => m.legal

/-- The statement is a test of `recv_byte` (40_serial_link R121), by itself or in `x <- recv_byte()`. -/
def Stmt.receives : Stmt → Bool
  | .op .recvByte => true
  | .op .fetch => true
  | .micro (.recvInto _) => true
  | .micro (.recvBuf _) => true
  | _ => false

/-- The dispatcher may be driving DATA: between the port operation and the release of the lines (45_io_ports R272). -/
def TrapPos.answering : TrapPos → Bool
  | .dispatchPort => false
  | .complete => true
  | .pulseWaitAck => true
  | .awaitAck => true
  | .releaseData => true
  | .dropRequest => false
  | .ret => false

/-- `0 < n <= TIMER_MAX` while running: `Running(0)` is never observed between ticks (40_serial_link R124). -/
def Timer.inRange : Timer → Prop
  | .idle => True
  | .running n => 1 ≤ n ∧ n ≤ Config.timerMax
  | .expired => True

/-- The invariant of the machine. -/
structure State.Inv (s : State) : Prop where
  /-- Memory is in canonical form. -/
  mem : memWf s.mem
  /-- 10_state R26: at most `RX_DEPTH` records wait. -/
  rxDepth : s.uart.rxFifo.length ≤ Config.rxDepth
  /-- 40_serial_link R130: at most `RX_DEPTH` bytes are owed before a checkpoint. -/
  owed : s.link.owed ≤ Config.rxDepth
  /-- 10_state R22. -/
  timer : s.link.timer.inRange
  /-- 42_bus_arbiter R178: the address lines are released between steps. -/
  addr : s.bus.addrDir = .inp
  /-- 42_bus_arbiter R178: the memory control lines are released between steps. -/
  memctl : s.bus.memctlDir = .inp
  /-- 10_state R31: the strobes are asserted only inside an access. -/
  strobes : s.bus.memOe = false ∧ s.bus.memWe = false ∧ s.bus.memCe = false
  /-- 42_bus_arbiter R178, 45_io_ports R272: DATA is driven between steps only by the trap context answering a Read. -/
  data : s.bus.dataDir = .out → s.trap.inTrap = true ∧ s.trap.ioDir = .read ∧ s.trap.pos.answering = true
  /-- 10_state R24: `block_count` is 0 to 256. -/
  blockCount : s.img.blockCount.toNat ≤ 256
  /-- 10_state R33: the latch and the stored index agree. -/
  bank : s.bank.visibleBank = s.bank.bankIndex
  /-- 60_exceptions R319, R320 (e), R324: a target held in reset acknowledges nothing, has no cycle pending or in progress and
  will begin at address 0. -/
  held : s.bus.tgtReset = true →
    s.bus.busack = false ∧ s.trap.pending = false ∧ s.env.cycle = none ∧ s.env.fresh = true
  /-- 60_exceptions R320 (b), R322: a frozen target acknowledges nothing and runs no other cycle. -/
  frozen : s.trap.pending = true → s.bus.busack = false ∧ s.env.cycle = none
  /-- 60_exceptions R320 (a), (c): a target that has granted the bus has no cycle in progress. -/
  granted : s.bus.busack = true → s.env.cycle = none
  /-- 60_exceptions R319: a target that has begun no cycle since its reset has none in progress or pending. -/
  fresh : s.env.fresh = true → s.env.cycle = none ∧ s.trap.pending = false
  /-- 60_exceptions R299, R307: the line is off its resting level exactly while a cycle is in progress. -/
  request : s.env.iotrap = s.trap.pending
  /-- 60_exceptions R311: the foreground's program holds only foreground operations with legal operands. -/
  program : s.fg.pc.all Stmt.legal = true

/-- Nothing is scheduled, the dispatcher does not run and cannot be entered: the foreground alone moves. -/
structure State.Quiet (s : State) : Prop where
  schedule : s.schedule = []
  notInTrap : s.trap.inTrap = false
  noTrap : s.trap.enable = false ∨ s.trap.pending = false

/-- As `Quiet`, with the moves `ms` scheduled. -/
structure State.Scheduled (s : State) (ms : List Move) : Prop where
  schedule : s.schedule = ms
  notInTrap : s.trap.inTrap = false
  noTrap : s.trap.enable = false ∨ s.trap.pending = false

/-- `k` steps from `s`, up to the first fault or refusal. -/
def runSteps : Nat → State → Result
  | 0, s => .next s
  | k + 1, s =>
    match step s with
    | .next t => runSteps k t
    | .fault f => .fault f
    | .refused r => .refused r

/-- `k` steps lead from `s` to `u`. -/
def Runs (k : Nat) (s u : State) : Prop := runSteps k s = .next u

/-- Operation `i`, started in `s`, takes its first statement to a next state and is finished `k` steps later in `u`: what
followed the call is what is left to execute. -/
def Completes (i : Instr) (s : State) (k : Nat) (u : State) : Prop :=
  ∃ t, exec i s = .next t ∧ Runs k t u ∧ u.fg.pc = s.fg.pc

/-- A run is safe when no step of it faults (90_conflicts, 93 U1: the one fault is driving while not owner). -/
def SafeFor (k : Nat) (s : State) : Prop := ∀ f, runSteps k s ≠ .fault f

/-- Nothing of the host's is on its way and nothing is left of an earlier reception: wire, queue, flags and the choice of
40_serial_link R130. -/
structure State.SerialIdle (s : State) : Prop where
  wire : s.env.rxWire = []
  fifo : s.uart.rxFifo = []
  lost : s.uart.rxLost = false
  flags : s.link.clear = true
  skipNext : s.link.skipNext = ⟨false, false⟩
  owed : s.link.owed = 0

/-- The host sends each byte, its stop bit bad where so marked, the receiver delivers it, and the controller's next test takes
it. -/
def wireMoves (ws : List WireByte) : List Move := ws.flatMap fun w => [.hostSend w.data w.badStop, .rx, .controller]

/-- As `wireMoves`, with no bad stop bit. -/
def rxMoves (bytes : List Byte) : List Move := wireMoves (bytes.map fun b => ⟨b, false⟩)

/-- The controller moves `n` times. -/
def controllerMoves (n : Nat) : List Move := List.replicate n .controller

/-- The moves in which the host sends a length byte at the controller's pace, from after `receive_block`'s first step to before
its first payload reception: the controller moves for the rest of each arming, and for the first checkpoint and its tests. -/
def lengthMoves (lb : Byte) : List Move := controllerMoves 2 ++ rxMoves [lb] ++ controllerMoves 6

/-- The moves in which the host sends a frame at the controller's pace, up to `receive_block`'s last reception. -/
def frameMoves (lb : Byte) (payload : List Byte) (ck : Byte) : List Move := lengthMoves lb ++ rxMoves (payload ++ [ck])

/-- `n` times the controller tests and the timer ticks. -/
def testedTicks (n : Nat) : List Move := (List.replicate n [Move.controller, .tick]).flatten

/-- The moves in which `send_block` sends `n` payload bytes and the transmitter takes each byte at once. -/
def sendBlockMoves (n : Nat) : List Move :=
  [.controller, .tx, .controller] ++ (List.replicate n [Move.controller, .controller, .tx, .controller]).flatten ++
    [.controller, .controller, .tx]

/-- The error `e`, of code `c`, that a checkpoint reports for these three flags (40_serial_link R127). -/
def FlagsReport (frameError bufferOverflow timeout : Bool) (e : Err) (c : Byte) : Prop :=
  (frameError = true ∧ e = .frameError ∧ c = 5) ∨
    (frameError = false ∧ bufferOverflow = true ∧ e = .bufferOverflow ∧ c = 6) ∨
    (frameError = false ∧ bufferOverflow = false ∧ timeout = true ∧ e = .timeout ∧ c = 1)

/-- `receive_block(maxSize)`, started in `s`, is finished `k` steps after its first with the error `e`: the status byte `c` is
the one byte sent, nothing received is left, the flags are clear and the timer idle, and nothing outside SerialLink, the Block
registers and the foreground has changed (41_block_transfer R150, R157). -/
def ReceiveBlockFails (s : State) (maxSize : Byte) (k : Nat) (e : Err) (c : Byte) : Prop :=
  ∃ u, Completes (.receiveBlock maxSize) s k u ∧ u.fg.ret = .err e ∧
    u.uart = { rxFifo := [], rxLost := false, txReg := some c } ∧
    u.link = { s.link with frameError := false, bufferOverflow := false, timeout := false, timer := .idle } ∧
    u.img = s.img ∧ u.bus = s.bus ∧ u.bank = s.bank ∧ u.port1 = s.port1 ∧ u.trap = s.trap ∧ u.env = s.env ∧
    u.mem = s.mem ∧ u.schedule = []

/-- The target is out of reset, its clock runs, it is not frozen and has not granted the bus (60_exceptions R318: Running); it
has no bus cycle in progress. -/
def TargetRuns (s : State) : Prop :=
  s.bus.tgtReset = false ∧ s.bus.tgtClkRun = true ∧ s.trap.pending = false ∧ s.bus.busack = false ∧ s.env.cycle = none

/-- The frame `send_block` emits for a payload (41_block_transfer R151, 30_encoding R96). -/
def frameOf (bytes : List Byte) : List Byte := BitVec.ofNat 8 (bytes.length - 1) :: bytes ++ [xorFold bytes]

/-- `mem` after `inject_raw` has written `bytes` from `base` upward, in order, through bank `b` (42_bus_arbiter R174). -/
def injected (b : Byte) : List Host.Cell → Addr → List Byte → List Host.Cell
  | m, _, [] => m
  | m, a, v :: rest => injected b (memWrite m (Config.bankMap b a) v) (addrPlus a 1) rest

/-- The 16 bytes, or `n` of them, at addresses `a` upward of bank `b`. -/
def regionBytes (b : Byte) (m : List Host.Cell) : Addr → Nat → List Byte
  | _, 0 => []
  | a, n + 1 => memRead m (Config.bankMap b a) :: regionBytes b m (addrPlus a 1) n

end Machine
end Sys2Proof
end

