-- ==== Sys2Proof/Certificates/Slice0/Obligations.lean ====
section
/-! DEFINITION. The statements about the machine, from the numbered rules of spec/. -/

open Sys2Proof Sys2Proof.Machine

/-! ## Encodings -/

/-- Decoding the bytes of a well-formed instruction, in its own format, gives the instruction back and leaves what follows
(30_encoding R91 to R97, R104 to R106). -/
def Obligations.DecodeReadsBackEveryEncoding : Prop :=
  ∀ (i : Instr) (f : Format) (bs rest : List Byte), i.wellFormed = true → encode i = some (f, bs) →
    decode f (bs ++ rest) = .ok (i, rest)

/-- What the decoder reads is well-formed, and the bytes it consumed are its encoding: no two encodings of one format
overlap, no bit is dropped. -/
def Obligations.DecodedBytesEncodeBack : Prop :=
  ∀ (f : Format) (bytes rest : List Byte) (i : Instr), decode f bytes = .ok (i, rest) →
    i.wellFormed = true ∧ ∃ bs, encode i = some (f, bs) ∧ bytes = bs ++ rest

/-- A few words of 30_encoding's tables and the instructions they stand for. -/
def Obligations.TableWordsDecodeToTheirRows : Prop :=
  decode .cmd [0b00000001] = .ok (.loadBinary, []) ∧ decode .cmd [0b00000100] = .ok (.downloadFromRam, []) ∧
    decode .status [0x06] = .ok (.statusBufferOverflow, []) ∧ decode .ioreq [0b10010] = .ok (.port2Write, []) ∧
    decode .ioreq [0b00001] = .ok (.port1Read, []) ∧ decode .ledcmd [0x03] = .ok (.ledSelectSwitch, []) ∧
    decode .size [0x01, 0x2C] = .ok (.size 0x01 0x2C, []) ∧
    decode .block [0x01, 0xAA, 0x55, 0xFF] = .ok (.block 0x01 [0xAA, 0x55] 0xFF, [])

/-- 43_command_loop R201, 30_encoding R92: at the label `DISPATCH(cmd)` the next step executes the command its exact value
selects. -/
def Obligations.CommandByteSelectsByExactValue : Prop :=
  ∀ (s : State) (b : Byte) (rest : List Stmt), s.Quiet → s.fg.pc = .command b :: rest →
    (b = 0x01 → step s = exec .loadBinary (s.goto rest)) ∧ (b = 0x02 → step s = exec .echo (s.goto rest)) ∧
      (b = 0x03 → step s = exec .uploadToRam (s.goto rest)) ∧ (b = 0x04 → step s = exec .downloadFromRam (s.goto rest)) ∧
      (b ≠ 0x01 → b ≠ 0x02 → b ≠ 0x03 → b ≠ 0x04 → step s = exec (.unknown b) (s.goto rest))

/-- A step at a decode position executes the instruction decoded there: a command byte, a size field, a block frame, a trap
request. A step at a call executes the operation called. -/
def Obligations.StepRunsTheDecodedInstruction : Prop :=
  (∀ (s : State) (i : Instr) (rest : List Stmt), s.Quiet → s.fg.pc = .op i :: rest → step s = exec i (s.goto rest)) ∧
    (∀ (s : State) (b : Byte) (rest : List Stmt) (i : Instr) (l : List Byte), s.Quiet → s.fg.pc = .command b :: rest →
      decode .cmd [b] = .ok (i, l) → step s = exec i (s.goto rest)) ∧
    (∀ (s : State) (rest : List Stmt) (i : Instr) (l : List Byte), s.Quiet → s.fg.pc = .sizeField :: rest →
      decode .size [s.fg.sizeHi, s.fg.sizeLo] = .ok (i, l) → step s = exec i (s.goto rest)) ∧
    (∀ (s : State) (rest : List Stmt) (i : Instr) (l : List Byte), s.Quiet → s.fg.pc = .blockField :: rest →
      decode .block s.frameBytes = .ok (i, l) → step s = exec i (s.goto rest)) ∧
    (∀ (s : State) (i : Instr) (l : List Byte), s.schedule = [] → s.trap.inTrap = true → s.trap.pos = .dispatchPort →
      decode .ioreq [ioreqWord s.trap.ioDir s.trap.ioPort] = .ok (i, l) → step s = exec i (s.setTrapPos .complete))

/-! ## Startup and the invariant -/

/-- 10_state R40: every value the table gives. -/
def Obligations.StartupStateIsTheTableOfR40 : Prop :=
  let s := State.reset
  s.link.frameError = false ∧ s.link.bufferOverflow = false ∧ s.link.timeout = false ∧ s.link.timer = .idle ∧
    s.uart.rxFifo = [] ∧ s.uart.rxLost = false ∧ s.uart.txReg = none ∧ s.bus.busreq = false ∧ s.bus.busack = false ∧
    s.owner = .targetOwned ∧ s.bus.dataDir = .inp ∧ s.bus.addrDir = .inp ∧ s.bus.memctlDir = .inp ∧
    s.bus.memOe = false ∧ s.bus.memWe = false ∧ s.bus.memCe = false ∧ s.bus.tgtReset = false ∧ s.bus.tgtClkRun = true ∧
    s.bank.bankIndex = 0 ∧ s.bank.visibleBank = 0 ∧ s.port1.dir = .inp ∧ s.port1.out = false ∧ s.trap.enable = true ∧
    s.trap.pending = false ∧ s.trap.inTrap = false ∧ s.fg.pc = [.op .fetch] ∧
    ∀ l, memRead s.mem l = Config.startupByte l

/-- The invariant holds at startup. -/
def Obligations.InvariantHoldsAtStartup : Prop := State.reset.Inv

/-- Every step, of the controller or of its environment, keeps the invariant. -/
def Obligations.EveryStepKeepsTheInvariant : Prop := ∀ s t : State, s.Inv → step s = .next t → t.Inv

/-! ## SerialLink -/

/-- 40_serial_link R123, R124: `arm_timeout` saturates and touches the timer alone, in its three statements (log 3); the timer
primitives, which are one row with an operand (log 27). -/
def Obligations.ArmTimeoutSaturatesAndTimerPrimitives : Prop :=
  ∀ s : State,
    (∀ n : Nat, s.Quiet → ∃ d : Nat, Completes (.armTimeout n) s 2 { s with link.timer := .running d } ∧
      (n * Config.ticksPerByte ≤ Config.timerMax → d = n * Config.ticksPerByte) ∧
      (Config.timerMax < n * Config.ticksPerByte → d = Config.timerMax) ∧ (1 ≤ n → 1 ≤ d)) ∧
    (∀ d : Nat, exec (.timer (.arm d)) s = .next { s with link.timer := .running d }) ∧
    exec (.timer .expired) s = .next { s with fg.ret := .flag (decide (s.link.timer = .expired)) } ∧
    exec (.timer .clear) s = .next { s with link.timer := .idle } ∧
    (∀ n : Nat, s.link.timer = .running (n + 2) →
      exec (.timer .tick) s = .next { s with link.timer := .running (n + 1) }) ∧
    (s.link.timer = .running 1 → exec (.timer .tick) s = .next { s with link.timer := .expired }) ∧
    (s.link.timer = .idle ∨ s.link.timer = .expired → exec (.timer .tick) s = .next s)

/-- 40_serial_link R124: a timer armed with `d` is expired after exactly `d` ticks, and counts down until then. -/
def Obligations.TimerExpiresAfterExactlyItsTicks : Prop :=
  ∀ (s : State) (d : Nat) (ms : List Move), 1 ≤ d → s.link.timer = .running d → s.schedule = List.replicate d .tick ++ ms →
    (∀ k < d, Runs k s { s with link.timer := .running (d - k), schedule := List.replicate (d - k) .tick ++ ms }) ∧
      Runs d s { s with link.timer := .expired, schedule := ms }

/-- 40_serial_link R121, R130: with a byte waiting and the timer not expired, `recv_byte` takes the oldest byte and latches its
marks; no flag is cleared; nothing else changes but the result. Under the lossy parameter the assignments the environment chose
to skip, each by itself, are not made, and two bytes are owed before a checkpoint where one was lost (log 10). -/
def Obligations.RecvByteTakesTheOldestByte : Prop :=
  ∀ (s : State) (r : RxRecord) (rest : List RxRecord), s.uart.rxFifo = r :: rest → s.link.timer ≠ .expired →
    ∃ t, exec .recvByte s = .next t ∧ t.fg = { s.fg with ret := .byte r.data } ∧
      t.uart = { s.uart with rxFifo := rest } ∧
      (Config.lossyErrorLatch = false → t.link = { s.link with
        frameError := s.link.frameError || r.marks.fe, bufferOverflow := s.link.bufferOverflow || r.marks.ovf }) ∧
      (Config.lossyErrorLatch = true → t.link = { s.link with
        frameError := s.link.frameError || (r.marks.fe && !s.link.skipNext.fe),
        bufferOverflow := s.link.bufferOverflow || (r.marks.ovf && !s.link.skipNext.ovf),
        skipNext := ⟨false, false⟩,
        owed := if (r.marks.fe && s.link.skipNext.fe) || (r.marks.ovf && s.link.skipNext.ovf) then 2
          else s.link.owed - 1 }) ∧
      (s.link.frameError = true → t.link.frameError = true) ∧
      (s.link.bufferOverflow = true → t.link.bufferOverflow = true) ∧ t.link.timeout = s.link.timeout ∧
      t.link.timer = s.link.timer ∧ t.blk = s.blk ∧ t.img = s.img ∧ t.bus = s.bus ∧ t.bank = s.bank ∧ t.port1 = s.port1 ∧
      t.trap = s.trap ∧ t.env = s.env ∧ t.mem = s.mem ∧ t.schedule = s.schedule

/-- 40_serial_link R121, R130: with nothing waiting, `recv_byte` times out exactly when the timer has expired and otherwise
stays where it is; with a byte waiting and the timer expired, one of the two outcomes (c), the marks latched where it is the
byte: all of them, or under the lossy parameter those not skipped (log 10). -/
def Obligations.RecvByteTimesOutOnlyWhenExpired : Prop :=
  ∀ s : State,
    (s.uart.rxFifo = [] → s.link.timer = .expired →
      exec .recvByte s = .next { s with link.timeout := true, fg.ret := .timeout }) ∧
    (s.uart.rxFifo = [] → s.link.timer ≠ .expired →
      exec .recvByte s = .next { s with fg.pc := .op .recvByte :: s.fg.pc }) ∧
    (∀ (r : RxRecord) (rest : List RxRecord), s.uart.rxFifo = r :: rest → s.link.timer = .expired →
      ∃ t, exec .recvByte s = .next t ∧
        ((t.fg.ret = .byte r.data ∧ t.uart.rxFifo = rest ∧
            (Config.lossyErrorLatch = false → t.link = { s.link with
              frameError := s.link.frameError || r.marks.fe,
              bufferOverflow := s.link.bufferOverflow || r.marks.ovf }) ∧
            (Config.lossyErrorLatch = true → t.link = { s.link with
              frameError := s.link.frameError || (r.marks.fe && !s.link.skipNext.fe),
              bufferOverflow := s.link.bufferOverflow || (r.marks.ovf && !s.link.skipNext.ovf),
              skipNext := ⟨false, false⟩,
              owed := if (r.marks.fe && s.link.skipNext.fe) || (r.marks.ovf && s.link.skipNext.ovf) then 2
                else s.link.owed - 1 })) ∨
          (t.fg.ret = .timeout ∧ t.uart.rxFifo = r :: rest ∧ t.link = { s.link with timeout := true })) ∧
        { t with link := s.link, fg.ret := s.fg.ret, uart.rxFifo := s.uart.rxFifo, freeCount := s.freeCount } = s)

/-- 40_serial_link R122: `send_byte` puts the byte into the free transmitter; into an occupied one only after the transmitter
has taken what it held. -/
def Obligations.SendByteWaitsForTheTransmitter : Prop :=
  ∀ (s : State) (b : Byte),
    (s.Quiet → s.uart.txReg = none → Completes (.sendByte b) s 1 { s with uart.txReg := some b }) ∧
    (∀ p : Byte, s.Scheduled [.tx] → s.uart.txReg = some p →
      Completes (.sendByte b) s 3
        { s with schedule := [], uart.txReg := some b, env.txWire := s.env.txWire ++ [p] })

/-- 30_encoding R94: each status operation sends its code, and changes nothing else. -/
def Obligations.StatusOperationsSendTheirCodes : Prop :=
  ∀ s : State, s.Quiet → s.uart.txReg = none →
    Completes .statusOk s 1 { s with uart.txReg := some 0 } ∧
    Completes .statusTimeout s 1 { s with uart.txReg := some 1 } ∧
    Completes .statusInvalidSize s 1 { s with uart.txReg := some 2 } ∧
    Completes .statusChecksumFailed s 1 { s with uart.txReg := some 3 } ∧
    Completes .statusUnknownCommand s 1 { s with uart.txReg := some 4 } ∧
    Completes .statusFrameError s 1 { s with uart.txReg := some 5 } ∧
    Completes .statusBufferOverflow s 1 { s with uart.txReg := some 6 }

/-- 30_encoding R102: no status byte of value 7 to 255 is ever sent: the operation is refused, and no error's code is one. -/
def Obligations.ReservedStatusIsNeverSent : Prop :=
  (∀ (b : Byte) (s : State), exec (.statusReserved b) s = .refused (.reservedStatus b)) ∧
    (∀ b : Byte, 6 < b → decode .status [b] = .ok (.statusReserved b, [])) ∧ ∀ e : Err, e.code ≤ 6

/-- 40_serial_link R126, 10_state R26, R27, 00_scope R9: flushing empties the queue; the host puts a byte on its wire, the
receiver moves the oldest byte of the wire into the queue or loses it, the transmitter moves its byte onto the other wire, and
the host takes the oldest byte there. The wires and the host's store are the model's (log 31). -/
def Obligations.UartMovesBytesInOrder : Prop :=
  ∀ s : State,
    exec .flushInput s = .next { s with uart.rxFifo := [], uart.rxLost := false } ∧
    (∀ (d : Byte) (bad : Bool) (ms : List Move), s.schedule = .hostSend d bad :: ms →
      step s = .next { s with schedule := ms, env.rxWire := s.env.rxWire ++ [⟨d, bad⟩] }) ∧
    (∀ (w : WireByte) (wire : List WireByte) (ms : List Move), s.schedule = .rx :: ms → s.env.rxWire = w :: wire →
      s.uart.rxFifo.length < 2 →
      step s = .next { s with
        schedule := ms, env.rxWire := wire, uart.rxFifo := s.uart.rxFifo ++ [⟨w.data, ⟨w.badStop, s.uart.rxLost⟩⟩],
        uart.rxLost := false }) ∧
    (∀ (w : WireByte) (wire : List WireByte) (ms : List Move), s.schedule = .rx :: ms → s.env.rxWire = w :: wire →
      2 ≤ s.uart.rxFifo.length → step s = .next { s with schedule := ms, env.rxWire := wire, uart.rxLost := true }) ∧
    (∀ (b : Byte) (ms : List Move), s.schedule = .tx :: ms → s.uart.txReg = some b →
      step s = .next { s with schedule := ms, uart.txReg := none, env.txWire := s.env.txWire ++ [b] }) ∧
    (∀ (b : Byte) (wire : List Byte) (ms : List Move), s.schedule = .hostTake :: ms → s.env.txWire = b :: wire →
      step s = .next { s with schedule := ms, env.txWire := wire, env.hostRecv := s.env.hostRecv ++ [b] })

/-- 40_serial_link R125, R127: with no flag set the checkpoint returns Ok and stops the timer; else it flushes, sends the one
code of highest priority, clears all flags and the timer and returns that error. Its statements and the quiet run are logs 3 and
4; that no byte is owed before it under the lossy parameter is log 10. -/
def Obligations.ValidateReportsTheHighestPriorityError : Prop :=
  ∀ s : State, Config.lossyErrorLatch = false ∨ s.link.owed = 0 →
    (s.link.frameError = false → s.link.bufferOverflow = false → s.link.timeout = false →
      exec .validate s = .next { s with link.timer := .idle, fg.ret := .ok }) ∧
    (∀ (e : Err) (c : Byte), s.Quiet → s.uart.txReg = none →
      ((s.link.frameError = true ∧ e = .frameError ∧ c = 5) ∨
        (s.link.frameError = false ∧ s.link.bufferOverflow = true ∧ e = .bufferOverflow ∧ c = 6) ∨
        (s.link.frameError = false ∧ s.link.bufferOverflow = false ∧ s.link.timeout = true ∧ e = .timeout ∧ c = 1)) →
      Completes .validate s 6 { s with
        link.frameError := false, link.bufferOverflow := false, link.timeout := false, link.timer := .idle,
        uart := { rxFifo := [], rxLost := false, txReg := some c }, fg.ret := .err e })

/-- 40_serial_link R121, R130: the marks of the last byte and of the last two bytes consumed are seen at the checkpoint that
follows, in either setting of the parameter and whatever skips were chosen: no run reaches it otherwise (the refusal of log 10).
With no skip chosen the checkpoint is reached. Under the parameter either assignment of an earlier byte may be lost by itself,
and the checkpoint is reached all the same. -/
def Obligations.MarksOfTheLastTwoBytesReachTheCheckpoint : Prop :=
  (∀ (s t : State) (r₁ : RxRecord) (rest : List RxRecord), s.uart.rxFifo = r₁ :: rest → s.link.timer ≠ .expired →
    exec .recvByte s = .next t →
    (∀ v, exec .validate t = .next v → (r₁.marks.fe = true → v.link.frameError = true) ∧
      (r₁.marks.ovf = true → v.link.bufferOverflow = true) ∧
      (r₁.marks.fe = true ∨ r₁.marks.ovf = true → v.fg.pc = .micro .validateChoose :: t.fg.pc)) ∧
    ∀ (u : State) (r₂ : RxRecord) (later : List RxRecord) (skip : RxMarks),
      exec .recvByte { t with uart.rxFifo := r₂ :: later, link.skipNext := skip } = .next u →
      (∀ v, exec .validate u = .next v →
        (r₁.marks.fe = true ∨ r₂.marks.fe = true → v.link.frameError = true) ∧
        (r₁.marks.ovf = true ∨ r₂.marks.ovf = true → v.link.bufferOverflow = true) ∧
        (r₁.marks.fe = true ∨ r₁.marks.ovf = true ∨ r₂.marks.fe = true ∨ r₂.marks.ovf = true →
          v.fg.pc = .micro .validateChoose :: u.fg.pc)) ∧
      (s.link.skipNext = ⟨false, false⟩ → skip = ⟨false, false⟩ → s.link.owed ≤ 2 → ∃ v, exec .validate u = .next v)) ∧
  (∀ (s : State) (r₀ r₁ r₂ : RxRecord), Config.lossyErrorLatch = true → s.uart.rxFifo = [r₀, r₁] →
    s.link.timer ≠ .expired → s.link.owed ≤ 2 →
    ∃ t u w v, exec .recvByte s = .next t ∧ exec .recvByte t = .next u ∧
      exec .recvByte { u with uart.rxFifo := [r₂] } = .next w ∧ exec .validate w = .next v ∧
      v.link.frameError =
        (s.link.frameError || (r₀.marks.fe && !s.link.skipNext.fe) || r₁.marks.fe || r₂.marks.fe) ∧
      v.link.bufferOverflow =
        (s.link.bufferOverflow || (r₀.marks.ovf && !s.link.skipNext.ovf) || r₁.marks.ovf || r₂.marks.ovf)) ∧
  ∀ s : State, Config.lossyErrorLatch = true → s.link.owed ≠ 0 → exec .validate s = .refused .skippedLatch

/-- 10_state R21, R38, 40_serial_link R121, R130: the sticky flags are cleared only by step 5 of `validate`; they are set only
by a foreground test of `recv_byte`, and with cause: the oldest byte waiting carries the mark, or the timer has expired. -/
def Obligations.StickyFlagsAreSetByRecvByteAndClearedAtCheckpoints : Prop :=
  ∀ s t : State, step s = .next t →
    ((∃ rest, s.fg.pc = .micro .validateClear :: rest) ∨
      ((s.link.frameError = true → t.link.frameError = true) ∧
        (s.link.bufferOverflow = true → t.link.bufferOverflow = true) ∧
        (s.link.timeout = true → t.link.timeout = true))) ∧
    (((t.link.frameError = true → s.link.frameError = true) ∧
        (t.link.bufferOverflow = true → s.link.bufferOverflow = true) ∧
        (t.link.timeout = true → s.link.timeout = true)) ∨
      (s.trap.inTrap = false ∧ (s.fg.pc = [] ∨ ∃ st rest, s.fg.pc = st :: rest ∧ st.receives = true))) ∧
    (s.link.frameError = false → t.link.frameError = true →
      ∃ r rest, s.uart.rxFifo = r :: rest ∧ r.marks.fe = true) ∧
    (s.link.bufferOverflow = false → t.link.bufferOverflow = true →
      ∃ r rest, s.uart.rxFifo = r :: rest ∧ r.marks.ovf = true) ∧
    (s.link.timeout = false → t.link.timeout = true → s.link.timer = .expired)

/-! ## BlockTransfer -/

/-- 41_block_transfer R150: a frame within the limit whose checksum is right is accepted: its registers hold it, the result is
its length, nothing is sent, the flags are clear and the timer idle. -/
def Obligations.ReceiveBlockAcceptsAGoodFrame : Prop :=
  ∀ (s : State) (maxSize lb : Byte) (payload : List Byte),
    s.Scheduled (frameMoves lb payload (xorFold payload)) → s.SerialIdle → lb ≤ maxSize →
    payload.length = lb.toNat + 1 →
    ∃ u, Completes (.receiveBlock maxSize) s (3 * lb.toNat + 22) u ∧ u.fg.ret = .okLen (lb.toNat + 1) ∧ u.blk.lb = lb ∧
      u.payload = payload ∧ u.blk.buf.toList.drop (lb.toNat + 1) = s.blk.buf.toList.drop (lb.toNat + 1) ∧
      u.blk.ck = xorFold payload ∧ u.blk.xor = xorFold payload ∧ u.link = { s.link with timer := .idle } ∧ u.uart = s.uart ∧
      u.img = s.img ∧ u.bus = s.bus ∧ u.bank = s.bank ∧ u.port1 = s.port1 ∧ u.trap = s.trap ∧ u.env = s.env ∧
      u.mem = s.mem ∧ u.schedule = []

/-- 41_block_transfer R150, R156, R157: every failure of `receive_block` but InvalidSize: it returns the error, and its code is
the one byte sent. In the length phase: a mark on the length byte or a flag carried into the phase, whatever the length; a host
silent for the window. In the payload phase: a bad stop bit on any payload or checksum byte, whatever the checksum; a host that
stalls before the last byte; any flag the checkpoint finds. At the end: a wrong checksum. Nothing is said of the Block registers
where the whole operation runs, since the spec leaves them unspecified after a failure (R150 corner case h); that the checkpoint
of the payload phase leaves them is log 30. -/
def Obligations.ReceiveBlockFailsWithOneStatusByte : Prop :=
  ∀ (s : State) (maxSize : Byte), s.uart.txReg = none → s.link.skipNext = ⟨false, false⟩ → s.link.owed = 0 →
    (∀ (lb c : Byte) (marks : RxMarks) (rest : List RxRecord) (e : Err), s.Quiet →
      s.uart.rxFifo = ⟨lb, marks⟩ :: rest →
      FlagsReport (s.link.frameError || marks.fe) (s.link.bufferOverflow || marks.ovf) s.link.timeout e c →
      ReceiveBlockFails s maxSize 11 e c) ∧
    (s.Scheduled (controllerMoves 2 ++ testedTicks (timeoutTicks 1)) → s.SerialIdle →
      ReceiveBlockFails s maxSize (2 * timeoutTicks 1 + 11) .timeout 1) ∧
    (∀ (lb : Byte) (ws : List WireByte), s.Scheduled (lengthMoves lb ++ wireMoves ws) → s.SerialIdle → lb ≤ maxSize →
      ws.length = lb.toNat + 2 → (∃ w ∈ ws, w.badStop = true) →
      ReceiveBlockFails s maxSize (3 * lb.toNat + 25) .frameError 5) ∧
    (∀ (lb : Byte) (bytes : List Byte),
      s.Scheduled (lengthMoves lb ++ rxMoves bytes ++ testedTicks (timeoutTicks (lb.toNat + 2))) → s.SerialIdle →
      lb ≤ maxSize → bytes.length < lb.toNat + 2 →
      ReceiveBlockFails s maxSize (2 * timeoutTicks (lb.toNat + 2) + 2 * bytes.length + lb.toNat + 21) .timeout 1) ∧
    (∀ (c : Byte) (rest : List Stmt) (e : Err), s.Quiet → s.fg.pc = .op .validate :: .micro .blockPayload :: rest →
      FlagsReport s.link.frameError s.link.bufferOverflow s.link.timeout e c →
      Runs 8 s { s with
        link.frameError := false, link.bufferOverflow := false, link.timeout := false, link.timer := .idle,
        uart := { rxFifo := [], rxLost := false, txReg := some c }, fg.ret := .err e, fg.pc := rest }) ∧
    ∀ (lb ck : Byte) (payload : List Byte), s.Scheduled (frameMoves lb payload ck) → s.SerialIdle → lb ≤ maxSize →
      payload.length = lb.toNat + 1 → ck ≠ xorFold payload →
      ReceiveBlockFails s maxSize (3 * lb.toNat + 25) .checksumFailed 3

/-- 41_block_transfer R155: a length byte above the limit fails with InvalidSize: the length byte is consumed, the rest
flushed, no payload byte is stored, status 2 is the one byte sent. That `blk_lb` then holds the length byte and the XOR and
checksum registers stay is the model's choice: the spec leaves the Block registers unspecified after a failure (R150 corner
case h; log 30). -/
def Obligations.ReceiveBlockRefusesALongLength : Prop :=
  ∀ (s : State) (maxSize lb : Byte) (rest : List RxRecord),
    s.Quiet → s.uart.rxFifo = ⟨lb, ⟨false, false⟩⟩ :: rest → s.uart.txReg = none → s.link.clear = true →
    s.link.skipNext = ⟨false, false⟩ → s.link.owed = 0 → maxSize < lb →
    Completes (.receiveBlock maxSize) s 10 { s with
      link.timer := .idle, blk.lb := lb, uart := { rxFifo := [], rxLost := false, txReg := some 2 },
      fg.ret := .err .invalidSize }

/-- 41_block_transfer R151: `send_block` sends the length byte, the payload and the checksum, in order, to a host whose
transmitter takes each byte; it cannot fail and changes nothing else but the running XOR. -/
def Obligations.SendBlockEmitsTheFrame : Prop :=
  ∀ (s : State) (bytes : List Byte), 1 ≤ bytes.length → bytes.length ≤ 256 → s.Scheduled (sendBlockMoves bytes.length) →
    s.uart.txReg = none →
    Completes (.sendBlock bytes) s (sendBlockMoves bytes.length).length { s with
      schedule := [], blk.xor := xorFold bytes, env.txWire := s.env.txWire ++ frameOf bytes }

/-- 41_block_transfer R154: a corruption by the masks `errs` of the payload and `err` of the checksum byte goes unseen exactly
when every bit position is flipped in an even number of the bytes. -/
def Obligations.ChecksumSeesExactlyTheOddFlips : Prop :=
  ∀ (payload errs : List Byte) (err : Byte), errs.length = payload.length →
    (xorFold (List.zipWith (· ^^^ ·) payload errs) = xorFold payload ^^^ err ↔
      ∀ k < 8, (errs ++ [err]).countP (fun e => e.getLsbD k) % 2 = 0)

/-- 30_encoding R96, R98: a BLOCK frame fills the Block registers; its XOR is taken over exactly its payload and is the parity of
each bit position. That the row stores the frame, as R150 does byte by byte, is log 21. -/
def Obligations.BlockFrameFillsTheBlockRegisters : Prop :=
  ∀ (s : State) (lb : Byte) (payload : List Byte) (ck : Byte), payload.length = lb.toNat + 1 →
    ∃ t, exec (.block lb payload ck) s = .next t ∧ t.blk.lb = lb ∧ t.blk.ck = ck ∧ t.blk.xor = xorFold payload ∧
      (∀ k < 8, t.blk.xor.getLsbD k = decide (payload.countP (fun b => b.getLsbD k) % 2 = 1)) ∧
      t.payload = payload ∧ t.frameBytes = lb :: payload ++ [ck] ∧
      t.blk.buf.toList.drop (lb.toNat + 1) = s.blk.buf.toList.drop (lb.toNat + 1) ∧ { t with blk := s.blk } = s

/-! ## The size field -/

/-- 30_encoding R95, R99: the SIZE field is big-endian, the block count is `ceil(total_size / 256)` without wrap, 0 exactly for
size 0 and 256 exactly from 65281 on; the image counters start from it (44_load_protocol R230 step 6; log 21). -/
def Obligations.SizeFieldSetsTheImageCounters : Prop :=
  ∀ (s : State) (hi lo : Byte), ∃ t, decode .size [hi, lo] = .ok (.size hi lo, []) ∧ exec (.size hi lo) s = .next t ∧
    t.img.totalSize.toNat = hi.toNat * 256 + lo.toNat ∧ t.img.remainingSize = t.img.totalSize ∧
    t.img.blockCount.toNat = (t.img.totalSize.toNat + 255) / 256 ∧
    (t.img.blockCount.toNat = 0 ↔ t.img.totalSize.toNat = 0) ∧
    (t.img.blockCount.toNat = 256 ↔ 65281 ≤ t.img.totalSize.toNat) ∧ t.img.nextAddr = Config.loadBase ∧
    t.img.loadState = s.img.loadState ∧ { t with img := s.img } = s

/-! ## BusArbiter -/

/-- 42_bus_arbiter R170: `acquire_bus` ends when a running target grants, with the controller the owner; called while it owns
the bus it returns after one test and changes nothing. -/
def Obligations.AcquireBusEndsWithTheGrant : Prop :=
  ∀ s : State,
    (s.Scheduled [.grant] → TargetRuns s →
      Completes .acquireBus s 2 { s with schedule := [], bus.busreq := true, bus.busack := true } ∧
        State.owner { s with schedule := [], bus.busreq := true, bus.busack := true } = .controllerOwned) ∧
    (s.Quiet → s.bus.busreq = true → s.bus.busack = true → Completes .acquireBus s 1 s)

/-- 42_bus_arbiter R170 (a), 60_exceptions R326: with no acknowledgment the foreground stays in the wait of `acquire_bus`, for
any number of steps. -/
def Obligations.AcquireBusHangsWithoutAnAcknowledgment : Prop :=
  ∀ s : State, s.Quiet → s.bus.busack = false →
    ∃ t, exec .acquireBus s = .next t ∧ t.bus.busreq = true ∧ ∀ k, Runs k t t

/-- 60_exceptions R319 to R323: the target grants only when running, asked and between cycles, and takes the bus back only when
the request is withdrawn; it begins a cycle only when running, not asked and between cycles; the cycle in progress, which may
end after the request rose, reads memory, writes memory or makes the I/O request. That the first cycle after its reset is a read
of address 0 is the model's reading (log 6, DEDUCED) of R319, which says that the target begins executing at address 0; that a
cycle begins and ends in two moves is log 6 too. That the target sees `BUSREQ` in the very move in which it acknowledges or drops
its acknowledgment is the model's choice (log 32). The model refuses every other move (log 5). -/
def Obligations.TargetMovesOnlyWithinItsContract : Prop :=
  ∀ (s t : State) (ms : List Move),
    (s.schedule = .grant :: ms → (step s = .next t ↔ s.targetCondition = .running ∧ s.bus.busreq = true ∧
      s.env.cycle = none ∧ t = { s with schedule := ms, bus.busack := true })) ∧
    (s.schedule = .ungrant :: ms → (step s = .next t ↔ s.targetCondition = .granted ∧ s.bus.busreq = false ∧
      t = { s with schedule := ms, bus.busack := false })) ∧
    (∀ c : BusCycle, s.schedule = .cycleStart c :: ms → (step s = .next t ↔ s.targetCondition = .running ∧
      s.bus.busreq = false ∧ s.env.cycle = none ∧ (s.env.fresh = true → c = .memRead 0) ∧
      t = { s with schedule := ms, env.cycle := some c, env.fresh := false })) ∧
    (∀ a : Addr, s.schedule = .cycleEnd :: ms → s.env.cycle = some (.memRead a) →
      (step s = .next t ↔ s.targetCondition = .running ∧
        t = { s with schedule := ms, env.cycle := none, env.tgtData := memRead s.mem (s.location a) })) ∧
    (∀ (a : Addr) (v : Byte), s.schedule = .cycleEnd :: ms → s.env.cycle = some (.memWrite a v) →
      (step s = .next t ↔ s.targetCondition = .running ∧
        t = { s with schedule := ms, env.cycle := none, mem := memWrite s.mem (s.location a) v })) ∧
    (∀ (p : Port) (d : IoDir) (v : Byte), s.schedule = .cycleEnd :: ms → s.env.cycle = some (.io p d v) →
      (step s = .next t ↔ s.targetCondition = .running ∧
        t = { s with
          schedule := ms, env.cycle := none, env.pa := p, env.rw := d, env.dataIn := v, env.iotrap := true,
          trap.pending := true })) ∧
    (s.schedule = .cycleEnd :: ms → s.env.cycle = none → step s ≠ .next t)

/-- 42_bus_arbiter R171: `release_bus` withdraws the request; the target owns the bus again unless it is held in reset. -/
def Obligations.ReleaseBusWithdrawsTheRequest : Prop :=
  ∀ s : State, ∃ t, exec .releaseBus s = .next t ∧ t = { s with bus.busreq := false } ∧
    (s.bus.tgtReset = false → t.owner = .targetOwned) ∧ (s.bus.tgtReset = true → t.owner = .controllerOwned)

/-- 42_bus_arbiter R172, R173: the owner's byte access reaches the location of the visible bank and no other, and leaves all
lines released. -/
def Obligations.ByteAccessReachesOneLocation : Prop :=
  ∀ (s : State) (a : Addr), s.owner = .controllerOwned →
    (∀ v : Byte, memWf s.mem → ∃ t, exec (.writeByteAt a v) s = .next t ∧
      (∀ l, memRead t.mem l = if l = s.location a then v else memRead s.mem l) ∧ memWf t.mem ∧
      t.bus = { s.bus with
        addrOut := a, dataOut := v, dataDir := .inp, addrDir := .inp, memctlDir := .inp, memOe := false, memWe := false,
        memCe := false } ∧
      { t with bus := s.bus, mem := s.mem } = s) ∧
    ∃ t, exec (.readByteAt a) s = .next t ∧ t.fg = { s.fg with ret := .byte (s.memByte a) } ∧
      t.bus = { s.bus with
        addrOut := a, dataDir := .inp, addrDir := .inp, memctlDir := .inp, memOe := false, memWe := false,
        memCe := false } ∧
      { t with bus := s.bus, fg := s.fg } = s

/-- 42_bus_arbiter R177: a driving operation of the foreground while the target owns the bus is the fault
DriveWhileNotOwner, and only then. -/
def Obligations.DrivingWhileNotOwnerFaults : Prop :=
  ∀ (s : State) (a : Addr) (v : Byte),
    (exec (.writeByteAt a v) s = .fault .driveWhileNotOwner ↔ s.owner = .targetOwned) ∧
    (exec (.readByteAt a) s = .fault .driveWhileNotOwner ↔ s.owner = .targetOwned) ∧
    (exec (.switchBank v) s = .fault .driveWhileNotOwner ↔ s.owner = .targetOwned) ∧
    (∀ rest : List Byte, exec (.inject .raw a (v :: rest)) s = .fault .driveWhileNotOwner ↔ s.owner = .targetOwned)

/-- 42_bus_arbiter R176: the owner's bank switch sets the latch and the stored index, and releases DATA; nothing else changes
but the level driven meanwhile. While the target owns the bus it is the fault. -/
def Obligations.SwitchBankSetsLatchAndIndex : Prop :=
  ∀ (s : State) (v : Byte),
    (s.owner = .controllerOwned → ∃ t, exec (.switchBank v) s = .next t ∧
      { t with bus.dataOut := s.bus.dataOut } =
        { s with bus.dataDir := .inp, bank := { bankIndex := v, visibleBank := v } }) ∧
    (s.owner = .targetOwned → exec (.switchBank v) s = .fault .driveWhileNotOwner)

/-- 42_bus_arbiter R174: `inject_raw` by the owner writes its bytes at ascending addresses, one step per byte, and changes
nothing else but the released lines: they show the last address and byte driven (log 16), are directed in, and no strobe is
left. -/
def Obligations.InjectRawWritesAscending : Prop :=
  ∀ (s : State) (base : Addr) (bytes : List Byte), s.Quiet → s.owner = .controllerOwned → bytes ≠ [] →
    ∃ u, Completes (.inject .raw base bytes) s (bytes.length - 1) u ∧
      u.mem = injected s.bank.visibleBank s.mem base bytes ∧ u.owner = .controllerOwned ∧
      u.bus = { s.bus with
        addrOut := addrPlus base (bytes.length - 1), dataOut := bytes.getLastD 0, dataDir := .inp, addrDir := .inp,
        memctlDir := .inp, memOe := false, memWe := false, memCe := false } ∧
      { u with bus := s.bus, mem := s.mem } = s

/-- 42_bus_arbiter R174: what injected memory reads as: each byte at its address where no later address shares its location,
every other location as before. -/
def Obligations.InjectedBytesAreReadBack : Prop :=
  ∀ (b : Byte) (m : List Host.Cell) (base : Addr) (bytes : List Byte), memWf m →
    (∀ (i : Nat) (v : Byte), bytes[i]? = some v →
      (∀ j, i < j → j < bytes.length → Config.bankMap b (addrPlus base j) ≠ Config.bankMap b (addrPlus base i)) →
      memRead (injected b m base bytes) (Config.bankMap b (addrPlus base i)) = v) ∧
    ∀ l, (∀ i < bytes.length, Config.bankMap b (addrPlus base i) ≠ l) →
      memRead (injected b m base bytes) l = memRead m l

/-- 42_bus_arbiter R174: `inject_image` acquires the bus, writes, and releases it unless asked to keep it; the lines are
released, and show the last address and byte driven (log 16). -/
def Obligations.InjectImageBracketsItsWrites : Prop :=
  ∀ (s : State) (keepLocked : Bool) (base : Addr) (bytes : List Byte), s.Scheduled [.grant] → TargetRuns s → bytes ≠ [] →
    ∃ u, Completes (.inject (.image keepLocked) base bytes) s (3 + bytes.length + if keepLocked then 0 else 1) u ∧
      u.mem = injected s.bank.visibleBank s.mem base bytes ∧
      u.bus = { s.bus with
        busreq := keepLocked, busack := true, addrOut := addrPlus base (bytes.length - 1),
        dataOut := bytes.getLastD 0, dataDir := .inp, addrDir := .inp, memctlDir := .inp, memOe := false, memWe := false,
        memCe := false } ∧
      { u with bus := s.bus, mem := s.mem, schedule := [.grant] } = s

/-- 42_bus_arbiter R175: `read_region` fills the buffer from address 0 of the visible bank within one bus bracket; the rest of
the buffer and the other Block registers stay, and the lines are released, the address lines showing the last address driven
(log 16). -/
def Obligations.ReadRegionFillsTheBuffer : Prop :=
  ∀ (s : State) (count : Nat), 1 ≤ count → count ≤ 256 → s.Scheduled [.grant] → TargetRuns s →
    ∃ u, Completes (.readRegion count) s (count + 3) u ∧
      u.bufBytes count = regionBytes s.bank.visibleBank s.mem 0 count ∧
      u.blk.buf.toList.drop count = s.blk.buf.toList.drop count ∧ u.blk.lb = s.blk.lb ∧ u.blk.xor = s.blk.xor ∧
      u.blk.ck = s.blk.ck ∧
      u.bus = { s.bus with
        busreq := false, busack := true, addrOut := BitVec.ofNat 16 (count - 1), dataDir := .inp, addrDir := .inp,
        memctlDir := .inp, memOe := false, memWe := false, memCe := false } ∧
      { u with bus := s.bus, blk := s.blk, schedule := [.grant] } = s

/-! ## CommandLoop -/

/-- 43_command_loop R200, R201, 40_serial_link R121, R130: fetch waits without limit for a command byte and takes it whatever
its marks; a mark is latched, in either setting of the parameter as for any byte (log 10), and the byte is dispatched on its
value, the flags kept for a later checkpoint. -/
def Obligations.FetchWaitsForACommandByte : Prop :=
  ∀ s : State, s.link.timer = .idle →
    (∀ (r : RxRecord) (rest : List RxRecord), s.uart.rxFifo = r :: rest → ∃ t, exec .fetch s = .next t ∧
      t.fg = { s.fg with cmd := r.data, pc := .op .dispatch :: s.fg.pc } ∧ t.uart = { s.uart with rxFifo := rest } ∧
      (Config.lossyErrorLatch = false ∨ s.link.skipNext = ⟨false, false⟩ →
        t.link.frameError = (s.link.frameError || r.marks.fe) ∧
        t.link.bufferOverflow = (s.link.bufferOverflow || r.marks.ovf)) ∧
      (Config.lossyErrorLatch = true →
        t.link.frameError = (s.link.frameError || (r.marks.fe && !s.link.skipNext.fe)) ∧
        t.link.bufferOverflow = (s.link.bufferOverflow || (r.marks.ovf && !s.link.skipNext.ovf))) ∧
      t.link.timeout = s.link.timeout ∧ t.link.timer = .idle ∧
      { t with fg := s.fg, uart := s.uart, link := s.link } = s) ∧
    exec .dispatch s = .next { s with fg.pc := [.command s.fg.cmd] } ∧
    (s.Quiet → s.uart.rxFifo = [] → s.fg.pc = [.op .fetch] → ∀ k, Runs k s s)

/-- 43_command_loop R202: Echo arms a one-byte window and sends back the byte it receives; then the foreground is at FETCH. -/
def Obligations.EchoSendsTheByteBack : Prop :=
  ∀ (s : State) (b : Byte), s.Quiet → s.uart.rxFifo = [⟨b, ⟨false, false⟩⟩] → s.uart.txReg = none → s.link.clear = true →
    s.link.skipNext = ⟨false, false⟩ → s.link.owed = 0 →
    ∃ t v, exec .echo s = .next t ∧ Runs 2 t v ∧ v.link.timer = .running (timeoutTicks 1) ∧ Runs 8 t { s with
      link.timer := .idle, uart.rxFifo := [], uart.txReg := some b, fg.pc := [.op .fetch], fg.echoByte := b,
      fg.ret := .ok }

/-- 43_command_loop R202, R213, 40_serial_link R127: where the byte carries an error mark, or a flag is carried from the command
byte, nothing is echoed; the one byte sent is FrameError, else BufferOverflow, and the flags are clear afterwards, in either
setting of the lossy parameter. -/
def Obligations.EchoReportsAMarkOrACarriedFlag : Prop :=
  ∀ (s : State) (b c : Byte) (fe ovf : Bool), s.Quiet → s.uart.rxFifo = [⟨b, ⟨fe, ovf⟩⟩] → s.uart.txReg = none →
    s.link.skipNext = ⟨false, false⟩ → s.link.owed = 0 →
    (((s.link.frameError = true ∨ fe = true) ∧ c = 5) ∨
      (s.link.frameError = false ∧ fe = false ∧ (s.link.bufferOverflow = true ∨ ovf = true) ∧ c = 6)) →
    ∃ t u, exec .echo s = .next t ∧ Runs 12 t u ∧ u.uart.txReg = some c ∧ u.uart.rxFifo = [] ∧ u.link.clear = true ∧
      u.link.timer = .idle ∧ u.fg.pc = [.op .fetch] ∧ u.mem = s.mem ∧ u.bus = s.bus ∧ u.trap = s.trap ∧ u.env = s.env

/-- 43_command_loop R202, 40_serial_link R131: a host silent for the whole window is answered with Timeout, and not before:
while the controller tests between the ticks, up to the window's last tick, nothing has timed out and nothing is sent. -/
def Obligations.EchoTimesOutAfterItsWindow : Prop :=
  ∀ s : State, s.Scheduled (controllerMoves 2 ++ testedTicks (timeoutTicks 1)) → s.SerialIdle → s.uart.txReg = none →
    ∃ t, exec .echo s = .next t ∧
      (∀ k ≤ 2 * timeoutTicks 1 + 2, ∃ v, Runs k t v ∧ v.link.timeout = false ∧ v.uart.txReg = none ∧
        v.env.txWire = s.env.txWire) ∧
      ∃ u, Runs (2 * timeoutTicks 1 + 12) t u ∧ u.uart.txReg = some 1 ∧ u.uart.rxFifo = [] ∧ u.link.clear = true ∧
        u.link.timer = .idle ∧ u.fg.pc = [.op .fetch] ∧ u.mem = s.mem ∧ u.bus = s.bus ∧ u.trap = s.trap ∧ u.env = s.env

/-- 43_command_loop R205: an unknown command flushes the input, sends UnknownCommand and returns to FETCH; the flags are
neither read nor cleared. -/
def Obligations.UnknownCommandIsAnsweredWithItsStatus : Prop :=
  ∀ (s : State) (b : Byte), s.Quiet → s.uart.txReg = none →
    ∃ t, exec (.unknown b) s = .next t ∧ t.uart.rxFifo = [] ∧ Runs 3 t { s with
      uart := { rxFifo := [], rxLost := false, txReg := some 4 }, fg.pc := [.op .fetch] }

/-- 43_command_loop R203: UploadToRam receives one frame of length byte 0 to 16, writes its payload from address 0 of the
visible bank within one bus bracket, sends Ok and returns to FETCH. Where the reception fails, with any error, the injection is
skipped: memory, the bus and the target are untouched, nothing more is sent and the foreground is at FETCH. -/
def Obligations.UploadWritesItsPayloadAtZeroOrNothing : Prop :=
  ∀ s : State,
    (∀ (lb : Byte) (payload : List Byte),
      s.Scheduled (frameMoves lb payload (xorFold payload) ++ controllerMoves 8 ++ [.grant]) → TargetRuns s →
      s.SerialIdle → s.uart.txReg = none → lb ≤ 16 → payload.length = lb.toNat + 1 →
      ∃ t v u, exec .uploadToRam s = .next t ∧ Runs 2 t v ∧ v.link.timer = .running (timeoutTicks 1) ∧
        Runs (4 * lb.toNat + 33) t u ∧
        u.mem = injected s.bank.visibleBank s.mem 0 payload ∧ u.uart = { s.uart with txReg := some 0 } ∧
        u.fg.pc = [.op .fetch] ∧ u.bus.busreq = false ∧ u.link = { s.link with timer := .idle } ∧ u.img = s.img ∧
        u.bank = s.bank ∧ u.port1 = s.port1 ∧ u.trap = s.trap ∧ u.env = s.env ∧ u.schedule = []) ∧
    (∀ (lb ck : Byte) (payload : List Byte), s.Scheduled (frameMoves lb payload ck) → s.SerialIdle →
      s.uart.txReg = none → lb ≤ 16 → payload.length = lb.toNat + 1 → ck ≠ xorFold payload →
      ∃ t u, exec .uploadToRam s = .next t ∧ Runs (3 * lb.toNat + 26) t u ∧ u.fg.pc = [.op .fetch] ∧ u.mem = s.mem ∧
        u.uart = { s.uart with txReg := some 3 } ∧ u.bus = s.bus ∧ u.link = { s.link with timer := .idle } ∧
        u.img = s.img ∧ u.bank = s.bank ∧ u.port1 = s.port1 ∧ u.trap = s.trap ∧ u.env = s.env ∧ u.schedule = []) ∧
    ∀ (rest : List Stmt) (e : Err), s.Quiet → s.fg.pc = .micro .uploadChecked :: rest → s.fg.ret = .err e →
      step s = .next { s with fg.pc := [.op .fetch] }

/-- 43_command_loop R204: DownloadFromRam reads addresses 0 to 15 of the visible bank within one bus bracket, sends them as
one frame of 18 bytes and returns to FETCH; the flags are left as they were. -/
def Obligations.DownloadSendsTheRegion : Prop :=
  ∀ s : State, s.Scheduled ([.grant] ++ controllerMoves 19 ++ sendBlockMoves 16) → TargetRuns s → s.uart.txReg = none →
    ∃ t u, exec .downloadFromRam s = .next t ∧ t.bus.busreq = true ∧ Runs (21 + (sendBlockMoves 16).length) t u ∧
      u.env.txWire = s.env.txWire ++ frameOf (regionBytes s.bank.visibleBank s.mem 0 16) ∧
      u.env.txWire.length = s.env.txWire.length + 18 ∧ u.bus.busreq = false ∧ u.fg.pc = [.op .fetch] ∧
      u.mem = s.mem ∧ u.link = s.link ∧ u.img = s.img ∧ u.bank = s.bank ∧ u.port1 = s.port1 ∧ u.trap = s.trap ∧
      u.uart = s.uart ∧ u.schedule = []

/-- 43_command_loop R206 step 8, R207, R208, 60_exceptions R319, R324: the failure ending stops the clock and holds the target
in reset, its cycle abandoned, `trap_enable` left as it is; the success ending enables the trap and releases the bus, a pending
trap being entered in between. `Aborted` leads to the failure ending and `Done` to the success ending. A LoadBinary whose host is
silent at the size ends so: Timeout is the one byte sent, the target is held with its clock stopped and the trap disabled, the
bootstrap stays in memory. That PA, RW and undriven DATA keep their level when the target is held is the model's choice (log
18). -/
def Obligations.LoadBinaryEndings : Prop :=
  (∀ s : State, s.Quiet →
    (∃ u, Completes .loadFailure s 1 u ∧ u = { s with
      bus.tgtClkRun := false, bus.tgtReset := true, bus.busack := false, trap.pending := false, env.iotrap := false,
      env.cycle := none, env.fresh := true }) ∧
    (s.trap.pending = false → ∃ u, Completes .loadSuccess s 1 u ∧ u = { s with
      trap.enable := true, bus.busreq := false }) ∧
    (s.trap.pending = true → ∃ t, exec .loadSuccess s = .next t ∧
      t = { s with trap.enable := true, fg.pc := .op .releaseBus :: s.fg.pc } ∧ step t = exec .ioTrapDispatcher t) ∧
    (∀ rest : List Stmt, s.fg.pc = .micro .loadResult :: rest → s.fg.ret = .aborted → Runs 3 s { s with
      bus.tgtClkRun := false, bus.tgtReset := true, bus.busack := false, trap.pending := false, env.iotrap := false,
      env.cycle := none, env.fresh := true, fg.pc := rest }) ∧
    ∀ rest : List Stmt, s.fg.pc = .micro .loadResult :: rest → s.fg.ret = .done → s.trap.pending = false →
      Runs 3 s { s with trap.enable := true, bus.busreq := false, fg.pc := rest }) ∧
  ∀ s : State, s.Scheduled (controllerMoves (8 + Config.bootstrap.length) ++ testedTicks (timeoutTicks 2)) →
    s.SerialIdle → s.uart.txReg = none →
    ∃ t u, exec .loadBinary s = .next t ∧ Runs (Config.bootstrap.length + 2 * timeoutTicks 2 + 22) t u ∧
      u.fg.pc = [.op .fetch] ∧ u.uart = { s.uart with txReg := some 1 } ∧ u.img.loadState = .aborted ∧
      u.mem = injected s.bank.visibleBank s.mem 0 Config.bootstrap ∧ u.bus.tgtReset = true ∧ u.bus.tgtClkRun = false ∧
      u.trap.enable = false ∧ u.bus.busreq = s.bus.busreq ∧ u.link = { s.link with timer := .idle } ∧ u.schedule = []

/-- 43_command_loop R206 steps 1 to 6, 60_exceptions R319: LoadBinary stops and resets the target, disables the trap, writes the
bootstrap from address 0 of the visible bank without a handshake, releases reset and restarts the clock, the target then to
begin at address 0; the load protocol follows. -/
def Obligations.LoadBinaryInjectsTheBootstrapUnderReset : Prop :=
  ∀ s : State, s.Quiet →
    ∃ t u, exec .loadBinary s = .next t ∧ t.bus.tgtClkRun = false ∧ Runs (4 + Config.bootstrap.length) t u ∧
      u.mem = injected s.bank.visibleBank s.mem 0 Config.bootstrap ∧ u.trap.enable = false ∧ u.trap.pending = false ∧
      u.bus.tgtReset = false ∧ u.bus.tgtClkRun = true ∧ u.bus.busreq = s.bus.busreq ∧ u.bus.busack = false ∧
      u.env.cycle = none ∧ u.env.fresh = true ∧
      u.fg.pc = [.op .loadProtocol, .micro .loadResult, .micro .toFetch] ∧ u.link = s.link ∧ u.blk = s.blk ∧
      u.img = s.img ∧ u.bank = s.bank ∧ u.port1 = s.port1 ∧ u.uart = s.uart

/-! ## The Composite Load Protocol -/

/-- 44_load_protocol R239: LoadBinary with size 0 completes with block count 0 in the cell, no blocks exchanged and one Ok,
the trap enabled, the bus released and the foreground at FETCH. -/
def Obligations.LoadOfSizeZeroCompletes : Prop :=
  ∀ s : State,
    s.Scheduled (controllerMoves (8 + Config.bootstrap.length) ++ rxMoves [0, 0] ++ controllerMoves 4 ++ [.grant]) →
    s.SerialIdle → s.uart.txReg = none →
    ∃ t u, exec .loadBinary s = .next t ∧ Runs (Config.bootstrap.length + 31) t u ∧ u.fg.pc = [.op .fetch] ∧
      u.uart = { s.uart with txReg := some 0 } ∧ u.img.loadState = .done ∧ u.img.blockCount = 0 ∧
      u.mem = memWrite (injected s.bank.visibleBank s.mem 0 Config.bootstrap)
        (Config.bankMap s.bank.visibleBank Config.countCell) 0 ∧
      u.trap.enable = true ∧ u.bus.busreq = false ∧ u.bus.tgtReset = false ∧ u.bus.tgtClkRun = true ∧
      u.link = { s.link with timer := .idle } ∧ u.schedule = []

/-- 44_load_protocol R231, R232: the size is received high byte first, `block_count[7:0]` is written to the count cell within
one bus bracket, then Ok is sent and the protocol awaits blocks. -/
def Obligations.LoadProtocolAnnouncesTheBlockCount : Prop :=
  ∀ (s : State) (hi lo : Byte), s.Scheduled (controllerMoves 3 ++ rxMoves [hi, lo] ++ controllerMoves 4 ++ [.grant]) →
    TargetRuns s → s.SerialIdle → s.uart.txReg = none →
    ∃ t u, exec .loadProtocol s = .next t ∧ t.img.loadState = .awaitSize ∧ Runs 20 t u ∧
      u.fg.pc = .micro .blocksLoop :: s.fg.pc ∧ u.img.loadState = .awaitBlocks ∧
      u.img.totalSize.toNat = hi.toNat * 256 + lo.toNat ∧ u.img.remainingSize = u.img.totalSize ∧
      u.img.blockCount.toNat = (u.img.totalSize.toNat + 255) / 256 ∧ u.img.nextAddr = Config.loadBase ∧
      u.mem = memWrite s.mem (Config.bankMap s.bank.visibleBank Config.countCell) (u.img.blockCount.setWidth 8) ∧
      u.uart = { s.uart with txReg := some 0 } ∧ u.bus.busreq = false ∧ u.link = { s.link with timer := .idle } ∧
      u.blk = s.blk ∧ u.bank = s.bank ∧ u.trap = s.trap

/-- 44_load_protocol R230: the transitions that send nothing: a failed size or block phase aborts, the loop test with nothing
remaining leads to Done, with something remaining it receives the next block with limit 255. -/
def Obligations.LoadProtocolTransitions : Prop :=
  ∀ (s : State) (rest : List Stmt), s.Quiet →
    (∀ e : Err, s.fg.pc = .micro .sizeChecked :: rest ∨ s.fg.pc = .micro .blockReceived :: rest → s.fg.ret = .err e →
      step s = .next { s with img.loadState := .aborted, fg.ret := .aborted, fg.pc := rest }) ∧
    (s.fg.pc = .micro .blocksLoop :: rest → s.img.remainingSize = 0 →
      Runs 2 s { s with img.loadState := .done, fg.ret := .done, fg.pc := rest }) ∧
    (s.fg.pc = .micro .blocksLoop :: rest → s.img.remainingSize ≠ 0 →
      step s = .next { s with fg.pc := .op (.receiveBlock 255) :: .micro .blockReceived :: rest })

/-- 44_load_protocol R235, R236: a block of the required length is injected at the next contiguous addresses, acknowledged with
Ok and subtracted; the bus is released unless the block was the final one. -/
def Obligations.AcceptedBlockIsInjectedAndAcknowledged : Prop :=
  ∀ (s : State) (rest : List Stmt) (n : Nat), s.Scheduled (controllerMoves 5 ++ [.grant]) → TargetRuns s →
    s.uart.txReg = none → s.fg.pc = .micro .blockReceived :: rest → s.fg.ret = .okLen n → s.img.remainingSize ≠ 0 →
    s.blk.lb.toNat = min s.img.remainingSize.toNat 256 - 1 →
    ∃ u, Runs (s.blk.lb.toNat + 13 + if s.blk.lb.toNat + 1 = s.img.remainingSize.toNat then 0 else 1) s u ∧
      u.fg.pc = .micro .blocksLoop :: rest ∧
      u.mem = injected s.bank.visibleBank s.mem s.img.nextAddr s.payload ∧
      u.img = { s.img with
        nextAddr := addrPlus s.img.nextAddr (s.blk.lb.toNat + 1),
        remainingSize := s.img.remainingSize - BitVec.ofNat 16 (s.blk.lb.toNat + 1) } ∧
      u.img.remainingSize.toNat = s.img.remainingSize.toNat - (s.blk.lb.toNat + 1) ∧
      u.uart = { s.uart with txReg := some 0 } ∧ u.bus.busreq = decide (u.img.remainingSize = 0) ∧ u.link = s.link ∧
      u.blk = s.blk ∧ u.bank = s.bank ∧ u.trap = s.trap ∧ u.env = s.env

/-- 44_load_protocol R234: a block of any other length fails with InvalidSize and aborts the protocol; nothing of it is
injected and nothing is flushed. -/
def Obligations.BlockOfTheWrongLengthAborts : Prop :=
  ∀ (s : State) (rest : List Stmt) (n : Nat), s.Quiet → s.uart.txReg = none → s.fg.pc = .micro .blockReceived :: rest →
    s.fg.ret = .okLen n → s.img.remainingSize ≠ 0 → s.blk.lb.toNat ≠ min s.img.remainingSize.toNat 256 - 1 →
    Runs 6 s { s with
      uart.txReg := some 2, img.loadState := .aborted, fg.ret := .aborted, fg.pc := rest }

/-! ## The emulated ports -/

/-- 45_io_ports R262 to R271: what each port operation but the console write does, the whole of it. A port-1 Write has the
effect of the LED sub-command its data byte encodes. -/
def Obligations.PortOperationsHaveTheirEffects : Prop :=
  ∀ s : State,
    exec .port0Read s = .next s ∧ (∀ (d : IoDir) (p : Port), exec (.portUnknown d p) s = .next s) ∧
    exec .port1Read s = .next { s with
      bus.dataDir := .out,
      bus.dataOut := if (if s.port1.dir = .out then s.port1.out else s.port1.ext) then 1 else 0 } ∧
    exec .port2Read s = .next { s with bus.dataDir := .out, bus.dataOut := s.bank.bankIndex } ∧
    exec .port2Write s = .next { s with bank := { bankIndex := s.trap.ioData, visibleBank := s.trap.ioData } } ∧
    exec .ledDisable s = .next { s with port1.out := false } ∧
    exec .ledEnable s = .next { s with port1.out := true, port1.dir := .out } ∧
    exec .ledSelectLed s = .next { s with port1.dir := .out } ∧
    exec .ledSelectSwitch s = .next { s with port1.dir := .inp } ∧ (∀ b : Byte, exec (.ledNone b) s = .next s) ∧
    (s.trap.ioData = 0 → exec .port1Write s = .next { s with port1.out := false }) ∧
    (s.trap.ioData = 1 → exec .port1Write s = .next { s with port1.out := true, port1.dir := .out }) ∧
    (s.trap.ioData = 2 → exec .port1Write s = .next { s with port1.dir := .out }) ∧
    (s.trap.ioData = 3 → exec .port1Write s = .next { s with port1.dir := .inp }) ∧
    (3 < s.trap.ioData → exec .port1Write s = .next s)

/-- 45_io_ports R261: the console write never waits; with the register empty its byte is sent, with the register occupied one
of the two bytes is lost, and nothing else changes. The same holds of a foreground `tx_write` that finds the register refilled
by a console write. -/
def Obligations.ConsoleWriteNeverWaits : Prop :=
  ∀ s : State,
    (s.uart.txReg = none → exec .port0Write s = .next { s with uart.txReg := some s.trap.ioData }) ∧
    (∀ p : Byte, s.uart.txReg = some p → ∃ t, exec .port0Write s = .next t ∧
      (t.uart.txReg = some p ∨ t.uart.txReg = some s.trap.ioData) ∧
      { t with uart.txReg := s.uart.txReg, freeCount := s.freeCount } = s) ∧
    (∀ b p : Byte, s.uart.txReg = some p → ∃ t, runMicro (.txWrite b) s = .next t ∧
      (t.uart.txReg = some p ∨ t.uart.txReg = some b) ∧
      { t with uart.txReg := s.uart.txReg, freeCount := s.freeCount } = s)

/-- 45_io_ports R275 and its opening: a port operation takes a next state whatever the foreground's position, the trap enable
and the bus request, with the same effect, and touches no flag, no timer, no Block or BinaryImage register and no memory. -/
def Obligations.PortOperationsIgnoreTheForeground : Prop :=
  ∀ (i : Instr) (s : State) (f : Foreground) (enable busreq : Bool), i.port = true →
    ∃ t, exec i s = .next t ∧ t.link = s.link ∧ t.blk = s.blk ∧ t.img = s.img ∧ t.fg = s.fg ∧ t.mem = s.mem ∧
      t.trap = s.trap ∧ t.env = s.env ∧ t.uart.rxFifo = s.uart.rxFifo ∧ t.bus.busreq = s.bus.busreq ∧
      exec i { s with fg := f, trap.enable := enable, bus.busreq := busreq } =
        .next { t with fg := f, trap.enable := enable, bus.busreq := busreq }

/-! ## The I/O trap -/

/-- 60_exceptions R300, R301, R302, R304: when the trap is entered, what entry samples and return restores; the foreground may
go first when the schedule says so (log 4). -/
def Obligations.TrapEntryAndReturn : Prop :=
  ∀ s : State,
    (s.schedule = [] → s.trap.enable = true → s.trap.pending = true → s.trap.inTrap = false →
      step s = exec .ioTrapDispatcher s) ∧
    (∀ ms : List Move, s.schedule = .foreground :: ms → s.trap.inTrap = false →
      step s = foregroundStep { s with schedule := ms }) ∧
    (∃ t, exec .trapEntry s = .next t ∧ exec .ioTrapDispatcher s = .next t ∧ t.trap.inTrap = true ∧
      t.trap.ioPort = s.env.pa ∧ t.trap.ioDir = s.env.rw ∧ t.trap.ioData = s.sampleData ∧
      t.trap.enable = s.trap.enable ∧ t.trap.pending = s.trap.pending ∧ t.trap.pos = .dispatchPort ∧
      { t with trap := s.trap } = s) ∧
    exec .trapReturn s = .next { s with trap.inTrap := false }

/-- 60_exceptions R303, R322: the completion handshake requests the bus, lets the target go, waits for its acknowledgment,
releases DATA after a Read and withdraws the request; on a Read the target has taken the level that was on DATA. That PA, RW and
undriven DATA keep their level after the cycle, and that a Read which drives nothing takes the level undriven DATA had before the
handshake, are the model's choices (log 18; the spec: any value). -/
def Obligations.CompletionHandshake : Prop :=
  ∀ s : State, s.trap.inTrap = true → s.schedule = [.controller, .grant] → s.bus.tgtReset = false →
    s.bus.tgtClkRun = true → s.bus.busack = false → s.env.cycle = none →
    ∃ t, exec .completeTrap s = .next t ∧ t.bus.busreq = true ∧
      Runs 5 t { s with
        schedule := [],
        bus.busreq := false, bus.busack := true, bus.dataDir := if s.trap.ioDir = .read then .inp else s.bus.dataDir,
        trap.pending := false, trap.pos := .ret, env.iotrap := false,
        env.tgtData := if s.trap.ioDir = .read then s.sampleData else s.env.tgtData }

/-- 60_exceptions R302: a pending request of a target whose clock runs is served whole: the dispatcher enters, performs the
operation of the request's port and direction, completes the cycle and returns, and the foreground is exactly where it was. On
a Read of port 1 or 2 the target has taken the level of LEDSW or the bank index. On a Read that drives nothing (port 0, ports 3
to 15) the spec lets the target take any value; that it takes the level undriven DATA showed when the operation ran is the
model's choice (log 18). -/
def Obligations.TrapRequestIsServedWhole : Prop :=
  ∀ s : State, s.schedule = controllerMoves 4 ++ [.grant] → s.trap.enable = true → s.trap.pending = true →
    s.trap.inTrap = false → s.bus.tgtReset = false → s.bus.tgtClkRun = true → s.bus.busack = false →
    s.env.cycle = none → s.bus.dataDir = .inp →
    ∃ q u, exec (decodePort s.env.rw s.env.pa)
        { s with
          schedule := controllerMoves 2 ++ [.grant],
          trap.inTrap := true, trap.ioPort := s.env.pa, trap.ioDir := s.env.rw, trap.ioData := s.env.dataIn,
          trap.pos := .complete } = .next q ∧
      Runs 9 s u ∧ u.fg = s.fg ∧ u.link = s.link ∧ u.blk = s.blk ∧ u.img = s.img ∧ u.mem = s.mem ∧ u.bank = q.bank ∧
      u.port1 = q.port1 ∧ u.uart = q.uart ∧ u.trap.inTrap = false ∧ u.trap.pending = false ∧ u.trap.enable = true ∧
      u.bus.busreq = false ∧ u.bus.dataDir = .inp ∧ u.schedule = [] ∧
      (s.env.rw = .read → u.env.tgtData = q.sampleData) ∧
      (s.env.rw = .read → s.env.pa = 2 → u.env.tgtData = s.bank.bankIndex) ∧
      (s.env.rw = .read → s.env.pa = 1 → u.env.tgtData = if s.sampleLedsw then 1 else 0)

/-- 40_serial_link R133, 60_exceptions R310: while the dispatcher runs, the controller's step changes neither the foreground's
position nor SerialLink, the Block and BinaryImage registers, the receive queue or memory. -/
def Obligations.DispatcherLeavesTheForegroundAlone : Prop :=
  ∀ s t : State, s.trap.inTrap = true → s.schedule = [] → step s = .next t →
    t.fg = s.fg ∧ t.link = s.link ∧ t.blk = s.blk ∧ t.img = s.img ∧ t.uart.rxFifo = s.uart.rxFifo ∧
      t.uart.rxLost = s.uart.rxLost ∧ t.mem = s.mem ∧ t.trap.enable = s.trap.enable

/-! ## Rules over every step -/

/-- 60_exceptions R306, 10_state R32: only LoadBinary's statements write `trap_enable`, `TGT_RESET` and `TGT_CLK_RUN`. -/
def Obligations.OnlyLoadBinaryControlsTrapAndTarget : Prop :=
  ∀ s t : State, step s = .next t →
    (t.trap.enable = s.trap.enable ∨
      (∃ rest, s.fg.pc = .micro .disableTrap :: rest ∧ t.trap.enable = false) ∨
      (∃ rest, s.fg.pc = .op .loadSuccess :: rest ∧ t.trap.enable = true)) ∧
    (t.bus.tgtReset = s.bus.tgtReset ∨
      (∃ rest, s.fg.pc = .micro .assertReset :: rest ∧ t.bus.tgtReset = true) ∨
      (∃ rest, s.fg.pc = .micro .releaseReset :: rest ∧ t.bus.tgtReset = false)) ∧
    (t.bus.tgtClkRun = s.bus.tgtClkRun ∨
      (∃ rest, (s.fg.pc = .command 1 :: rest ∨ s.fg.pc = .op .loadBinary :: rest ∨ s.fg.pc = .op .loadFailure :: rest) ∧
        t.bus.tgtClkRun = false) ∨
      (∃ rest, s.fg.pc = .micro .startClock :: rest ∧ t.bus.tgtClkRun = true))

/-- 20_memory R74: the controller changes memory only while it owns the bus. -/
def Obligations.ControllerWritesMemoryOnlyAsOwner : Prop :=
  ∀ s t : State, s.schedule = [] → step s = .next t → t.mem = s.mem ∨ s.owner = .controllerOwned
end

