-- ==== Sys2Proof/Laws/State.lean ====
section
/-! SUPPORT. One lemma per field per named update of the state, tagged simp: no later proof unfolds an update. -/

namespace Sys2Proof.Machine

/-! ### push -/

@[simp] theorem State.push_link (s : State) (ks : List Stmt) : (s.push ks).link = s.link := rfl
@[simp] theorem State.push_blk (s : State) (ks : List Stmt) : (s.push ks).blk = s.blk := rfl
@[simp] theorem State.push_img (s : State) (ks : List Stmt) : (s.push ks).img = s.img := rfl
@[simp] theorem State.push_bus (s : State) (ks : List Stmt) : (s.push ks).bus = s.bus := rfl
@[simp] theorem State.push_bank (s : State) (ks : List Stmt) : (s.push ks).bank = s.bank := rfl
@[simp] theorem State.push_port1 (s : State) (ks : List Stmt) : (s.push ks).port1 = s.port1 := rfl
@[simp] theorem State.push_trap (s : State) (ks : List Stmt) : (s.push ks).trap = s.trap := rfl
@[simp] theorem State.push_fg (s : State) (ks : List Stmt) : (s.push ks).fg = { s.fg with pc := ks ++ s.fg.pc } := rfl
@[simp] theorem State.push_uart (s : State) (ks : List Stmt) : (s.push ks).uart = s.uart := rfl
@[simp] theorem State.push_env (s : State) (ks : List Stmt) : (s.push ks).env = s.env := rfl
@[simp] theorem State.push_mem (s : State) (ks : List Stmt) : (s.push ks).mem = s.mem := rfl
@[simp] theorem State.push_freeCount (s : State) (ks : List Stmt) : (s.push ks).freeCount = s.freeCount := rfl
@[simp] theorem State.push_schedule (s : State) (ks : List Stmt) : (s.push ks).schedule = s.schedule := rfl

/-! ### goto -/

@[simp] theorem State.goto_link (s : State) (ks : List Stmt) : (s.goto ks).link = s.link := rfl
@[simp] theorem State.goto_blk (s : State) (ks : List Stmt) : (s.goto ks).blk = s.blk := rfl
@[simp] theorem State.goto_img (s : State) (ks : List Stmt) : (s.goto ks).img = s.img := rfl
@[simp] theorem State.goto_bus (s : State) (ks : List Stmt) : (s.goto ks).bus = s.bus := rfl
@[simp] theorem State.goto_bank (s : State) (ks : List Stmt) : (s.goto ks).bank = s.bank := rfl
@[simp] theorem State.goto_port1 (s : State) (ks : List Stmt) : (s.goto ks).port1 = s.port1 := rfl
@[simp] theorem State.goto_trap (s : State) (ks : List Stmt) : (s.goto ks).trap = s.trap := rfl
@[simp] theorem State.goto_fg (s : State) (ks : List Stmt) : (s.goto ks).fg = { s.fg with pc := ks } := rfl
@[simp] theorem State.goto_uart (s : State) (ks : List Stmt) : (s.goto ks).uart = s.uart := rfl
@[simp] theorem State.goto_env (s : State) (ks : List Stmt) : (s.goto ks).env = s.env := rfl
@[simp] theorem State.goto_mem (s : State) (ks : List Stmt) : (s.goto ks).mem = s.mem := rfl
@[simp] theorem State.goto_freeCount (s : State) (ks : List Stmt) : (s.goto ks).freeCount = s.freeCount := rfl
@[simp] theorem State.goto_schedule (s : State) (ks : List Stmt) : (s.goto ks).schedule = s.schedule := rfl

/-! ### give -/

@[simp] theorem State.give_link (s : State) (r : Ret) : (s.give r).link = s.link := rfl
@[simp] theorem State.give_blk (s : State) (r : Ret) : (s.give r).blk = s.blk := rfl
@[simp] theorem State.give_img (s : State) (r : Ret) : (s.give r).img = s.img := rfl
@[simp] theorem State.give_bus (s : State) (r : Ret) : (s.give r).bus = s.bus := rfl
@[simp] theorem State.give_bank (s : State) (r : Ret) : (s.give r).bank = s.bank := rfl
@[simp] theorem State.give_port1 (s : State) (r : Ret) : (s.give r).port1 = s.port1 := rfl
@[simp] theorem State.give_trap (s : State) (r : Ret) : (s.give r).trap = s.trap := rfl
@[simp] theorem State.give_fg (s : State) (r : Ret) : (s.give r).fg = { s.fg with ret := r } := rfl
@[simp] theorem State.give_uart (s : State) (r : Ret) : (s.give r).uart = s.uart := rfl
@[simp] theorem State.give_env (s : State) (r : Ret) : (s.give r).env = s.env := rfl
@[simp] theorem State.give_mem (s : State) (r : Ret) : (s.give r).mem = s.mem := rfl
@[simp] theorem State.give_freeCount (s : State) (r : Ret) : (s.give r).freeCount = s.freeCount := rfl
@[simp] theorem State.give_schedule (s : State) (r : Ret) : (s.give r).schedule = s.schedule := rfl

/-! ### drawn -/

@[simp] theorem State.drawn_link (s : State) : (s.drawn).link = s.link := rfl
@[simp] theorem State.drawn_blk (s : State) : (s.drawn).blk = s.blk := rfl
@[simp] theorem State.drawn_img (s : State) : (s.drawn).img = s.img := rfl
@[simp] theorem State.drawn_bus (s : State) : (s.drawn).bus = s.bus := rfl
@[simp] theorem State.drawn_bank (s : State) : (s.drawn).bank = s.bank := rfl
@[simp] theorem State.drawn_port1 (s : State) : (s.drawn).port1 = s.port1 := rfl
@[simp] theorem State.drawn_trap (s : State) : (s.drawn).trap = s.trap := rfl
@[simp] theorem State.drawn_fg (s : State) : (s.drawn).fg = s.fg := rfl
@[simp] theorem State.drawn_uart (s : State) : (s.drawn).uart = s.uart := rfl
@[simp] theorem State.drawn_env (s : State) : (s.drawn).env = s.env := rfl
@[simp] theorem State.drawn_mem (s : State) : (s.drawn).mem = s.mem := rfl
@[simp] theorem State.drawn_freeCount (s : State) : (s.drawn).freeCount = s.freeCount + 1 := rfl
@[simp] theorem State.drawn_schedule (s : State) : (s.drawn).schedule = s.schedule := rfl

/-! ### setMemByte -/

@[simp] theorem State.setMemByte_link (s : State) (a : Addr) (v : Byte) : (s.setMemByte a v).link = s.link := rfl
@[simp] theorem State.setMemByte_blk (s : State) (a : Addr) (v : Byte) : (s.setMemByte a v).blk = s.blk := rfl
@[simp] theorem State.setMemByte_img (s : State) (a : Addr) (v : Byte) : (s.setMemByte a v).img = s.img := rfl
@[simp] theorem State.setMemByte_bus (s : State) (a : Addr) (v : Byte) : (s.setMemByte a v).bus = s.bus := rfl
@[simp] theorem State.setMemByte_bank (s : State) (a : Addr) (v : Byte) : (s.setMemByte a v).bank = s.bank := rfl
@[simp] theorem State.setMemByte_port1 (s : State) (a : Addr) (v : Byte) : (s.setMemByte a v).port1 = s.port1 := rfl
@[simp] theorem State.setMemByte_trap (s : State) (a : Addr) (v : Byte) : (s.setMemByte a v).trap = s.trap := rfl
@[simp] theorem State.setMemByte_fg (s : State) (a : Addr) (v : Byte) : (s.setMemByte a v).fg = s.fg := rfl
@[simp] theorem State.setMemByte_uart (s : State) (a : Addr) (v : Byte) : (s.setMemByte a v).uart = s.uart := rfl
@[simp] theorem State.setMemByte_env (s : State) (a : Addr) (v : Byte) : (s.setMemByte a v).env = s.env := rfl
@[simp] theorem State.setMemByte_mem (s : State) (a : Addr) (v : Byte) : (s.setMemByte a v).mem = memWrite s.mem (s.location a) v := rfl
@[simp] theorem State.setMemByte_freeCount (s : State) (a : Addr) (v : Byte) : (s.setMemByte a v).freeCount = s.freeCount := rfl
@[simp] theorem State.setMemByte_schedule (s : State) (a : Addr) (v : Byte) : (s.setMemByte a v).schedule = s.schedule := rfl

/-! ### setDataDir -/

@[simp] theorem State.setDataDir_link (s : State) (d : LineDir) : (s.setDataDir d).link = s.link := rfl
@[simp] theorem State.setDataDir_blk (s : State) (d : LineDir) : (s.setDataDir d).blk = s.blk := rfl
@[simp] theorem State.setDataDir_img (s : State) (d : LineDir) : (s.setDataDir d).img = s.img := rfl
@[simp] theorem State.setDataDir_bus (s : State) (d : LineDir) : (s.setDataDir d).bus = { s.bus with dataDir := d } := rfl
@[simp] theorem State.setDataDir_bank (s : State) (d : LineDir) : (s.setDataDir d).bank = s.bank := rfl
@[simp] theorem State.setDataDir_port1 (s : State) (d : LineDir) : (s.setDataDir d).port1 = s.port1 := rfl
@[simp] theorem State.setDataDir_trap (s : State) (d : LineDir) : (s.setDataDir d).trap = s.trap := rfl
@[simp] theorem State.setDataDir_fg (s : State) (d : LineDir) : (s.setDataDir d).fg = s.fg := rfl
@[simp] theorem State.setDataDir_uart (s : State) (d : LineDir) : (s.setDataDir d).uart = s.uart := rfl
@[simp] theorem State.setDataDir_env (s : State) (d : LineDir) : (s.setDataDir d).env = s.env := rfl
@[simp] theorem State.setDataDir_mem (s : State) (d : LineDir) : (s.setDataDir d).mem = s.mem := rfl
@[simp] theorem State.setDataDir_freeCount (s : State) (d : LineDir) : (s.setDataDir d).freeCount = s.freeCount := rfl
@[simp] theorem State.setDataDir_schedule (s : State) (d : LineDir) : (s.setDataDir d).schedule = s.schedule := rfl

/-! ### driveData -/

@[simp] theorem State.driveData_link (s : State) (v : Byte) : (s.driveData v).link = s.link := rfl
@[simp] theorem State.driveData_blk (s : State) (v : Byte) : (s.driveData v).blk = s.blk := rfl
@[simp] theorem State.driveData_img (s : State) (v : Byte) : (s.driveData v).img = s.img := rfl
@[simp] theorem State.driveData_bus (s : State) (v : Byte) : (s.driveData v).bus = { s.bus with dataOut := v } := rfl
@[simp] theorem State.driveData_bank (s : State) (v : Byte) : (s.driveData v).bank = s.bank := rfl
@[simp] theorem State.driveData_port1 (s : State) (v : Byte) : (s.driveData v).port1 = s.port1 := rfl
@[simp] theorem State.driveData_trap (s : State) (v : Byte) : (s.driveData v).trap = s.trap := rfl
@[simp] theorem State.driveData_fg (s : State) (v : Byte) : (s.driveData v).fg = s.fg := rfl
@[simp] theorem State.driveData_uart (s : State) (v : Byte) : (s.driveData v).uart = s.uart := rfl
@[simp] theorem State.driveData_env (s : State) (v : Byte) : (s.driveData v).env = s.env := rfl
@[simp] theorem State.driveData_mem (s : State) (v : Byte) : (s.driveData v).mem = s.mem := rfl
@[simp] theorem State.driveData_freeCount (s : State) (v : Byte) : (s.driveData v).freeCount = s.freeCount := rfl
@[simp] theorem State.driveData_schedule (s : State) (v : Byte) : (s.driveData v).schedule = s.schedule := rfl

/-! ### setAddrDir -/

@[simp] theorem State.setAddrDir_link (s : State) (d : LineDir) : (s.setAddrDir d).link = s.link := rfl
@[simp] theorem State.setAddrDir_blk (s : State) (d : LineDir) : (s.setAddrDir d).blk = s.blk := rfl
@[simp] theorem State.setAddrDir_img (s : State) (d : LineDir) : (s.setAddrDir d).img = s.img := rfl
@[simp] theorem State.setAddrDir_bus (s : State) (d : LineDir) : (s.setAddrDir d).bus = { s.bus with addrDir := d } := rfl
@[simp] theorem State.setAddrDir_bank (s : State) (d : LineDir) : (s.setAddrDir d).bank = s.bank := rfl
@[simp] theorem State.setAddrDir_port1 (s : State) (d : LineDir) : (s.setAddrDir d).port1 = s.port1 := rfl
@[simp] theorem State.setAddrDir_trap (s : State) (d : LineDir) : (s.setAddrDir d).trap = s.trap := rfl
@[simp] theorem State.setAddrDir_fg (s : State) (d : LineDir) : (s.setAddrDir d).fg = s.fg := rfl
@[simp] theorem State.setAddrDir_uart (s : State) (d : LineDir) : (s.setAddrDir d).uart = s.uart := rfl
@[simp] theorem State.setAddrDir_env (s : State) (d : LineDir) : (s.setAddrDir d).env = s.env := rfl
@[simp] theorem State.setAddrDir_mem (s : State) (d : LineDir) : (s.setAddrDir d).mem = s.mem := rfl
@[simp] theorem State.setAddrDir_freeCount (s : State) (d : LineDir) : (s.setAddrDir d).freeCount = s.freeCount := rfl
@[simp] theorem State.setAddrDir_schedule (s : State) (d : LineDir) : (s.setAddrDir d).schedule = s.schedule := rfl

/-! ### driveAddr -/

@[simp] theorem State.driveAddr_link (s : State) (a : Addr) : (s.driveAddr a).link = s.link := rfl
@[simp] theorem State.driveAddr_blk (s : State) (a : Addr) : (s.driveAddr a).blk = s.blk := rfl
@[simp] theorem State.driveAddr_img (s : State) (a : Addr) : (s.driveAddr a).img = s.img := rfl
@[simp] theorem State.driveAddr_bus (s : State) (a : Addr) : (s.driveAddr a).bus = { s.bus with addrOut := a } := rfl
@[simp] theorem State.driveAddr_bank (s : State) (a : Addr) : (s.driveAddr a).bank = s.bank := rfl
@[simp] theorem State.driveAddr_port1 (s : State) (a : Addr) : (s.driveAddr a).port1 = s.port1 := rfl
@[simp] theorem State.driveAddr_trap (s : State) (a : Addr) : (s.driveAddr a).trap = s.trap := rfl
@[simp] theorem State.driveAddr_fg (s : State) (a : Addr) : (s.driveAddr a).fg = s.fg := rfl
@[simp] theorem State.driveAddr_uart (s : State) (a : Addr) : (s.driveAddr a).uart = s.uart := rfl
@[simp] theorem State.driveAddr_env (s : State) (a : Addr) : (s.driveAddr a).env = s.env := rfl
@[simp] theorem State.driveAddr_mem (s : State) (a : Addr) : (s.driveAddr a).mem = s.mem := rfl
@[simp] theorem State.driveAddr_freeCount (s : State) (a : Addr) : (s.driveAddr a).freeCount = s.freeCount := rfl
@[simp] theorem State.driveAddr_schedule (s : State) (a : Addr) : (s.driveAddr a).schedule = s.schedule := rfl

/-! ### setMemctlDir -/

@[simp] theorem State.setMemctlDir_link (s : State) (d : LineDir) : (s.setMemctlDir d).link = s.link := rfl
@[simp] theorem State.setMemctlDir_blk (s : State) (d : LineDir) : (s.setMemctlDir d).blk = s.blk := rfl
@[simp] theorem State.setMemctlDir_img (s : State) (d : LineDir) : (s.setMemctlDir d).img = s.img := rfl
@[simp] theorem State.setMemctlDir_bus (s : State) (d : LineDir) : (s.setMemctlDir d).bus = { s.bus with memctlDir := d } := rfl
@[simp] theorem State.setMemctlDir_bank (s : State) (d : LineDir) : (s.setMemctlDir d).bank = s.bank := rfl
@[simp] theorem State.setMemctlDir_port1 (s : State) (d : LineDir) : (s.setMemctlDir d).port1 = s.port1 := rfl
@[simp] theorem State.setMemctlDir_trap (s : State) (d : LineDir) : (s.setMemctlDir d).trap = s.trap := rfl
@[simp] theorem State.setMemctlDir_fg (s : State) (d : LineDir) : (s.setMemctlDir d).fg = s.fg := rfl
@[simp] theorem State.setMemctlDir_uart (s : State) (d : LineDir) : (s.setMemctlDir d).uart = s.uart := rfl
@[simp] theorem State.setMemctlDir_env (s : State) (d : LineDir) : (s.setMemctlDir d).env = s.env := rfl
@[simp] theorem State.setMemctlDir_mem (s : State) (d : LineDir) : (s.setMemctlDir d).mem = s.mem := rfl
@[simp] theorem State.setMemctlDir_freeCount (s : State) (d : LineDir) : (s.setMemctlDir d).freeCount = s.freeCount := rfl
@[simp] theorem State.setMemctlDir_schedule (s : State) (d : LineDir) : (s.setMemctlDir d).schedule = s.schedule := rfl

/-! ### strobes -/

@[simp] theorem State.strobes_link (s : State) (ce we oe : Bool) : (s.strobes ce we oe).link = s.link := rfl
@[simp] theorem State.strobes_blk (s : State) (ce we oe : Bool) : (s.strobes ce we oe).blk = s.blk := rfl
@[simp] theorem State.strobes_img (s : State) (ce we oe : Bool) : (s.strobes ce we oe).img = s.img := rfl
@[simp] theorem State.strobes_bus (s : State) (ce we oe : Bool) : (s.strobes ce we oe).bus = { s.bus with memCe := ce, memWe := we, memOe := oe } := rfl
@[simp] theorem State.strobes_bank (s : State) (ce we oe : Bool) : (s.strobes ce we oe).bank = s.bank := rfl
@[simp] theorem State.strobes_port1 (s : State) (ce we oe : Bool) : (s.strobes ce we oe).port1 = s.port1 := rfl
@[simp] theorem State.strobes_trap (s : State) (ce we oe : Bool) : (s.strobes ce we oe).trap = s.trap := rfl
@[simp] theorem State.strobes_fg (s : State) (ce we oe : Bool) : (s.strobes ce we oe).fg = s.fg := rfl
@[simp] theorem State.strobes_uart (s : State) (ce we oe : Bool) : (s.strobes ce we oe).uart = s.uart := rfl
@[simp] theorem State.strobes_env (s : State) (ce we oe : Bool) : (s.strobes ce we oe).env = s.env := rfl
@[simp] theorem State.strobes_mem (s : State) (ce we oe : Bool) : (s.strobes ce we oe).mem = s.mem := rfl
@[simp] theorem State.strobes_freeCount (s : State) (ce we oe : Bool) : (s.strobes ce we oe).freeCount = s.freeCount := rfl
@[simp] theorem State.strobes_schedule (s : State) (ce we oe : Bool) : (s.strobes ce we oe).schedule = s.schedule := rfl

/-! ### latchBank -/

@[simp] theorem State.latchBank_link (s : State) (v : Byte) : (s.latchBank v).link = s.link := rfl
@[simp] theorem State.latchBank_blk (s : State) (v : Byte) : (s.latchBank v).blk = s.blk := rfl
@[simp] theorem State.latchBank_img (s : State) (v : Byte) : (s.latchBank v).img = s.img := rfl
@[simp] theorem State.latchBank_bus (s : State) (v : Byte) : (s.latchBank v).bus = s.bus := rfl
@[simp] theorem State.latchBank_bank (s : State) (v : Byte) : (s.latchBank v).bank = { s.bank with visibleBank := v } := rfl
@[simp] theorem State.latchBank_port1 (s : State) (v : Byte) : (s.latchBank v).port1 = s.port1 := rfl
@[simp] theorem State.latchBank_trap (s : State) (v : Byte) : (s.latchBank v).trap = s.trap := rfl
@[simp] theorem State.latchBank_fg (s : State) (v : Byte) : (s.latchBank v).fg = s.fg := rfl
@[simp] theorem State.latchBank_uart (s : State) (v : Byte) : (s.latchBank v).uart = s.uart := rfl
@[simp] theorem State.latchBank_env (s : State) (v : Byte) : (s.latchBank v).env = s.env := rfl
@[simp] theorem State.latchBank_mem (s : State) (v : Byte) : (s.latchBank v).mem = s.mem := rfl
@[simp] theorem State.latchBank_freeCount (s : State) (v : Byte) : (s.latchBank v).freeCount = s.freeCount := rfl
@[simp] theorem State.latchBank_schedule (s : State) (v : Byte) : (s.latchBank v).schedule = s.schedule := rfl

/-! ### setBankIndex -/

@[simp] theorem State.setBankIndex_link (s : State) (v : Byte) : (s.setBankIndex v).link = s.link := rfl
@[simp] theorem State.setBankIndex_blk (s : State) (v : Byte) : (s.setBankIndex v).blk = s.blk := rfl
@[simp] theorem State.setBankIndex_img (s : State) (v : Byte) : (s.setBankIndex v).img = s.img := rfl
@[simp] theorem State.setBankIndex_bus (s : State) (v : Byte) : (s.setBankIndex v).bus = s.bus := rfl
@[simp] theorem State.setBankIndex_bank (s : State) (v : Byte) : (s.setBankIndex v).bank = { s.bank with bankIndex := v } := rfl
@[simp] theorem State.setBankIndex_port1 (s : State) (v : Byte) : (s.setBankIndex v).port1 = s.port1 := rfl
@[simp] theorem State.setBankIndex_trap (s : State) (v : Byte) : (s.setBankIndex v).trap = s.trap := rfl
@[simp] theorem State.setBankIndex_fg (s : State) (v : Byte) : (s.setBankIndex v).fg = s.fg := rfl
@[simp] theorem State.setBankIndex_uart (s : State) (v : Byte) : (s.setBankIndex v).uart = s.uart := rfl
@[simp] theorem State.setBankIndex_env (s : State) (v : Byte) : (s.setBankIndex v).env = s.env := rfl
@[simp] theorem State.setBankIndex_mem (s : State) (v : Byte) : (s.setBankIndex v).mem = s.mem := rfl
@[simp] theorem State.setBankIndex_freeCount (s : State) (v : Byte) : (s.setBankIndex v).freeCount = s.freeCount := rfl
@[simp] theorem State.setBankIndex_schedule (s : State) (v : Byte) : (s.setBankIndex v).schedule = s.schedule := rfl

/-! ### writeCycle -/

@[simp] theorem State.writeCycle_link (s : State) (a : Addr) (v : Byte) : (s.writeCycle a v).link = s.link := by simp [State.writeCycle]
@[simp] theorem State.writeCycle_blk (s : State) (a : Addr) (v : Byte) : (s.writeCycle a v).blk = s.blk := by simp [State.writeCycle]
@[simp] theorem State.writeCycle_img (s : State) (a : Addr) (v : Byte) : (s.writeCycle a v).img = s.img := by simp [State.writeCycle]
@[simp] theorem State.writeCycle_bus (s : State) (a : Addr) (v : Byte) : (s.writeCycle a v).bus = 
      { s.bus with
        addrOut := a, dataOut := v, addrDir := .inp, dataDir := .inp, memctlDir := .inp, memCe := false, memWe := false,
        memOe := false } := by simp [State.writeCycle]
@[simp] theorem State.writeCycle_bank (s : State) (a : Addr) (v : Byte) : (s.writeCycle a v).bank = s.bank := by simp [State.writeCycle]
@[simp] theorem State.writeCycle_port1 (s : State) (a : Addr) (v : Byte) : (s.writeCycle a v).port1 = s.port1 := by simp [State.writeCycle]
@[simp] theorem State.writeCycle_trap (s : State) (a : Addr) (v : Byte) : (s.writeCycle a v).trap = s.trap := by simp [State.writeCycle]
@[simp] theorem State.writeCycle_fg (s : State) (a : Addr) (v : Byte) : (s.writeCycle a v).fg = s.fg := by simp [State.writeCycle]
@[simp] theorem State.writeCycle_uart (s : State) (a : Addr) (v : Byte) : (s.writeCycle a v).uart = s.uart := by simp [State.writeCycle]
@[simp] theorem State.writeCycle_env (s : State) (a : Addr) (v : Byte) : (s.writeCycle a v).env = s.env := by simp [State.writeCycle]
@[simp] theorem State.writeCycle_mem (s : State) (a : Addr) (v : Byte) : (s.writeCycle a v).mem = memWrite s.mem (s.location a) v := by simp [State.writeCycle, State.location]
@[simp] theorem State.writeCycle_freeCount (s : State) (a : Addr) (v : Byte) : (s.writeCycle a v).freeCount = s.freeCount := by simp [State.writeCycle]
@[simp] theorem State.writeCycle_schedule (s : State) (a : Addr) (v : Byte) : (s.writeCycle a v).schedule = s.schedule := by simp [State.writeCycle]

/-! ### bankCycle -/

@[simp] theorem State.bankCycle_link (s : State) (v : Byte) : (s.bankCycle v).link = s.link := by simp [State.bankCycle]
@[simp] theorem State.bankCycle_blk (s : State) (v : Byte) : (s.bankCycle v).blk = s.blk := by simp [State.bankCycle]
@[simp] theorem State.bankCycle_img (s : State) (v : Byte) : (s.bankCycle v).img = s.img := by simp [State.bankCycle]
@[simp] theorem State.bankCycle_bus (s : State) (v : Byte) : (s.bankCycle v).bus = { s.bus with dataOut := v, dataDir := .inp } := by simp [State.bankCycle]
@[simp] theorem State.bankCycle_bank (s : State) (v : Byte) : (s.bankCycle v).bank = { bankIndex := v, visibleBank := v } := by simp [State.bankCycle, State.sampleData]
@[simp] theorem State.bankCycle_port1 (s : State) (v : Byte) : (s.bankCycle v).port1 = s.port1 := by simp [State.bankCycle]
@[simp] theorem State.bankCycle_trap (s : State) (v : Byte) : (s.bankCycle v).trap = s.trap := by simp [State.bankCycle]
@[simp] theorem State.bankCycle_fg (s : State) (v : Byte) : (s.bankCycle v).fg = s.fg := by simp [State.bankCycle]
@[simp] theorem State.bankCycle_uart (s : State) (v : Byte) : (s.bankCycle v).uart = s.uart := by simp [State.bankCycle]
@[simp] theorem State.bankCycle_env (s : State) (v : Byte) : (s.bankCycle v).env = s.env := by simp [State.bankCycle]
@[simp] theorem State.bankCycle_mem (s : State) (v : Byte) : (s.bankCycle v).mem = s.mem := by simp [State.bankCycle]
@[simp] theorem State.bankCycle_freeCount (s : State) (v : Byte) : (s.bankCycle v).freeCount = s.freeCount := by simp [State.bankCycle]
@[simp] theorem State.bankCycle_schedule (s : State) (v : Byte) : (s.bankCycle v).schedule = s.schedule := by simp [State.bankCycle]

/-! ### setBusreq -/

@[simp] theorem State.setBusreq_link (s : State) (b : Bool) : (s.setBusreq b).link = s.link := rfl
@[simp] theorem State.setBusreq_blk (s : State) (b : Bool) : (s.setBusreq b).blk = s.blk := rfl
@[simp] theorem State.setBusreq_img (s : State) (b : Bool) : (s.setBusreq b).img = s.img := rfl
@[simp] theorem State.setBusreq_bus (s : State) (b : Bool) : (s.setBusreq b).bus = { s.bus with busreq := b } := rfl
@[simp] theorem State.setBusreq_bank (s : State) (b : Bool) : (s.setBusreq b).bank = s.bank := rfl
@[simp] theorem State.setBusreq_port1 (s : State) (b : Bool) : (s.setBusreq b).port1 = s.port1 := rfl
@[simp] theorem State.setBusreq_trap (s : State) (b : Bool) : (s.setBusreq b).trap = s.trap := rfl
@[simp] theorem State.setBusreq_fg (s : State) (b : Bool) : (s.setBusreq b).fg = s.fg := rfl
@[simp] theorem State.setBusreq_uart (s : State) (b : Bool) : (s.setBusreq b).uart = s.uart := rfl
@[simp] theorem State.setBusreq_env (s : State) (b : Bool) : (s.setBusreq b).env = s.env := rfl
@[simp] theorem State.setBusreq_mem (s : State) (b : Bool) : (s.setBusreq b).mem = s.mem := rfl
@[simp] theorem State.setBusreq_freeCount (s : State) (b : Bool) : (s.setBusreq b).freeCount = s.freeCount := rfl
@[simp] theorem State.setBusreq_schedule (s : State) (b : Bool) : (s.setBusreq b).schedule = s.schedule := rfl

/-! ### setClock -/

@[simp] theorem State.setClock_link (s : State) (b : Bool) : (s.setClock b).link = s.link := rfl
@[simp] theorem State.setClock_blk (s : State) (b : Bool) : (s.setClock b).blk = s.blk := rfl
@[simp] theorem State.setClock_img (s : State) (b : Bool) : (s.setClock b).img = s.img := rfl
@[simp] theorem State.setClock_bus (s : State) (b : Bool) : (s.setClock b).bus = { s.bus with tgtClkRun := b } := rfl
@[simp] theorem State.setClock_bank (s : State) (b : Bool) : (s.setClock b).bank = s.bank := rfl
@[simp] theorem State.setClock_port1 (s : State) (b : Bool) : (s.setClock b).port1 = s.port1 := rfl
@[simp] theorem State.setClock_trap (s : State) (b : Bool) : (s.setClock b).trap = s.trap := rfl
@[simp] theorem State.setClock_fg (s : State) (b : Bool) : (s.setClock b).fg = s.fg := rfl
@[simp] theorem State.setClock_uart (s : State) (b : Bool) : (s.setClock b).uart = s.uart := rfl
@[simp] theorem State.setClock_env (s : State) (b : Bool) : (s.setClock b).env = s.env := rfl
@[simp] theorem State.setClock_mem (s : State) (b : Bool) : (s.setClock b).mem = s.mem := rfl
@[simp] theorem State.setClock_freeCount (s : State) (b : Bool) : (s.setClock b).freeCount = s.freeCount := rfl
@[simp] theorem State.setClock_schedule (s : State) (b : Bool) : (s.setClock b).schedule = s.schedule := rfl

/-! ### holdTarget -/

@[simp] theorem State.holdTarget_link (s : State) : (s.holdTarget).link = s.link := rfl
@[simp] theorem State.holdTarget_blk (s : State) : (s.holdTarget).blk = s.blk := rfl
@[simp] theorem State.holdTarget_img (s : State) : (s.holdTarget).img = s.img := rfl
@[simp] theorem State.holdTarget_bus (s : State) : (s.holdTarget).bus = { s.bus with tgtReset := true, busack := false } := rfl
@[simp] theorem State.holdTarget_bank (s : State) : (s.holdTarget).bank = s.bank := rfl
@[simp] theorem State.holdTarget_port1 (s : State) : (s.holdTarget).port1 = s.port1 := rfl
@[simp] theorem State.holdTarget_trap (s : State) : (s.holdTarget).trap = { s.trap with pending := false } := rfl
@[simp] theorem State.holdTarget_fg (s : State) : (s.holdTarget).fg = s.fg := rfl
@[simp] theorem State.holdTarget_uart (s : State) : (s.holdTarget).uart = s.uart := rfl
@[simp] theorem State.holdTarget_env (s : State) : (s.holdTarget).env = { s.env with iotrap := false, cycle := none, fresh := true } := rfl
@[simp] theorem State.holdTarget_mem (s : State) : (s.holdTarget).mem = s.mem := rfl
@[simp] theorem State.holdTarget_freeCount (s : State) : (s.holdTarget).freeCount = s.freeCount := rfl
@[simp] theorem State.holdTarget_schedule (s : State) : (s.holdTarget).schedule = s.schedule := rfl

/-! ### freeTarget -/

@[simp] theorem State.freeTarget_link (s : State) : (s.freeTarget).link = s.link := rfl
@[simp] theorem State.freeTarget_blk (s : State) : (s.freeTarget).blk = s.blk := rfl
@[simp] theorem State.freeTarget_img (s : State) : (s.freeTarget).img = s.img := rfl
@[simp] theorem State.freeTarget_bus (s : State) : (s.freeTarget).bus = { s.bus with tgtReset := false } := rfl
@[simp] theorem State.freeTarget_bank (s : State) : (s.freeTarget).bank = s.bank := rfl
@[simp] theorem State.freeTarget_port1 (s : State) : (s.freeTarget).port1 = s.port1 := rfl
@[simp] theorem State.freeTarget_trap (s : State) : (s.freeTarget).trap = s.trap := rfl
@[simp] theorem State.freeTarget_fg (s : State) : (s.freeTarget).fg = s.fg := rfl
@[simp] theorem State.freeTarget_uart (s : State) : (s.freeTarget).uart = s.uart := rfl
@[simp] theorem State.freeTarget_env (s : State) : (s.freeTarget).env = s.env := rfl
@[simp] theorem State.freeTarget_mem (s : State) : (s.freeTarget).mem = s.mem := rfl
@[simp] theorem State.freeTarget_freeCount (s : State) : (s.freeTarget).freeCount = s.freeCount := rfl
@[simp] theorem State.freeTarget_schedule (s : State) : (s.freeTarget).schedule = s.schedule := rfl

/-! ### setTrapEnable -/

@[simp] theorem State.setTrapEnable_link (s : State) (b : Bool) : (s.setTrapEnable b).link = s.link := rfl
@[simp] theorem State.setTrapEnable_blk (s : State) (b : Bool) : (s.setTrapEnable b).blk = s.blk := rfl
@[simp] theorem State.setTrapEnable_img (s : State) (b : Bool) : (s.setTrapEnable b).img = s.img := rfl
@[simp] theorem State.setTrapEnable_bus (s : State) (b : Bool) : (s.setTrapEnable b).bus = s.bus := rfl
@[simp] theorem State.setTrapEnable_bank (s : State) (b : Bool) : (s.setTrapEnable b).bank = s.bank := rfl
@[simp] theorem State.setTrapEnable_port1 (s : State) (b : Bool) : (s.setTrapEnable b).port1 = s.port1 := rfl
@[simp] theorem State.setTrapEnable_trap (s : State) (b : Bool) : (s.setTrapEnable b).trap = { s.trap with enable := b } := rfl
@[simp] theorem State.setTrapEnable_fg (s : State) (b : Bool) : (s.setTrapEnable b).fg = s.fg := rfl
@[simp] theorem State.setTrapEnable_uart (s : State) (b : Bool) : (s.setTrapEnable b).uart = s.uart := rfl
@[simp] theorem State.setTrapEnable_env (s : State) (b : Bool) : (s.setTrapEnable b).env = s.env := rfl
@[simp] theorem State.setTrapEnable_mem (s : State) (b : Bool) : (s.setTrapEnable b).mem = s.mem := rfl
@[simp] theorem State.setTrapEnable_freeCount (s : State) (b : Bool) : (s.setTrapEnable b).freeCount = s.freeCount := rfl
@[simp] theorem State.setTrapEnable_schedule (s : State) (b : Bool) : (s.setTrapEnable b).schedule = s.schedule := rfl

/-! ### setTimer -/

@[simp] theorem State.setTimer_link (s : State) (t : Timer) : (s.setTimer t).link = { s.link with timer := t } := rfl
@[simp] theorem State.setTimer_blk (s : State) (t : Timer) : (s.setTimer t).blk = s.blk := rfl
@[simp] theorem State.setTimer_img (s : State) (t : Timer) : (s.setTimer t).img = s.img := rfl
@[simp] theorem State.setTimer_bus (s : State) (t : Timer) : (s.setTimer t).bus = s.bus := rfl
@[simp] theorem State.setTimer_bank (s : State) (t : Timer) : (s.setTimer t).bank = s.bank := rfl
@[simp] theorem State.setTimer_port1 (s : State) (t : Timer) : (s.setTimer t).port1 = s.port1 := rfl
@[simp] theorem State.setTimer_trap (s : State) (t : Timer) : (s.setTimer t).trap = s.trap := rfl
@[simp] theorem State.setTimer_fg (s : State) (t : Timer) : (s.setTimer t).fg = s.fg := rfl
@[simp] theorem State.setTimer_uart (s : State) (t : Timer) : (s.setTimer t).uart = s.uart := rfl
@[simp] theorem State.setTimer_env (s : State) (t : Timer) : (s.setTimer t).env = s.env := rfl
@[simp] theorem State.setTimer_mem (s : State) (t : Timer) : (s.setTimer t).mem = s.mem := rfl
@[simp] theorem State.setTimer_freeCount (s : State) (t : Timer) : (s.setTimer t).freeCount = s.freeCount := rfl
@[simp] theorem State.setTimer_schedule (s : State) (t : Timer) : (s.setTimer t).schedule = s.schedule := rfl

/-! ### armTimeout -/

@[simp] theorem State.armTimeout_link (s : State) (n : Nat) : (s.armTimeout n).link = s.link := rfl
@[simp] theorem State.armTimeout_blk (s : State) (n : Nat) : (s.armTimeout n).blk = s.blk := rfl
@[simp] theorem State.armTimeout_img (s : State) (n : Nat) : (s.armTimeout n).img = s.img := rfl
@[simp] theorem State.armTimeout_bus (s : State) (n : Nat) : (s.armTimeout n).bus = s.bus := rfl
@[simp] theorem State.armTimeout_bank (s : State) (n : Nat) : (s.armTimeout n).bank = s.bank := rfl
@[simp] theorem State.armTimeout_port1 (s : State) (n : Nat) : (s.armTimeout n).port1 = s.port1 := rfl
@[simp] theorem State.armTimeout_trap (s : State) (n : Nat) : (s.armTimeout n).trap = s.trap := rfl
@[simp] theorem State.armTimeout_fg (s : State) (n : Nat) : (s.armTimeout n).fg = 
      { s.fg with pc := .micro (.armClamp (n * Config.ticksPerByte)) :: s.fg.pc } := rfl
@[simp] theorem State.armTimeout_uart (s : State) (n : Nat) : (s.armTimeout n).uart = s.uart := rfl
@[simp] theorem State.armTimeout_env (s : State) (n : Nat) : (s.armTimeout n).env = s.env := rfl
@[simp] theorem State.armTimeout_mem (s : State) (n : Nat) : (s.armTimeout n).mem = s.mem := rfl
@[simp] theorem State.armTimeout_freeCount (s : State) (n : Nat) : (s.armTimeout n).freeCount = s.freeCount := rfl
@[simp] theorem State.armTimeout_schedule (s : State) (n : Nat) : (s.armTimeout n).schedule = s.schedule := rfl

/-! ### receiveBlock -/

@[simp] theorem State.receiveBlock_link (s : State) (m : Byte) : (s.receiveBlock m).link = s.link := rfl
@[simp] theorem State.receiveBlock_blk (s : State) (m : Byte) : (s.receiveBlock m).blk = s.blk := rfl
@[simp] theorem State.receiveBlock_img (s : State) (m : Byte) : (s.receiveBlock m).img = s.img := rfl
@[simp] theorem State.receiveBlock_bus (s : State) (m : Byte) : (s.receiveBlock m).bus = s.bus := rfl
@[simp] theorem State.receiveBlock_bank (s : State) (m : Byte) : (s.receiveBlock m).bank = s.bank := rfl
@[simp] theorem State.receiveBlock_port1 (s : State) (m : Byte) : (s.receiveBlock m).port1 = s.port1 := rfl
@[simp] theorem State.receiveBlock_trap (s : State) (m : Byte) : (s.receiveBlock m).trap = s.trap := rfl
@[simp] theorem State.receiveBlock_fg (s : State) (m : Byte) : (s.receiveBlock m).fg = 
      { s.fg with
        pc := .micro (.armClamp (1 * Config.ticksPerByte)) :: .micro (.recvInto .blkLb) :: .op .validate ::
          .micro (.blockChecked m) :: s.fg.pc } := rfl
@[simp] theorem State.receiveBlock_uart (s : State) (m : Byte) : (s.receiveBlock m).uart = s.uart := rfl
@[simp] theorem State.receiveBlock_env (s : State) (m : Byte) : (s.receiveBlock m).env = s.env := rfl
@[simp] theorem State.receiveBlock_mem (s : State) (m : Byte) : (s.receiveBlock m).mem = s.mem := rfl
@[simp] theorem State.receiveBlock_freeCount (s : State) (m : Byte) : (s.receiveBlock m).freeCount = s.freeCount := rfl
@[simp] theorem State.receiveBlock_schedule (s : State) (m : Byte) : (s.receiveBlock m).schedule = s.schedule := rfl

/-! ### flushInput -/

@[simp] theorem State.flushInput_link (s : State) : (s.flushInput).link = s.link := rfl
@[simp] theorem State.flushInput_blk (s : State) : (s.flushInput).blk = s.blk := rfl
@[simp] theorem State.flushInput_img (s : State) : (s.flushInput).img = s.img := rfl
@[simp] theorem State.flushInput_bus (s : State) : (s.flushInput).bus = s.bus := rfl
@[simp] theorem State.flushInput_bank (s : State) : (s.flushInput).bank = s.bank := rfl
@[simp] theorem State.flushInput_port1 (s : State) : (s.flushInput).port1 = s.port1 := rfl
@[simp] theorem State.flushInput_trap (s : State) : (s.flushInput).trap = s.trap := rfl
@[simp] theorem State.flushInput_fg (s : State) : (s.flushInput).fg = s.fg := rfl
@[simp] theorem State.flushInput_uart (s : State) : (s.flushInput).uart = { s.uart with rxFifo := [], rxLost := false } := rfl
@[simp] theorem State.flushInput_env (s : State) : (s.flushInput).env = s.env := rfl
@[simp] theorem State.flushInput_mem (s : State) : (s.flushInput).mem = s.mem := rfl
@[simp] theorem State.flushInput_freeCount (s : State) : (s.flushInput).freeCount = s.freeCount := rfl
@[simp] theorem State.flushInput_schedule (s : State) : (s.flushInput).schedule = s.schedule := rfl

/-! ### acquireBus -/

@[simp] theorem State.acquireBus_link (s : State) : (s.acquireBus).link = s.link := rfl
@[simp] theorem State.acquireBus_blk (s : State) : (s.acquireBus).blk = s.blk := rfl
@[simp] theorem State.acquireBus_img (s : State) : (s.acquireBus).img = s.img := rfl
@[simp] theorem State.acquireBus_bus (s : State) : (s.acquireBus).bus = { s.bus with busreq := true } := rfl
@[simp] theorem State.acquireBus_bank (s : State) : (s.acquireBus).bank = s.bank := rfl
@[simp] theorem State.acquireBus_port1 (s : State) : (s.acquireBus).port1 = s.port1 := rfl
@[simp] theorem State.acquireBus_trap (s : State) : (s.acquireBus).trap = s.trap := rfl
@[simp] theorem State.acquireBus_fg (s : State) : (s.acquireBus).fg = { s.fg with pc := .micro .awaitGrant :: s.fg.pc } := rfl
@[simp] theorem State.acquireBus_uart (s : State) : (s.acquireBus).uart = s.uart := rfl
@[simp] theorem State.acquireBus_env (s : State) : (s.acquireBus).env = s.env := rfl
@[simp] theorem State.acquireBus_mem (s : State) : (s.acquireBus).mem = s.mem := rfl
@[simp] theorem State.acquireBus_freeCount (s : State) : (s.acquireBus).freeCount = s.freeCount := rfl
@[simp] theorem State.acquireBus_schedule (s : State) : (s.acquireBus).schedule = s.schedule := rfl

/-! ### injectImage -/

@[simp] theorem State.injectImage_link (s : State) (a : Addr) (bs : List Byte) (k : Bool) : (s.injectImage a bs k).link = s.link := rfl
@[simp] theorem State.injectImage_blk (s : State) (a : Addr) (bs : List Byte) (k : Bool) : (s.injectImage a bs k).blk = s.blk := rfl
@[simp] theorem State.injectImage_img (s : State) (a : Addr) (bs : List Byte) (k : Bool) : (s.injectImage a bs k).img = s.img := rfl
@[simp] theorem State.injectImage_bus (s : State) (a : Addr) (bs : List Byte) (k : Bool) : (s.injectImage a bs k).bus = { s.bus with busreq := true } := rfl
@[simp] theorem State.injectImage_bank (s : State) (a : Addr) (bs : List Byte) (k : Bool) : (s.injectImage a bs k).bank = s.bank := rfl
@[simp] theorem State.injectImage_port1 (s : State) (a : Addr) (bs : List Byte) (k : Bool) : (s.injectImage a bs k).port1 = s.port1 := rfl
@[simp] theorem State.injectImage_trap (s : State) (a : Addr) (bs : List Byte) (k : Bool) : (s.injectImage a bs k).trap = s.trap := rfl
@[simp] theorem State.injectImage_fg (s : State) (a : Addr) (bs : List Byte) (k : Bool) : (s.injectImage a bs k).fg = 
      { s.fg with
        pc := .micro .awaitGrant :: .op (.inject .raw a bs) :: .micro (.injectRelease k) :: s.fg.pc } := rfl
@[simp] theorem State.injectImage_uart (s : State) (a : Addr) (bs : List Byte) (k : Bool) : (s.injectImage a bs k).uart = s.uart := rfl
@[simp] theorem State.injectImage_env (s : State) (a : Addr) (bs : List Byte) (k : Bool) : (s.injectImage a bs k).env = s.env := rfl
@[simp] theorem State.injectImage_mem (s : State) (a : Addr) (bs : List Byte) (k : Bool) : (s.injectImage a bs k).mem = s.mem := rfl
@[simp] theorem State.injectImage_freeCount (s : State) (a : Addr) (bs : List Byte) (k : Bool) : (s.injectImage a bs k).freeCount = s.freeCount := rfl
@[simp] theorem State.injectImage_schedule (s : State) (a : Addr) (bs : List Byte) (k : Bool) : (s.injectImage a bs k).schedule = s.schedule := rfl

/-! ### readRegion -/

@[simp] theorem State.readRegion_link (s : State) (n : Nat) : (s.readRegion n).link = s.link := rfl
@[simp] theorem State.readRegion_blk (s : State) (n : Nat) : (s.readRegion n).blk = s.blk := rfl
@[simp] theorem State.readRegion_img (s : State) (n : Nat) : (s.readRegion n).img = s.img := rfl
@[simp] theorem State.readRegion_bus (s : State) (n : Nat) : (s.readRegion n).bus = { s.bus with busreq := true } := rfl
@[simp] theorem State.readRegion_bank (s : State) (n : Nat) : (s.readRegion n).bank = s.bank := rfl
@[simp] theorem State.readRegion_port1 (s : State) (n : Nat) : (s.readRegion n).port1 = s.port1 := rfl
@[simp] theorem State.readRegion_trap (s : State) (n : Nat) : (s.readRegion n).trap = s.trap := rfl
@[simp] theorem State.readRegion_fg (s : State) (n : Nat) : (s.readRegion n).fg = 
      { s.fg with pc := .micro .awaitGrant :: .micro (.readRegion 0 n) :: .op .releaseBus :: s.fg.pc } := rfl
@[simp] theorem State.readRegion_uart (s : State) (n : Nat) : (s.readRegion n).uart = s.uart := rfl
@[simp] theorem State.readRegion_env (s : State) (n : Nat) : (s.readRegion n).env = s.env := rfl
@[simp] theorem State.readRegion_mem (s : State) (n : Nat) : (s.readRegion n).mem = s.mem := rfl
@[simp] theorem State.readRegion_freeCount (s : State) (n : Nat) : (s.readRegion n).freeCount = s.freeCount := rfl
@[simp] theorem State.readRegion_schedule (s : State) (n : Nat) : (s.readRegion n).schedule = s.schedule := rfl

/-! ### enterTrap -/

@[simp] theorem State.enterTrap_link (s : State) : (s.enterTrap).link = s.link := rfl
@[simp] theorem State.enterTrap_blk (s : State) : (s.enterTrap).blk = s.blk := rfl
@[simp] theorem State.enterTrap_img (s : State) : (s.enterTrap).img = s.img := rfl
@[simp] theorem State.enterTrap_bus (s : State) : (s.enterTrap).bus = s.bus := rfl
@[simp] theorem State.enterTrap_bank (s : State) : (s.enterTrap).bank = s.bank := rfl
@[simp] theorem State.enterTrap_port1 (s : State) : (s.enterTrap).port1 = s.port1 := rfl
@[simp] theorem State.enterTrap_trap (s : State) : (s.enterTrap).trap = 
      { s.trap with
        inTrap := true, ioPort := s.env.pa, ioDir := s.env.rw, ioData := s.sampleData, pos := .dispatchPort } := rfl
@[simp] theorem State.enterTrap_fg (s : State) : (s.enterTrap).fg = s.fg := rfl
@[simp] theorem State.enterTrap_uart (s : State) : (s.enterTrap).uart = s.uart := rfl
@[simp] theorem State.enterTrap_env (s : State) : (s.enterTrap).env = s.env := rfl
@[simp] theorem State.enterTrap_mem (s : State) : (s.enterTrap).mem = s.mem := rfl
@[simp] theorem State.enterTrap_freeCount (s : State) : (s.enterTrap).freeCount = s.freeCount := rfl
@[simp] theorem State.enterTrap_schedule (s : State) : (s.enterTrap).schedule = s.schedule := rfl

/-! ### leaveTrap -/

@[simp] theorem State.leaveTrap_link (s : State) : (s.leaveTrap).link = s.link := rfl
@[simp] theorem State.leaveTrap_blk (s : State) : (s.leaveTrap).blk = s.blk := rfl
@[simp] theorem State.leaveTrap_img (s : State) : (s.leaveTrap).img = s.img := rfl
@[simp] theorem State.leaveTrap_bus (s : State) : (s.leaveTrap).bus = s.bus := rfl
@[simp] theorem State.leaveTrap_bank (s : State) : (s.leaveTrap).bank = s.bank := rfl
@[simp] theorem State.leaveTrap_port1 (s : State) : (s.leaveTrap).port1 = s.port1 := rfl
@[simp] theorem State.leaveTrap_trap (s : State) : (s.leaveTrap).trap = { s.trap with inTrap := false } := rfl
@[simp] theorem State.leaveTrap_fg (s : State) : (s.leaveTrap).fg = s.fg := rfl
@[simp] theorem State.leaveTrap_uart (s : State) : (s.leaveTrap).uart = s.uart := rfl
@[simp] theorem State.leaveTrap_env (s : State) : (s.leaveTrap).env = s.env := rfl
@[simp] theorem State.leaveTrap_mem (s : State) : (s.leaveTrap).mem = s.mem := rfl
@[simp] theorem State.leaveTrap_freeCount (s : State) : (s.leaveTrap).freeCount = s.freeCount := rfl
@[simp] theorem State.leaveTrap_schedule (s : State) : (s.leaveTrap).schedule = s.schedule := rfl

/-! ### setTrapPos -/

@[simp] theorem State.setTrapPos_link (s : State) (p : TrapPos) : (s.setTrapPos p).link = s.link := rfl
@[simp] theorem State.setTrapPos_blk (s : State) (p : TrapPos) : (s.setTrapPos p).blk = s.blk := rfl
@[simp] theorem State.setTrapPos_img (s : State) (p : TrapPos) : (s.setTrapPos p).img = s.img := rfl
@[simp] theorem State.setTrapPos_bus (s : State) (p : TrapPos) : (s.setTrapPos p).bus = s.bus := rfl
@[simp] theorem State.setTrapPos_bank (s : State) (p : TrapPos) : (s.setTrapPos p).bank = s.bank := rfl
@[simp] theorem State.setTrapPos_port1 (s : State) (p : TrapPos) : (s.setTrapPos p).port1 = s.port1 := rfl
@[simp] theorem State.setTrapPos_trap (s : State) (p : TrapPos) : (s.setTrapPos p).trap = { s.trap with pos := p } := rfl
@[simp] theorem State.setTrapPos_fg (s : State) (p : TrapPos) : (s.setTrapPos p).fg = s.fg := rfl
@[simp] theorem State.setTrapPos_uart (s : State) (p : TrapPos) : (s.setTrapPos p).uart = s.uart := rfl
@[simp] theorem State.setTrapPos_env (s : State) (p : TrapPos) : (s.setTrapPos p).env = s.env := rfl
@[simp] theorem State.setTrapPos_mem (s : State) (p : TrapPos) : (s.setTrapPos p).mem = s.mem := rfl
@[simp] theorem State.setTrapPos_freeCount (s : State) (p : TrapPos) : (s.setTrapPos p).freeCount = s.freeCount := rfl
@[simp] theorem State.setTrapPos_schedule (s : State) (p : TrapPos) : (s.setTrapPos p).schedule = s.schedule := rfl

/-! ### pulseWaitAck -/

@[simp] theorem State.pulseWaitAck_link (s : State) : (s.pulseWaitAck).link = s.link := rfl
@[simp] theorem State.pulseWaitAck_blk (s : State) : (s.pulseWaitAck).blk = s.blk := rfl
@[simp] theorem State.pulseWaitAck_img (s : State) : (s.pulseWaitAck).img = s.img := rfl
@[simp] theorem State.pulseWaitAck_bus (s : State) : (s.pulseWaitAck).bus = s.bus := rfl
@[simp] theorem State.pulseWaitAck_bank (s : State) : (s.pulseWaitAck).bank = s.bank := rfl
@[simp] theorem State.pulseWaitAck_port1 (s : State) : (s.pulseWaitAck).port1 = s.port1 := rfl
@[simp] theorem State.pulseWaitAck_trap (s : State) : (s.pulseWaitAck).trap = { s.trap with pending := false } := rfl
@[simp] theorem State.pulseWaitAck_fg (s : State) : (s.pulseWaitAck).fg = s.fg := rfl
@[simp] theorem State.pulseWaitAck_uart (s : State) : (s.pulseWaitAck).uart = s.uart := rfl
@[simp] theorem State.pulseWaitAck_env (s : State) : (s.pulseWaitAck).env = 
      { s.env with
        iotrap := false, tgtData := (match s.trap.ioDir with | .read => s.sampleData | .write => s.env.tgtData) } := rfl
@[simp] theorem State.pulseWaitAck_mem (s : State) : (s.pulseWaitAck).mem = s.mem := rfl
@[simp] theorem State.pulseWaitAck_freeCount (s : State) : (s.pulseWaitAck).freeCount = s.freeCount := rfl
@[simp] theorem State.pulseWaitAck_schedule (s : State) : (s.pulseWaitAck).schedule = s.schedule := rfl

/-! ### startIoCycle -/

@[simp] theorem State.startIoCycle_link (s : State) (p : Port) (d : IoDir) (v : Byte) : (s.startIoCycle p d v).link = s.link := rfl
@[simp] theorem State.startIoCycle_blk (s : State) (p : Port) (d : IoDir) (v : Byte) : (s.startIoCycle p d v).blk = s.blk := rfl
@[simp] theorem State.startIoCycle_img (s : State) (p : Port) (d : IoDir) (v : Byte) : (s.startIoCycle p d v).img = s.img := rfl
@[simp] theorem State.startIoCycle_bus (s : State) (p : Port) (d : IoDir) (v : Byte) : (s.startIoCycle p d v).bus = s.bus := rfl
@[simp] theorem State.startIoCycle_bank (s : State) (p : Port) (d : IoDir) (v : Byte) : (s.startIoCycle p d v).bank = s.bank := rfl
@[simp] theorem State.startIoCycle_port1 (s : State) (p : Port) (d : IoDir) (v : Byte) : (s.startIoCycle p d v).port1 = s.port1 := rfl
@[simp] theorem State.startIoCycle_trap (s : State) (p : Port) (d : IoDir) (v : Byte) : (s.startIoCycle p d v).trap = { s.trap with pending := true } := rfl
@[simp] theorem State.startIoCycle_fg (s : State) (p : Port) (d : IoDir) (v : Byte) : (s.startIoCycle p d v).fg = s.fg := rfl
@[simp] theorem State.startIoCycle_uart (s : State) (p : Port) (d : IoDir) (v : Byte) : (s.startIoCycle p d v).uart = s.uart := rfl
@[simp] theorem State.startIoCycle_env (s : State) (p : Port) (d : IoDir) (v : Byte) : (s.startIoCycle p d v).env = { s.env with pa := p, rw := d, dataIn := v, iotrap := true } := rfl
@[simp] theorem State.startIoCycle_mem (s : State) (p : Port) (d : IoDir) (v : Byte) : (s.startIoCycle p d v).mem = s.mem := rfl
@[simp] theorem State.startIoCycle_freeCount (s : State) (p : Port) (d : IoDir) (v : Byte) : (s.startIoCycle p d v).freeCount = s.freeCount := rfl
@[simp] theorem State.startIoCycle_schedule (s : State) (p : Port) (d : IoDir) (v : Byte) : (s.startIoCycle p d v).schedule = s.schedule := rfl

/-! ### setBuf -/

@[simp] theorem State.setBuf_link (s : State) (i v : Byte) : (s.setBuf i v).link = s.link := rfl
@[simp] theorem State.setBuf_blk (s : State) (i v : Byte) : (s.setBuf i v).blk = { s.blk with buf := s.blk.buf.set i.toNat v i.isLt } := rfl
@[simp] theorem State.setBuf_img (s : State) (i v : Byte) : (s.setBuf i v).img = s.img := rfl
@[simp] theorem State.setBuf_bus (s : State) (i v : Byte) : (s.setBuf i v).bus = s.bus := rfl
@[simp] theorem State.setBuf_bank (s : State) (i v : Byte) : (s.setBuf i v).bank = s.bank := rfl
@[simp] theorem State.setBuf_port1 (s : State) (i v : Byte) : (s.setBuf i v).port1 = s.port1 := rfl
@[simp] theorem State.setBuf_trap (s : State) (i v : Byte) : (s.setBuf i v).trap = s.trap := rfl
@[simp] theorem State.setBuf_fg (s : State) (i v : Byte) : (s.setBuf i v).fg = s.fg := rfl
@[simp] theorem State.setBuf_uart (s : State) (i v : Byte) : (s.setBuf i v).uart = s.uart := rfl
@[simp] theorem State.setBuf_env (s : State) (i v : Byte) : (s.setBuf i v).env = s.env := rfl
@[simp] theorem State.setBuf_mem (s : State) (i v : Byte) : (s.setBuf i v).mem = s.mem := rfl
@[simp] theorem State.setBuf_freeCount (s : State) (i v : Byte) : (s.setBuf i v).freeCount = s.freeCount := rfl
@[simp] theorem State.setBuf_schedule (s : State) (i v : Byte) : (s.setBuf i v).schedule = s.schedule := rfl

/-! ### storeFrame -/

@[simp] theorem State.storeFrame_link (s : State) (lb : Byte) (p : List Byte) (ck : Byte) : (s.storeFrame lb p ck).link = s.link := by simp only [State.storeFrame]
@[simp] theorem State.storeFrame_blk (s : State) (lb : Byte) (p : List Byte) (ck : Byte) : (s.storeFrame lb p ck).blk = { s.blk with lb := lb, buf := bufStore s.blk.buf p, ck := ck } := by simp only [State.storeFrame]
@[simp] theorem State.storeFrame_img (s : State) (lb : Byte) (p : List Byte) (ck : Byte) : (s.storeFrame lb p ck).img = s.img := by simp only [State.storeFrame]
@[simp] theorem State.storeFrame_bus (s : State) (lb : Byte) (p : List Byte) (ck : Byte) : (s.storeFrame lb p ck).bus = s.bus := by simp only [State.storeFrame]
@[simp] theorem State.storeFrame_bank (s : State) (lb : Byte) (p : List Byte) (ck : Byte) : (s.storeFrame lb p ck).bank = s.bank := by simp only [State.storeFrame]
@[simp] theorem State.storeFrame_port1 (s : State) (lb : Byte) (p : List Byte) (ck : Byte) : (s.storeFrame lb p ck).port1 = s.port1 := by simp only [State.storeFrame]
@[simp] theorem State.storeFrame_trap (s : State) (lb : Byte) (p : List Byte) (ck : Byte) : (s.storeFrame lb p ck).trap = s.trap := by simp only [State.storeFrame]
@[simp] theorem State.storeFrame_fg (s : State) (lb : Byte) (p : List Byte) (ck : Byte) : (s.storeFrame lb p ck).fg = s.fg := by simp only [State.storeFrame]
@[simp] theorem State.storeFrame_uart (s : State) (lb : Byte) (p : List Byte) (ck : Byte) : (s.storeFrame lb p ck).uart = s.uart := by simp only [State.storeFrame]
@[simp] theorem State.storeFrame_env (s : State) (lb : Byte) (p : List Byte) (ck : Byte) : (s.storeFrame lb p ck).env = s.env := by simp only [State.storeFrame]
@[simp] theorem State.storeFrame_mem (s : State) (lb : Byte) (p : List Byte) (ck : Byte) : (s.storeFrame lb p ck).mem = s.mem := by simp only [State.storeFrame]
@[simp] theorem State.storeFrame_freeCount (s : State) (lb : Byte) (p : List Byte) (ck : Byte) : (s.storeFrame lb p ck).freeCount = s.freeCount := by simp only [State.storeFrame]
@[simp] theorem State.storeFrame_schedule (s : State) (lb : Byte) (p : List Byte) (ck : Byte) : (s.storeFrame lb p ck).schedule = s.schedule := by simp only [State.storeFrame]

/-! ### setSize -/

@[simp] theorem State.setSize_link (s : State) (hi lo : Byte) : (s.setSize hi lo).link = s.link := rfl
@[simp] theorem State.setSize_blk (s : State) (hi lo : Byte) : (s.setSize hi lo).blk = s.blk := rfl
@[simp] theorem State.setSize_img (s : State) (hi lo : Byte) : (s.setSize hi lo).img = 
      { s.img with
        totalSize := sizeOf hi lo, remainingSize := sizeOf hi lo, blockCount := blockCountOf (sizeOf hi lo),
        nextAddr := Config.loadBase } := rfl
@[simp] theorem State.setSize_bus (s : State) (hi lo : Byte) : (s.setSize hi lo).bus = s.bus := rfl
@[simp] theorem State.setSize_bank (s : State) (hi lo : Byte) : (s.setSize hi lo).bank = s.bank := rfl
@[simp] theorem State.setSize_port1 (s : State) (hi lo : Byte) : (s.setSize hi lo).port1 = s.port1 := rfl
@[simp] theorem State.setSize_trap (s : State) (hi lo : Byte) : (s.setSize hi lo).trap = s.trap := rfl
@[simp] theorem State.setSize_fg (s : State) (hi lo : Byte) : (s.setSize hi lo).fg = s.fg := rfl
@[simp] theorem State.setSize_uart (s : State) (hi lo : Byte) : (s.setSize hi lo).uart = s.uart := rfl
@[simp] theorem State.setSize_env (s : State) (hi lo : Byte) : (s.setSize hi lo).env = s.env := rfl
@[simp] theorem State.setSize_mem (s : State) (hi lo : Byte) : (s.setSize hi lo).mem = s.mem := rfl
@[simp] theorem State.setSize_freeCount (s : State) (hi lo : Byte) : (s.setSize hi lo).freeCount = s.freeCount := rfl
@[simp] theorem State.setSize_schedule (s : State) (hi lo : Byte) : (s.setSize hi lo).schedule = s.schedule := rfl

/-! ### setLoadState -/

@[simp] theorem State.setLoadState_link (s : State) (l : LoadState) : (s.setLoadState l).link = s.link := rfl
@[simp] theorem State.setLoadState_blk (s : State) (l : LoadState) : (s.setLoadState l).blk = s.blk := rfl
@[simp] theorem State.setLoadState_img (s : State) (l : LoadState) : (s.setLoadState l).img = { s.img with loadState := l } := rfl
@[simp] theorem State.setLoadState_bus (s : State) (l : LoadState) : (s.setLoadState l).bus = s.bus := rfl
@[simp] theorem State.setLoadState_bank (s : State) (l : LoadState) : (s.setLoadState l).bank = s.bank := rfl
@[simp] theorem State.setLoadState_port1 (s : State) (l : LoadState) : (s.setLoadState l).port1 = s.port1 := rfl
@[simp] theorem State.setLoadState_trap (s : State) (l : LoadState) : (s.setLoadState l).trap = s.trap := rfl
@[simp] theorem State.setLoadState_fg (s : State) (l : LoadState) : (s.setLoadState l).fg = s.fg := rfl
@[simp] theorem State.setLoadState_uart (s : State) (l : LoadState) : (s.setLoadState l).uart = s.uart := rfl
@[simp] theorem State.setLoadState_env (s : State) (l : LoadState) : (s.setLoadState l).env = s.env := rfl
@[simp] theorem State.setLoadState_mem (s : State) (l : LoadState) : (s.setLoadState l).mem = s.mem := rfl
@[simp] theorem State.setLoadState_freeCount (s : State) (l : LoadState) : (s.setLoadState l).freeCount = s.freeCount := rfl
@[simp] theorem State.setLoadState_schedule (s : State) (l : LoadState) : (s.setLoadState l).schedule = s.schedule := rfl

/-! ### abortLoad -/

@[simp] theorem State.abortLoad_link (s : State) : (s.abortLoad).link = s.link := rfl
@[simp] theorem State.abortLoad_blk (s : State) : (s.abortLoad).blk = s.blk := rfl
@[simp] theorem State.abortLoad_img (s : State) : (s.abortLoad).img = { s.img with loadState := .aborted } := rfl
@[simp] theorem State.abortLoad_bus (s : State) : (s.abortLoad).bus = s.bus := rfl
@[simp] theorem State.abortLoad_bank (s : State) : (s.abortLoad).bank = s.bank := rfl
@[simp] theorem State.abortLoad_port1 (s : State) : (s.abortLoad).port1 = s.port1 := rfl
@[simp] theorem State.abortLoad_trap (s : State) : (s.abortLoad).trap = s.trap := rfl
@[simp] theorem State.abortLoad_fg (s : State) : (s.abortLoad).fg = { s.fg with ret := .aborted } := rfl
@[simp] theorem State.abortLoad_uart (s : State) : (s.abortLoad).uart = s.uart := rfl
@[simp] theorem State.abortLoad_env (s : State) : (s.abortLoad).env = s.env := rfl
@[simp] theorem State.abortLoad_mem (s : State) : (s.abortLoad).mem = s.mem := rfl
@[simp] theorem State.abortLoad_freeCount (s : State) : (s.abortLoad).freeCount = s.freeCount := rfl
@[simp] theorem State.abortLoad_schedule (s : State) : (s.abortLoad).schedule = s.schedule := rfl

/-! ### answerRead -/

@[simp] theorem State.answerRead_link (s : State) (v : Byte) : (s.answerRead v).link = s.link := rfl
@[simp] theorem State.answerRead_blk (s : State) (v : Byte) : (s.answerRead v).blk = s.blk := rfl
@[simp] theorem State.answerRead_img (s : State) (v : Byte) : (s.answerRead v).img = s.img := rfl
@[simp] theorem State.answerRead_bus (s : State) (v : Byte) : (s.answerRead v).bus = { s.bus with dataDir := .out, dataOut := v } := rfl
@[simp] theorem State.answerRead_bank (s : State) (v : Byte) : (s.answerRead v).bank = s.bank := rfl
@[simp] theorem State.answerRead_port1 (s : State) (v : Byte) : (s.answerRead v).port1 = s.port1 := rfl
@[simp] theorem State.answerRead_trap (s : State) (v : Byte) : (s.answerRead v).trap = s.trap := rfl
@[simp] theorem State.answerRead_fg (s : State) (v : Byte) : (s.answerRead v).fg = s.fg := rfl
@[simp] theorem State.answerRead_uart (s : State) (v : Byte) : (s.answerRead v).uart = s.uart := rfl
@[simp] theorem State.answerRead_env (s : State) (v : Byte) : (s.answerRead v).env = s.env := rfl
@[simp] theorem State.answerRead_mem (s : State) (v : Byte) : (s.answerRead v).mem = s.mem := rfl
@[simp] theorem State.answerRead_freeCount (s : State) (v : Byte) : (s.answerRead v).freeCount = s.freeCount := rfl
@[simp] theorem State.answerRead_schedule (s : State) (v : Byte) : (s.answerRead v).schedule = s.schedule := rfl

/-! ### hostSend -/

@[simp] theorem State.hostSend_link (s : State) (d : Byte) (bad : Bool) : (s.hostSend d bad).link = s.link := rfl
@[simp] theorem State.hostSend_blk (s : State) (d : Byte) (bad : Bool) : (s.hostSend d bad).blk = s.blk := rfl
@[simp] theorem State.hostSend_img (s : State) (d : Byte) (bad : Bool) : (s.hostSend d bad).img = s.img := rfl
@[simp] theorem State.hostSend_bus (s : State) (d : Byte) (bad : Bool) : (s.hostSend d bad).bus = s.bus := rfl
@[simp] theorem State.hostSend_bank (s : State) (d : Byte) (bad : Bool) : (s.hostSend d bad).bank = s.bank := rfl
@[simp] theorem State.hostSend_port1 (s : State) (d : Byte) (bad : Bool) : (s.hostSend d bad).port1 = s.port1 := rfl
@[simp] theorem State.hostSend_trap (s : State) (d : Byte) (bad : Bool) : (s.hostSend d bad).trap = s.trap := rfl
@[simp] theorem State.hostSend_fg (s : State) (d : Byte) (bad : Bool) : (s.hostSend d bad).fg = s.fg := rfl
@[simp] theorem State.hostSend_uart (s : State) (d : Byte) (bad : Bool) : (s.hostSend d bad).uart = s.uart := rfl
@[simp] theorem State.hostSend_env (s : State) (d : Byte) (bad : Bool) : (s.hostSend d bad).env = { s.env with rxWire := s.env.rxWire ++ [⟨d, bad⟩] } := rfl
@[simp] theorem State.hostSend_mem (s : State) (d : Byte) (bad : Bool) : (s.hostSend d bad).mem = s.mem := rfl
@[simp] theorem State.hostSend_freeCount (s : State) (d : Byte) (bad : Bool) : (s.hostSend d bad).freeCount = s.freeCount := rfl
@[simp] theorem State.hostSend_schedule (s : State) (d : Byte) (bad : Bool) : (s.hostSend d bad).schedule = s.schedule := rfl

/-! ### startCycle -/

@[simp] theorem State.startCycle_link (s : State) (c : BusCycle) : (s.startCycle c).link = s.link := rfl
@[simp] theorem State.startCycle_blk (s : State) (c : BusCycle) : (s.startCycle c).blk = s.blk := rfl
@[simp] theorem State.startCycle_img (s : State) (c : BusCycle) : (s.startCycle c).img = s.img := rfl
@[simp] theorem State.startCycle_bus (s : State) (c : BusCycle) : (s.startCycle c).bus = s.bus := rfl
@[simp] theorem State.startCycle_bank (s : State) (c : BusCycle) : (s.startCycle c).bank = s.bank := rfl
@[simp] theorem State.startCycle_port1 (s : State) (c : BusCycle) : (s.startCycle c).port1 = s.port1 := rfl
@[simp] theorem State.startCycle_trap (s : State) (c : BusCycle) : (s.startCycle c).trap = s.trap := rfl
@[simp] theorem State.startCycle_fg (s : State) (c : BusCycle) : (s.startCycle c).fg = s.fg := rfl
@[simp] theorem State.startCycle_uart (s : State) (c : BusCycle) : (s.startCycle c).uart = s.uart := rfl
@[simp] theorem State.startCycle_env (s : State) (c : BusCycle) : (s.startCycle c).env = { s.env with cycle := some c, fresh := false } := rfl
@[simp] theorem State.startCycle_mem (s : State) (c : BusCycle) : (s.startCycle c).mem = s.mem := rfl
@[simp] theorem State.startCycle_freeCount (s : State) (c : BusCycle) : (s.startCycle c).freeCount = s.freeCount := rfl
@[simp] theorem State.startCycle_schedule (s : State) (c : BusCycle) : (s.startCycle c).schedule = s.schedule := rfl

/-! ### endCycle -/

@[simp] theorem State.endCycle_link (s : State) : (s.endCycle).link = s.link := rfl
@[simp] theorem State.endCycle_blk (s : State) : (s.endCycle).blk = s.blk := rfl
@[simp] theorem State.endCycle_img (s : State) : (s.endCycle).img = s.img := rfl
@[simp] theorem State.endCycle_bus (s : State) : (s.endCycle).bus = s.bus := rfl
@[simp] theorem State.endCycle_bank (s : State) : (s.endCycle).bank = s.bank := rfl
@[simp] theorem State.endCycle_port1 (s : State) : (s.endCycle).port1 = s.port1 := rfl
@[simp] theorem State.endCycle_trap (s : State) : (s.endCycle).trap = s.trap := rfl
@[simp] theorem State.endCycle_fg (s : State) : (s.endCycle).fg = s.fg := rfl
@[simp] theorem State.endCycle_uart (s : State) : (s.endCycle).uart = s.uart := rfl
@[simp] theorem State.endCycle_env (s : State) : (s.endCycle).env = { s.env with cycle := none } := rfl
@[simp] theorem State.endCycle_mem (s : State) : (s.endCycle).mem = s.mem := rfl
@[simp] theorem State.endCycle_freeCount (s : State) : (s.endCycle).freeCount = s.freeCount := rfl
@[simp] theorem State.endCycle_schedule (s : State) : (s.endCycle).schedule = s.schedule := rfl

/-! ### targetTakes -/

@[simp] theorem State.targetTakes_link (s : State) (v : Byte) : (s.targetTakes v).link = s.link := rfl
@[simp] theorem State.targetTakes_blk (s : State) (v : Byte) : (s.targetTakes v).blk = s.blk := rfl
@[simp] theorem State.targetTakes_img (s : State) (v : Byte) : (s.targetTakes v).img = s.img := rfl
@[simp] theorem State.targetTakes_bus (s : State) (v : Byte) : (s.targetTakes v).bus = s.bus := rfl
@[simp] theorem State.targetTakes_bank (s : State) (v : Byte) : (s.targetTakes v).bank = s.bank := rfl
@[simp] theorem State.targetTakes_port1 (s : State) (v : Byte) : (s.targetTakes v).port1 = s.port1 := rfl
@[simp] theorem State.targetTakes_trap (s : State) (v : Byte) : (s.targetTakes v).trap = s.trap := rfl
@[simp] theorem State.targetTakes_fg (s : State) (v : Byte) : (s.targetTakes v).fg = s.fg := rfl
@[simp] theorem State.targetTakes_uart (s : State) (v : Byte) : (s.targetTakes v).uart = s.uart := rfl
@[simp] theorem State.targetTakes_env (s : State) (v : Byte) : (s.targetTakes v).env = { s.env with tgtData := v } := rfl
@[simp] theorem State.targetTakes_mem (s : State) (v : Byte) : (s.targetTakes v).mem = s.mem := rfl
@[simp] theorem State.targetTakes_freeCount (s : State) (v : Byte) : (s.targetTakes v).freeCount = s.freeCount := rfl
@[simp] theorem State.targetTakes_schedule (s : State) (v : Byte) : (s.targetTakes v).schedule = s.schedule := rfl

/-! ### clearFlags -/

@[simp] theorem State.clearFlags_link (s : State) : (s.clearFlags).link = 
      { s.link with frameError := false, bufferOverflow := false, timeout := false, timer := .idle } := rfl
@[simp] theorem State.clearFlags_blk (s : State) : (s.clearFlags).blk = s.blk := rfl
@[simp] theorem State.clearFlags_img (s : State) : (s.clearFlags).img = s.img := rfl
@[simp] theorem State.clearFlags_bus (s : State) : (s.clearFlags).bus = s.bus := rfl
@[simp] theorem State.clearFlags_bank (s : State) : (s.clearFlags).bank = s.bank := rfl
@[simp] theorem State.clearFlags_port1 (s : State) : (s.clearFlags).port1 = s.port1 := rfl
@[simp] theorem State.clearFlags_trap (s : State) : (s.clearFlags).trap = s.trap := rfl
@[simp] theorem State.clearFlags_fg (s : State) : (s.clearFlags).fg = s.fg := rfl
@[simp] theorem State.clearFlags_uart (s : State) : (s.clearFlags).uart = s.uart := rfl
@[simp] theorem State.clearFlags_env (s : State) : (s.clearFlags).env = s.env := rfl
@[simp] theorem State.clearFlags_mem (s : State) : (s.clearFlags).mem = s.mem := rfl
@[simp] theorem State.clearFlags_freeCount (s : State) : (s.clearFlags).freeCount = s.freeCount := rfl
@[simp] theorem State.clearFlags_schedule (s : State) : (s.clearFlags).schedule = s.schedule := rfl

/-! ### setTimeout -/

@[simp] theorem State.setTimeout_link (s : State) : (s.setTimeout).link = { s.link with timeout := true } := rfl
@[simp] theorem State.setTimeout_blk (s : State) : (s.setTimeout).blk = s.blk := rfl
@[simp] theorem State.setTimeout_img (s : State) : (s.setTimeout).img = s.img := rfl
@[simp] theorem State.setTimeout_bus (s : State) : (s.setTimeout).bus = s.bus := rfl
@[simp] theorem State.setTimeout_bank (s : State) : (s.setTimeout).bank = s.bank := rfl
@[simp] theorem State.setTimeout_port1 (s : State) : (s.setTimeout).port1 = s.port1 := rfl
@[simp] theorem State.setTimeout_trap (s : State) : (s.setTimeout).trap = s.trap := rfl
@[simp] theorem State.setTimeout_fg (s : State) : (s.setTimeout).fg = s.fg := rfl
@[simp] theorem State.setTimeout_uart (s : State) : (s.setTimeout).uart = s.uart := rfl
@[simp] theorem State.setTimeout_env (s : State) : (s.setTimeout).env = s.env := rfl
@[simp] theorem State.setTimeout_mem (s : State) : (s.setTimeout).mem = s.mem := rfl
@[simp] theorem State.setTimeout_freeCount (s : State) : (s.setTimeout).freeCount = s.freeCount := rfl
@[simp] theorem State.setTimeout_schedule (s : State) : (s.setTimeout).schedule = s.schedule := rfl

/-! ### popRx -/

@[simp] theorem State.popRx_link (s : State) (r : List RxRecord) : (s.popRx r).link = s.link := rfl
@[simp] theorem State.popRx_blk (s : State) (r : List RxRecord) : (s.popRx r).blk = s.blk := rfl
@[simp] theorem State.popRx_img (s : State) (r : List RxRecord) : (s.popRx r).img = s.img := rfl
@[simp] theorem State.popRx_bus (s : State) (r : List RxRecord) : (s.popRx r).bus = s.bus := rfl
@[simp] theorem State.popRx_bank (s : State) (r : List RxRecord) : (s.popRx r).bank = s.bank := rfl
@[simp] theorem State.popRx_port1 (s : State) (r : List RxRecord) : (s.popRx r).port1 = s.port1 := rfl
@[simp] theorem State.popRx_trap (s : State) (r : List RxRecord) : (s.popRx r).trap = s.trap := rfl
@[simp] theorem State.popRx_fg (s : State) (r : List RxRecord) : (s.popRx r).fg = s.fg := rfl
@[simp] theorem State.popRx_uart (s : State) (r : List RxRecord) : (s.popRx r).uart = { s.uart with rxFifo := r } := rfl
@[simp] theorem State.popRx_env (s : State) (r : List RxRecord) : (s.popRx r).env = s.env := rfl
@[simp] theorem State.popRx_mem (s : State) (r : List RxRecord) : (s.popRx r).mem = s.mem := rfl
@[simp] theorem State.popRx_freeCount (s : State) (r : List RxRecord) : (s.popRx r).freeCount = s.freeCount := rfl
@[simp] theorem State.popRx_schedule (s : State) (r : List RxRecord) : (s.popRx r).schedule = s.schedule := rfl

/-! ### receive -/

@[simp] theorem State.receive_link (s : State) (d : Byte) (fe : Bool) : (s.receive d fe).link = s.link := by unfold State.receive; split <;> rfl
@[simp] theorem State.receive_blk (s : State) (d : Byte) (fe : Bool) : (s.receive d fe).blk = s.blk := by unfold State.receive; split <;> rfl
@[simp] theorem State.receive_img (s : State) (d : Byte) (fe : Bool) : (s.receive d fe).img = s.img := by unfold State.receive; split <;> rfl
@[simp] theorem State.receive_bus (s : State) (d : Byte) (fe : Bool) : (s.receive d fe).bus = s.bus := by unfold State.receive; split <;> rfl
@[simp] theorem State.receive_bank (s : State) (d : Byte) (fe : Bool) : (s.receive d fe).bank = s.bank := by unfold State.receive; split <;> rfl
@[simp] theorem State.receive_port1 (s : State) (d : Byte) (fe : Bool) : (s.receive d fe).port1 = s.port1 := by unfold State.receive; split <;> rfl
@[simp] theorem State.receive_trap (s : State) (d : Byte) (fe : Bool) : (s.receive d fe).trap = s.trap := by unfold State.receive; split <;> rfl
@[simp] theorem State.receive_fg (s : State) (d : Byte) (fe : Bool) : (s.receive d fe).fg = s.fg := by unfold State.receive; split <;> rfl
@[simp] theorem State.receive_env (s : State) (d : Byte) (fe : Bool) : (s.receive d fe).env = s.env := by unfold State.receive; split <;> rfl
@[simp] theorem State.receive_mem (s : State) (d : Byte) (fe : Bool) : (s.receive d fe).mem = s.mem := by unfold State.receive; split <;> rfl
@[simp] theorem State.receive_freeCount (s : State) (d : Byte) (fe : Bool) : (s.receive d fe).freeCount = s.freeCount := by unfold State.receive; split <;> rfl
@[simp] theorem State.receive_schedule (s : State) (d : Byte) (fe : Bool) : (s.receive d fe).schedule = s.schedule := by unfold State.receive; split <;> rfl

/-! ### receiveWire -/

@[simp] theorem State.receiveWire_link (s : State) : (s.receiveWire).link = s.link := by unfold State.receiveWire; split <;> simp
@[simp] theorem State.receiveWire_blk (s : State) : (s.receiveWire).blk = s.blk := by unfold State.receiveWire; split <;> simp
@[simp] theorem State.receiveWire_img (s : State) : (s.receiveWire).img = s.img := by unfold State.receiveWire; split <;> simp
@[simp] theorem State.receiveWire_bus (s : State) : (s.receiveWire).bus = s.bus := by unfold State.receiveWire; split <;> simp
@[simp] theorem State.receiveWire_bank (s : State) : (s.receiveWire).bank = s.bank := by unfold State.receiveWire; split <;> simp
@[simp] theorem State.receiveWire_port1 (s : State) : (s.receiveWire).port1 = s.port1 := by unfold State.receiveWire; split <;> simp
@[simp] theorem State.receiveWire_trap (s : State) : (s.receiveWire).trap = s.trap := by unfold State.receiveWire; split <;> simp
@[simp] theorem State.receiveWire_fg (s : State) : (s.receiveWire).fg = s.fg := by unfold State.receiveWire; split <;> simp
@[simp] theorem State.receiveWire_mem (s : State) : (s.receiveWire).mem = s.mem := by unfold State.receiveWire; split <;> simp
@[simp] theorem State.receiveWire_freeCount (s : State) : (s.receiveWire).freeCount = s.freeCount := by unfold State.receiveWire; split <;> simp
@[simp] theorem State.receiveWire_schedule (s : State) : (s.receiveWire).schedule = s.schedule := by unfold State.receiveWire; split <;> simp

/-! ### hostTake -/

@[simp] theorem State.hostTake_link (s : State) : (s.hostTake).link = s.link := by unfold State.hostTake; split <;> rfl
@[simp] theorem State.hostTake_blk (s : State) : (s.hostTake).blk = s.blk := by unfold State.hostTake; split <;> rfl
@[simp] theorem State.hostTake_img (s : State) : (s.hostTake).img = s.img := by unfold State.hostTake; split <;> rfl
@[simp] theorem State.hostTake_bus (s : State) : (s.hostTake).bus = s.bus := by unfold State.hostTake; split <;> rfl
@[simp] theorem State.hostTake_bank (s : State) : (s.hostTake).bank = s.bank := by unfold State.hostTake; split <;> rfl
@[simp] theorem State.hostTake_port1 (s : State) : (s.hostTake).port1 = s.port1 := by unfold State.hostTake; split <;> rfl
@[simp] theorem State.hostTake_trap (s : State) : (s.hostTake).trap = s.trap := by unfold State.hostTake; split <;> rfl
@[simp] theorem State.hostTake_fg (s : State) : (s.hostTake).fg = s.fg := by unfold State.hostTake; split <;> rfl
@[simp] theorem State.hostTake_uart (s : State) : (s.hostTake).uart = s.uart := by unfold State.hostTake; split <;> rfl
@[simp] theorem State.hostTake_mem (s : State) : (s.hostTake).mem = s.mem := by unfold State.hostTake; split <;> rfl
@[simp] theorem State.hostTake_freeCount (s : State) : (s.hostTake).freeCount = s.freeCount := by unfold State.hostTake; split <;> rfl
@[simp] theorem State.hostTake_schedule (s : State) : (s.hostTake).schedule = s.schedule := by unfold State.hostTake; split <;> rfl

/-! ### finishCycle -/

@[simp] theorem State.finishCycle_link (s : State) (c : BusCycle) : (s.finishCycle c).link = s.link := by cases c <;> rfl
@[simp] theorem State.finishCycle_blk (s : State) (c : BusCycle) : (s.finishCycle c).blk = s.blk := by cases c <;> rfl
@[simp] theorem State.finishCycle_img (s : State) (c : BusCycle) : (s.finishCycle c).img = s.img := by cases c <;> rfl
@[simp] theorem State.finishCycle_bus (s : State) (c : BusCycle) : (s.finishCycle c).bus = s.bus := by cases c <;> rfl
@[simp] theorem State.finishCycle_bank (s : State) (c : BusCycle) : (s.finishCycle c).bank = s.bank := by cases c <;> rfl
@[simp] theorem State.finishCycle_port1 (s : State) (c : BusCycle) : (s.finishCycle c).port1 = s.port1 := by cases c <;> rfl
@[simp] theorem State.finishCycle_fg (s : State) (c : BusCycle) : (s.finishCycle c).fg = s.fg := by cases c <;> rfl
@[simp] theorem State.finishCycle_uart (s : State) (c : BusCycle) : (s.finishCycle c).uart = s.uart := by cases c <;> rfl
@[simp] theorem State.finishCycle_freeCount (s : State) (c : BusCycle) : (s.finishCycle c).freeCount = s.freeCount := by cases c <;> rfl
@[simp] theorem State.finishCycle_schedule (s : State) (c : BusCycle) : (s.finishCycle c).schedule = s.schedule := by cases c <;> rfl

/-! ### transmit -/

@[simp] theorem State.transmit_link (s : State) : (s.transmit).link = s.link := by unfold State.transmit; split <;> rfl
@[simp] theorem State.transmit_blk (s : State) : (s.transmit).blk = s.blk := by unfold State.transmit; split <;> rfl
@[simp] theorem State.transmit_img (s : State) : (s.transmit).img = s.img := by unfold State.transmit; split <;> rfl
@[simp] theorem State.transmit_bus (s : State) : (s.transmit).bus = s.bus := by unfold State.transmit; split <;> rfl
@[simp] theorem State.transmit_bank (s : State) : (s.transmit).bank = s.bank := by unfold State.transmit; split <;> rfl
@[simp] theorem State.transmit_port1 (s : State) : (s.transmit).port1 = s.port1 := by unfold State.transmit; split <;> rfl
@[simp] theorem State.transmit_trap (s : State) : (s.transmit).trap = s.trap := by unfold State.transmit; split <;> rfl
@[simp] theorem State.transmit_fg (s : State) : (s.transmit).fg = s.fg := by unfold State.transmit; split <;> rfl
@[simp] theorem State.transmit_mem (s : State) : (s.transmit).mem = s.mem := by unfold State.transmit; split <;> rfl
@[simp] theorem State.transmit_freeCount (s : State) : (s.transmit).freeCount = s.freeCount := by unfold State.transmit; split <;> rfl
@[simp] theorem State.transmit_schedule (s : State) : (s.transmit).schedule = s.schedule := by unfold State.transmit; split <;> rfl

/-! ### txWrite -/

@[simp] theorem State.txWrite_link (s : State) (b : Byte) : (s.txWrite b).link = s.link := by unfold State.txWrite; split <;> rfl
@[simp] theorem State.txWrite_blk (s : State) (b : Byte) : (s.txWrite b).blk = s.blk := by unfold State.txWrite; split <;> rfl
@[simp] theorem State.txWrite_img (s : State) (b : Byte) : (s.txWrite b).img = s.img := by unfold State.txWrite; split <;> rfl
@[simp] theorem State.txWrite_bus (s : State) (b : Byte) : (s.txWrite b).bus = s.bus := by unfold State.txWrite; split <;> rfl
@[simp] theorem State.txWrite_bank (s : State) (b : Byte) : (s.txWrite b).bank = s.bank := by unfold State.txWrite; split <;> rfl
@[simp] theorem State.txWrite_port1 (s : State) (b : Byte) : (s.txWrite b).port1 = s.port1 := by unfold State.txWrite; split <;> rfl
@[simp] theorem State.txWrite_trap (s : State) (b : Byte) : (s.txWrite b).trap = s.trap := by unfold State.txWrite; split <;> rfl
@[simp] theorem State.txWrite_fg (s : State) (b : Byte) : (s.txWrite b).fg = s.fg := by unfold State.txWrite; split <;> rfl
@[simp] theorem State.txWrite_env (s : State) (b : Byte) : (s.txWrite b).env = s.env := by unfold State.txWrite; split <;> rfl
@[simp] theorem State.txWrite_mem (s : State) (b : Byte) : (s.txWrite b).mem = s.mem := by unfold State.txWrite; split <;> rfl
@[simp] theorem State.txWrite_schedule (s : State) (b : Byte) : (s.txWrite b).schedule = s.schedule := by unfold State.txWrite; split <;> rfl

/-! ### sendByte -/

@[simp] theorem State.sendByte_link (s : State) (b : Byte) : (s.sendByte b).link = s.link := by unfold State.sendByte; split <;> rfl
@[simp] theorem State.sendByte_blk (s : State) (b : Byte) : (s.sendByte b).blk = s.blk := by unfold State.sendByte; split <;> rfl
@[simp] theorem State.sendByte_img (s : State) (b : Byte) : (s.sendByte b).img = s.img := by unfold State.sendByte; split <;> rfl
@[simp] theorem State.sendByte_bus (s : State) (b : Byte) : (s.sendByte b).bus = s.bus := by unfold State.sendByte; split <;> rfl
@[simp] theorem State.sendByte_bank (s : State) (b : Byte) : (s.sendByte b).bank = s.bank := by unfold State.sendByte; split <;> rfl
@[simp] theorem State.sendByte_port1 (s : State) (b : Byte) : (s.sendByte b).port1 = s.port1 := by unfold State.sendByte; split <;> rfl
@[simp] theorem State.sendByte_trap (s : State) (b : Byte) : (s.sendByte b).trap = s.trap := by unfold State.sendByte; split <;> rfl
@[simp] theorem State.sendByte_uart (s : State) (b : Byte) : (s.sendByte b).uart = s.uart := by unfold State.sendByte; split <;> rfl
@[simp] theorem State.sendByte_env (s : State) (b : Byte) : (s.sendByte b).env = s.env := by unfold State.sendByte; split <;> rfl
@[simp] theorem State.sendByte_mem (s : State) (b : Byte) : (s.sendByte b).mem = s.mem := by unfold State.sendByte; split <;> rfl
@[simp] theorem State.sendByte_freeCount (s : State) (b : Byte) : (s.sendByte b).freeCount = s.freeCount := by unfold State.sendByte; split <;> rfl
@[simp] theorem State.sendByte_schedule (s : State) (b : Byte) : (s.sendByte b).schedule = s.schedule := by unfold State.sendByte; split <;> rfl

/-! ### sendBlock -/

@[simp] theorem State.sendBlock_link (s : State) (bs : List Byte) : (s.sendBlock bs).link = s.link := by unfold State.sendBlock; simp
@[simp] theorem State.sendBlock_blk (s : State) (bs : List Byte) : (s.sendBlock bs).blk = s.blk := by unfold State.sendBlock; simp
@[simp] theorem State.sendBlock_img (s : State) (bs : List Byte) : (s.sendBlock bs).img = s.img := by unfold State.sendBlock; simp
@[simp] theorem State.sendBlock_bus (s : State) (bs : List Byte) : (s.sendBlock bs).bus = s.bus := by unfold State.sendBlock; simp
@[simp] theorem State.sendBlock_bank (s : State) (bs : List Byte) : (s.sendBlock bs).bank = s.bank := by unfold State.sendBlock; simp
@[simp] theorem State.sendBlock_port1 (s : State) (bs : List Byte) : (s.sendBlock bs).port1 = s.port1 := by unfold State.sendBlock; simp
@[simp] theorem State.sendBlock_trap (s : State) (bs : List Byte) : (s.sendBlock bs).trap = s.trap := by unfold State.sendBlock; simp
@[simp] theorem State.sendBlock_uart (s : State) (bs : List Byte) : (s.sendBlock bs).uart = s.uart := by unfold State.sendBlock; simp
@[simp] theorem State.sendBlock_env (s : State) (bs : List Byte) : (s.sendBlock bs).env = s.env := by unfold State.sendBlock; simp
@[simp] theorem State.sendBlock_mem (s : State) (bs : List Byte) : (s.sendBlock bs).mem = s.mem := by unfold State.sendBlock; simp
@[simp] theorem State.sendBlock_freeCount (s : State) (bs : List Byte) : (s.sendBlock bs).freeCount = s.freeCount := by unfold State.sendBlock; simp
@[simp] theorem State.sendBlock_schedule (s : State) (bs : List Byte) : (s.sendBlock bs).schedule = s.schedule := by unfold State.sendBlock; simp

/-! ### store -/

@[simp] theorem State.store_link (s : State) (d : RxDst) (v : Byte) : (s.store d v).link = s.link := by cases d <;> rfl
@[simp] theorem State.store_img (s : State) (d : RxDst) (v : Byte) : (s.store d v).img = s.img := by cases d <;> rfl
@[simp] theorem State.store_bus (s : State) (d : RxDst) (v : Byte) : (s.store d v).bus = s.bus := by cases d <;> rfl
@[simp] theorem State.store_bank (s : State) (d : RxDst) (v : Byte) : (s.store d v).bank = s.bank := by cases d <;> rfl
@[simp] theorem State.store_port1 (s : State) (d : RxDst) (v : Byte) : (s.store d v).port1 = s.port1 := by cases d <;> rfl
@[simp] theorem State.store_trap (s : State) (d : RxDst) (v : Byte) : (s.store d v).trap = s.trap := by cases d <;> rfl
@[simp] theorem State.store_uart (s : State) (d : RxDst) (v : Byte) : (s.store d v).uart = s.uart := by cases d <;> rfl
@[simp] theorem State.store_env (s : State) (d : RxDst) (v : Byte) : (s.store d v).env = s.env := by cases d <;> rfl
@[simp] theorem State.store_mem (s : State) (d : RxDst) (v : Byte) : (s.store d v).mem = s.mem := by cases d <;> rfl
@[simp] theorem State.store_freeCount (s : State) (d : RxDst) (v : Byte) : (s.store d v).freeCount = s.freeCount := by cases d <;> rfl
@[simp] theorem State.store_schedule (s : State) (d : RxDst) (v : Byte) : (s.store d v).schedule = s.schedule := by cases d <;> rfl

/-! ### latchMarks -/

@[simp] theorem State.latchMarks_link (s : State) (m : RxMarks) : (s.latchMarks m).link = if Config.lossyErrorLatch then s.link.latchLossy m else s.link.latch m := rfl
@[simp] theorem State.latchMarks_blk (s : State) (m : RxMarks) : (s.latchMarks m).blk = s.blk := rfl
@[simp] theorem State.latchMarks_img (s : State) (m : RxMarks) : (s.latchMarks m).img = s.img := rfl
@[simp] theorem State.latchMarks_bus (s : State) (m : RxMarks) : (s.latchMarks m).bus = s.bus := rfl
@[simp] theorem State.latchMarks_bank (s : State) (m : RxMarks) : (s.latchMarks m).bank = s.bank := rfl
@[simp] theorem State.latchMarks_port1 (s : State) (m : RxMarks) : (s.latchMarks m).port1 = s.port1 := rfl
@[simp] theorem State.latchMarks_trap (s : State) (m : RxMarks) : (s.latchMarks m).trap = s.trap := rfl
@[simp] theorem State.latchMarks_fg (s : State) (m : RxMarks) : (s.latchMarks m).fg = s.fg := rfl
@[simp] theorem State.latchMarks_uart (s : State) (m : RxMarks) : (s.latchMarks m).uart = s.uart := rfl
@[simp] theorem State.latchMarks_env (s : State) (m : RxMarks) : (s.latchMarks m).env = s.env := rfl
@[simp] theorem State.latchMarks_mem (s : State) (m : RxMarks) : (s.latchMarks m).mem = s.mem := rfl
@[simp] theorem State.latchMarks_freeCount (s : State) (m : RxMarks) : (s.latchMarks m).freeCount = s.freeCount := rfl
@[simp] theorem State.latchMarks_schedule (s : State) (m : RxMarks) : (s.latchMarks m).schedule = s.schedule := rfl

/-! ### readCycle -/

@[simp] theorem State.readCycle_link (s : State) (a : Addr) : (s.readCycle a).1.link = s.link := by simp [State.readCycle]
@[simp] theorem State.readCycle_blk (s : State) (a : Addr) : (s.readCycle a).1.blk = s.blk := by simp [State.readCycle]
@[simp] theorem State.readCycle_img (s : State) (a : Addr) : (s.readCycle a).1.img = s.img := by simp [State.readCycle]
@[simp] theorem State.readCycle_bus (s : State) (a : Addr) : (s.readCycle a).1.bus = 
      { s.bus with
        addrOut := a, addrDir := .inp, dataDir := .inp, memctlDir := .inp, memCe := false, memWe := false,
        memOe := false } := by simp [State.readCycle]
@[simp] theorem State.readCycle_bank (s : State) (a : Addr) : (s.readCycle a).1.bank = s.bank := by simp [State.readCycle]
@[simp] theorem State.readCycle_port1 (s : State) (a : Addr) : (s.readCycle a).1.port1 = s.port1 := by simp [State.readCycle]
@[simp] theorem State.readCycle_trap (s : State) (a : Addr) : (s.readCycle a).1.trap = s.trap := by simp [State.readCycle]
@[simp] theorem State.readCycle_fg (s : State) (a : Addr) : (s.readCycle a).1.fg = s.fg := by simp [State.readCycle]
@[simp] theorem State.readCycle_uart (s : State) (a : Addr) : (s.readCycle a).1.uart = s.uart := by simp [State.readCycle]
@[simp] theorem State.readCycle_env (s : State) (a : Addr) : (s.readCycle a).1.env = s.env := by simp [State.readCycle]
@[simp] theorem State.readCycle_mem (s : State) (a : Addr) : (s.readCycle a).1.mem = s.mem := by simp [State.readCycle]
@[simp] theorem State.readCycle_freeCount (s : State) (a : Addr) : (s.readCycle a).1.freeCount = s.freeCount := by simp [State.readCycle]
@[simp] theorem State.readCycle_schedule (s : State) (a : Addr) : (s.readCycle a).1.schedule = s.schedule := by simp [State.readCycle]
@[simp] theorem State.readCycle_value (s : State) (a : Addr) : (s.readCycle a).2 = s.memByte a := by
  simp [State.readCycle, State.memByte, State.location]

end Sys2Proof.Machine
end

