-- ==== Sys2Proof/Laws/Memory.lean ====
section
/-! SUPPORT. Laws of the memory operations: a read after a write, the canonical form, extensionality. -/

namespace Sys2Proof.Machine

theorem memRead_eq_startup_of_lt {m : List Host.Cell} {a : Nat} (h : ∀ c ∈ m, a < c.1) :
    memRead m a = Config.startupByte a := by
  induction m with
  | nil => rfl
  | cons c m ih =>
    obtain ⟨k, v⟩ := c
    have hk : a < k := h _ (List.mem_cons_self ..)
    have : k ≠ a := by omega
    simp only [memRead, if_neg this]
    exact ih fun c hc => h c (List.mem_cons_of_mem _ hc)

/-- In a sorted list, what a write at `a` leaves lies at `a` or at a location that was listed. -/
theorem mem_memWrite {m : List Host.Cell} {a : Nat} {v : Byte} {c : Host.Cell} (h : c ∈ memWrite m a v) :
    (c = (a, v) ∧ v ≠ Config.startupByte a) ∨ c ∈ m := by
  induction m with
  | nil =>
    simp only [memWrite] at h
    split at h
    · simp at h
    · simp_all
  | cons d m ih =>
    obtain ⟨k, w⟩ := d
    simp only [memWrite] at h
    split at h
    · split at h
      · exact .inr h
      · rcases List.mem_cons.1 h with h | h
        · exact .inl ⟨h, by assumption⟩
        · exact .inr h
    · split at h
      · split at h
        · exact .inr (List.mem_cons_of_mem _ h)
        · rcases List.mem_cons.1 h with h | h
          · exact .inl ⟨h, by assumption⟩
          · exact .inr (List.mem_cons_of_mem _ h)
      · rcases List.mem_cons.1 h with h | h
        · exact .inr (h ▸ List.mem_cons_self ..)
        · exact (ih h).imp_right (List.mem_cons_of_mem _)

/-- A write keeps the canonical form. -/
theorem memWrite_wf {m : List Host.Cell} (h : memWf m) (a : Nat) (v : Byte) : memWf (memWrite m a v) := by
  refine ⟨?_, fun c hc => ?_⟩
  · obtain ⟨hs, -⟩ := h
    induction m with
    | nil => simp only [memWrite]; split <;> simp
    | cons d m ih =>
      obtain ⟨k, w⟩ := d
      obtain ⟨hk, hm⟩ := List.pairwise_cons.1 hs
      simp only [memWrite]
      split
      · split
        · exact hs
        · refine List.pairwise_cons.2 ⟨fun c hc => ?_, hs⟩
          rcases List.mem_cons.1 hc with rfl | hc
          · assumption
          · have := hk c hc; simp_all; omega
      · split
        · subst_vars
          split
          · exact hm
          · exact List.pairwise_cons.2 ⟨hk, hm⟩
        · refine List.pairwise_cons.2 ⟨fun c hc => ?_, ih hm⟩
          rcases mem_memWrite hc with ⟨rfl, -⟩ | hc
          · show k < a; omega
          · exact hk c hc
  · rcases mem_memWrite hc with ⟨rfl, hv⟩ | hc
    · exact hv
    · exact h.2 c hc

/-- A read at the location just written gives the value written (20_memory R64, R65). -/
theorem memRead_memWrite_same {m : List Host.Cell} (h : memWf m) (a : Nat) (v : Byte) :
    memRead (memWrite m a v) a = v := by
  obtain ⟨hs, -⟩ := h
  induction m with
  | nil => simp only [memWrite]; split <;> simp_all [memRead]
  | cons d m ih =>
    obtain ⟨k, w⟩ := d
    obtain ⟨hk, hm⟩ := List.pairwise_cons.1 hs
    simp only [memWrite]
    split
    · split
      · rw [memRead_eq_startup_of_lt, ‹v = _›]
        intro c hc
        rcases List.mem_cons.1 hc with rfl | hc
        · assumption
        · have := hk c hc; simp_all; omega
      · simp [memRead]
    · split
      · subst_vars
        split
        · rw [memRead_eq_startup_of_lt hk, ‹v = _›]
        · simp [memRead]
      · have : k ≠ a := by omega
        simp [memRead, this, ih hm]

/-- A write leaves every other location alone (20_memory R65). -/
theorem memRead_memWrite_other (m : List Host.Cell) {a b : Nat} (v : Byte) (h : b ≠ a) :
    memRead (memWrite m a v) b = memRead m b := by
  induction m with
  | nil => simp only [memWrite]; split <;> simp [memRead, h.symm]
  | cons d m ih =>
    obtain ⟨k, w⟩ := d
    simp only [memWrite]
    split
    · split <;> simp [memRead, h.symm]
    · split
      · subst_vars
        split <;> simp [memRead, h.symm]
      · simp [memRead, ih]

theorem memRead_memWrite {m : List Host.Cell} (h : memWf m) (a b : Nat) (v : Byte) :
    memRead (memWrite m a v) b = if b = a then v else memRead m b := by
  split
  · subst_vars; exact memRead_memWrite_same h _ v
  · exact memRead_memWrite_other m v ‹_›

/-- The canonical form is canonical: equal contents, equal data. -/
theorem mem_ext {m n : List Host.Cell} (hm : memWf m) (hn : memWf n) (h : ∀ a, memRead m a = memRead n a) : m = n := by
  induction m generalizing n with
  | nil =>
    cases n with
    | nil => rfl
    | cons d n =>
      obtain ⟨k, w⟩ := d
      have h1 := h k
      have h2 := hn.2 _ (List.mem_cons_self ..)
      simp only [memRead, if_true] at h1
      exact absurd h1.symm h2
  | cons c m ih =>
    obtain ⟨j, v⟩ := c
    obtain ⟨hj, hm'⟩ := List.pairwise_cons.1 hm.1
    have hv := hm.2 _ (List.mem_cons_self ..)
    cases n with
    | nil =>
      have h1 := h j
      simp only [memRead, if_true] at h1
      exact absurd h1 hv
    | cons d n =>
      obtain ⟨k, w⟩ := d
      obtain ⟨hk, hn'⟩ := List.pairwise_cons.1 hn.1
      have hw := hn.2 _ (List.mem_cons_self ..)
      rcases Nat.lt_trichotomy j k with hjk | rfl | hjk
      · have h1 := h j
        rw [memRead_eq_startup_of_lt (m := (k, w) :: n)] at h1
        · simp only [memRead, if_true] at h1
          exact absurd h1 hv
        · intro c hc
          rcases List.mem_cons.1 hc with rfl | hc
          · exact hjk
          · exact Nat.lt_trans hjk (hk c hc)
      · have h1 := h j
        simp only [memRead, if_true] at h1
        subst h1
        congr 1
        refine ih ⟨hm', fun c hc => hm.2 c (List.mem_cons_of_mem _ hc)⟩
          ⟨hn', fun c hc => hn.2 c (List.mem_cons_of_mem _ hc)⟩ fun a => ?_
        by_cases ha : j = a
        · subst ha
          rw [memRead_eq_startup_of_lt hj, memRead_eq_startup_of_lt hk]
        · have h2 := h a
          simpa only [memRead, if_neg ha] using h2
      · have h1 := h k
        rw [memRead_eq_startup_of_lt (m := (j, v) :: m)] at h1
        · simp only [memRead, if_true] at h1
          exact absurd h1.symm hw
        · intro c hc
          rcases List.mem_cons.1 hc with rfl | hc
          · exact hjk
          · exact Nat.lt_trans hjk (hj c hc)

end Sys2Proof.Machine
end

