-- ==== Sys2Proof/Laws/Run.lean ====
section
/-! SUPPORT. Runs of steps, and which function a step is: by the schedule, the trap bits and the foreground position. -/

namespace Sys2Proof.Machine

@[simp] theorem runs_zero (s u : State) : Runs 0 s u ↔ s = u := by
  simp [Runs, runSteps]

/-- One step and then the rest. -/
theorem runs_succ (k : Nat) (s u : State) : Runs (k + 1) s u ↔ ∃ t, step s = .next t ∧ Runs k t u := by
  simp only [Runs, runSteps]
  cases step s <;> simp

/-- A step in front of a run. -/
theorem Runs.cons {k : Nat} {s t u : State} (h : step s = .next t) (hr : Runs k t u) : Runs (k + 1) s u :=
  (runs_succ k s u).2 ⟨t, h, hr⟩

/-- Runs compose. -/
theorem Runs.trans {j k : Nat} {s t u : State} (h : Runs j s t) (hr : Runs k t u) : Runs (j + k) s u := by
  induction j generalizing s with
  | zero => rw [runs_zero] at h; subst h; simpa using hr
  | succ j ih =>
    obtain ⟨s', hs, h'⟩ := (runs_succ j s t).1 h
    rw [Nat.succ_add]
    exact .cons hs (ih h')

/-- The dispatcher neither runs nor can be entered. -/
def State.trapIdle (s : State) : Prop := s.trap.inTrap = false ∧ (s.trap.enable = false ∨ s.trap.pending = false)

theorem State.trapIdle_not_ready {s : State} (h : s.trapIdle) : s.trapReady = false := by
  obtain ⟨h1, h2 | h2⟩ := h <;> simp [State.trapReady, h1, h2]

theorem controllerStep_foreground {s : State} (h : s.trapIdle) : controllerStep s = foregroundStep s := by
  simp [controllerStep, h.1, State.trapIdle_not_ready h]

/-- While the dispatcher runs, the controller's step is the dispatcher's. -/
theorem controllerStep_inTrap {s : State} (h : s.trap.inTrap = true) : controllerStep s = trapStep s := by
  simp [controllerStep, h]

theorem step_nil {s : State} (h : s.schedule = []) : step s = controllerStep s := by
  simp [step, stepScheduled, h]

theorem step_cons {s : State} {m : Move} {ms : List Move} (h : s.schedule = m :: ms) :
    step s = runMove m { s with schedule := ms } := by
  simp [step, stepScheduled, h]

theorem foregroundStep_cons {s : State} {st : Stmt} {rest : List Stmt} (h : s.fg.pc = st :: rest) :
    foregroundStep s = runStmt st (s.goto rest) := by
  simp [foregroundStep, h]

/-- With nothing scheduled and no trap, a step executes the statement at the foreground position. -/
theorem step_foreground {s : State} {st : Stmt} {rest : List Stmt} (hs : s.schedule = []) (ht : s.trapIdle)
    (h : s.fg.pc = st :: rest) : step s = runStmt st (s.goto rest) := by
  rw [step_nil hs, controllerStep_foreground ht, foregroundStep_cons h]

/-- With the controller scheduled and no trap, a step executes the statement at the foreground position. -/
theorem step_foreground_scheduled {s : State} {ms : List Move} {st : Stmt} {rest : List Stmt}
    (hs : s.schedule = .controller :: ms) (ht : s.trapIdle) (h : s.fg.pc = st :: rest) :
    step s = runStmt st ({ s with schedule := ms }.goto rest) := by
  rw [step_cons hs]
  show controllerStep _ = _
  rw [controllerStep_foreground (s := { s with schedule := ms }) ht, foregroundStep_cons (s := { s with schedule := ms }) h]

end Sys2Proof.Machine
end

