-- ==== Sys2Proof/Laws/Ops.lean ====
section
/-! SUPPORT. One lemma per shared operation: what it can do, said once. -/

namespace Sys2Proof.Machine

/-! ## Ownership -/

theorem owner_controller_iff (s : State) :
    s.owner = .controllerOwned ↔ s.bus.tgtReset = true ∨ (s.bus.busreq = true ∧ s.bus.busack = true) := by
  simp only [State.owner]; split <;> simp_all

theorem owner_target_iff (s : State) :
    s.owner = .targetOwned ↔ s.bus.tgtReset = false ∧ (s.bus.busreq = false ∨ s.bus.busack = false) := by
  unfold State.owner
  cases s.bus.tgtReset <;> cases s.bus.busreq <;> cases s.bus.busack <;> simp

/-- A driving operation of the controller runs exactly when it owns the bus. -/
theorem requireOwner_controller {s : State} (h : s.owner = .controllerOwned) (k : State → Result) : requireOwner s k = k s := by
  simp [requireOwner, h]

theorem requireOwner_target {s : State} (h : s.owner = .targetOwned) (k : State → Result) :
    requireOwner s k = .fault .driveWhileNotOwner := by
  simp [requireOwner, h]

/-- Where a driving operation takes a next state, the controller owned the bus. -/
theorem requireOwner_next {s t : State} {k : State → Result} (h : requireOwner s k = .next t) :
    s.owner = .controllerOwned ∧ k s = .next t := by
  unfold requireOwner at h
  cases ho : s.owner <;> simp_all

/-! ## The UART -/

/-- The receiver's step: stored with the lost-byte mark, or lost. -/
theorem receive_cases (s : State) (d : Byte) (fe : Bool) :
    (s.uart.rxFifo.length < Config.rxDepth ∧
        (s.receive d fe).uart = { s.uart with rxFifo := s.uart.rxFifo ++ [⟨d, ⟨fe, s.uart.rxLost⟩⟩], rxLost := false }) ∨
      (Config.rxDepth ≤ s.uart.rxFifo.length ∧ (s.receive d fe).uart = { s.uart with rxLost := true }) := by
  unfold State.receive
  split
  · exact .inl ⟨‹_›, rfl⟩
  · exact .inr ⟨by omega, rfl⟩

theorem txWrite_empty {s : State} (h : s.uart.txReg = none) (b : Byte) :
    s.txWrite b = { s with uart.txReg := some b } := by
  simp [State.txWrite, h]

/-- After `tx_write` the register holds the new byte or, if it was occupied, possibly the old one. -/
theorem txWrite_cases (s : State) (b : Byte) :
    (s.txWrite b).uart = { s.uart with txReg := some b } ∨
      ∃ p, s.uart.txReg = some p ∧ (s.txWrite b).uart = s.uart := by
  unfold State.txWrite
  split
  · exact .inl rfl
  · rename_i p hp
    by_cases hf : Config.freeBit s.freeCount = true
    · left; simp [hf]
    · right
      refine ⟨p, hp, ?_⟩
      have hu : s.uart = { s.uart with txReg := some p } := by rw [← hp]
      simp only [hf, State.drawn_uart]
      exact hu.symm

theorem sendByte_free {s : State} (h : s.uart.txReg = none) (b : Byte) : s.sendByte b = s.push [.micro (.txWrite b)] := by
  simp [State.sendByte, h]

theorem sendByte_busy {s : State} {p : Byte} (h : s.uart.txReg = some p) (b : Byte) :
    s.sendByte b = s.push [.op (.sendByte b)] := by
  simp [State.sendByte, h]

/-! ## Latching marks -/

theorem kept_none (m : RxMarks) : m.kept ⟨false, false⟩ = m := by
  simp [RxMarks.kept]

theorem latch_clean (l : Link) : l.latch ⟨false, false⟩ = l := by
  simp [Link.latch]

/-- A clean byte leaves SerialLink alone where no skip is chosen and no byte is owed. -/
@[simp] theorem latchMarks_clean {s : State} (hs : s.link.skipNext = ⟨false, false⟩) (ho : s.link.owed = 0) :
    s.latchMarks ⟨false, false⟩ = s := by
  obtain ⟨⟨_, _, _, _, _, _⟩⟩ := s
  simp_all [State.latchMarks, Link.latchLossy, latch_clean, kept_none]

/-- Without the lossy parameter, and under it where no skip is chosen, the marks are latched at once (40_serial_link R121). -/
theorem latchMarks_flags (s : State) (m : RxMarks)
    (h : Config.lossyErrorLatch = false ∨ s.link.skipNext = ⟨false, false⟩) :
    (s.latchMarks m).link.frameError = (s.link.frameError || m.fe) ∧
      (s.latchMarks m).link.bufferOverflow = (s.link.bufferOverflow || m.ovf) := by
  rcases h with h | h <;> simp [h, Link.latchLossy, Link.latch, kept_none]
  split <;> simp

/-- Where a skip loses an assignment, `RX_DEPTH` bytes are owed; else each assignment is made (40_serial_link R130). -/
theorem latchLossy_cases (l : Link) (m : RxMarks) :
    (m.kept l.skipNext = m ∧ (l.latchLossy m).owed = l.owed - 1) ∨
      (m.kept l.skipNext ≠ m ∧ (l.latchLossy m).owed = Config.rxDepth) := by
  by_cases h : m.kept l.skipNext = m <;> simp [Link.latchLossy, h]

/-- With no skip chosen, latching owes no further byte (40_serial_link R130). -/
theorem latchMarks_owed_le {s : State} (h : s.link.skipNext = ⟨false, false⟩) (m : RxMarks) :
    (s.latchMarks m).link.owed ≤ s.link.owed := by
  rw [State.latchMarks_link]
  split <;> simp [Link.latchLossy, Link.latch, h, kept_none]

/-- Latching never clears a flag. -/
theorem latchMarks_keeps_flags (s : State) (m : RxMarks) :
    (s.link.frameError = true → (s.latchMarks m).link.frameError = true) ∧
      (s.link.bufferOverflow = true → (s.latchMarks m).link.bufferOverflow = true) ∧
      (s.latchMarks m).link.timeout = s.link.timeout ∧ (s.latchMarks m).link.timer = s.link.timer := by
  simp only [State.latchMarks_link]
  split <;> simp_all [Link.latchLossy, Link.latch]

/-! ## One test of recv_byte -/

/-- With a byte waiting and the timer not expired, the oldest byte is taken. -/
theorem recvTest_byte {s : State} {r : RxRecord} {rest : List RxRecord} (hf : s.uart.rxFifo = r :: rest)
    (ht : s.link.timer ≠ .expired) : s.recvTest = .got r.data ((s.popRx rest).latchMarks r.marks) := by
  unfold State.recvTest
  rw [hf]
  cases h : s.link.timer <;> simp_all

/-- `recv_byte` then answers it, its marks latched (40_serial_link R121). -/
theorem execRecvByte_got {s : State} {r : RxRecord} {rest : List RxRecord} (hf : s.uart.rxFifo = r :: rest)
    (ht : s.link.timer ≠ .expired) :
    exec .recvByte s = .next (((s.popRx rest).latchMarks r.marks).give (.byte r.data)) := by
  simp [exec, execRecvByte, recvTest_byte hf ht]

/-- With nothing waiting, the test finds Timeout exactly when the timer has expired. -/
theorem recvTest_empty {s : State} (hf : s.uart.rxFifo = []) :
    (s.link.timer = .expired ∧ s.recvTest = .expired s.setTimeout) ∨
      (s.link.timer ≠ .expired ∧ s.recvTest = .waiting) := by
  unfold State.recvTest
  rw [hf]
  cases h : s.link.timer <;> simp

/-- With a byte waiting and the timer expired, one of the two outcomes. -/
theorem recvTest_both {s : State} {r : RxRecord} {rest : List RxRecord} (hf : s.uart.rxFifo = r :: rest)
    (ht : s.link.timer = .expired) :
    s.recvTest = .got r.data ((s.drawn.popRx rest).latchMarks r.marks) ∨ s.recvTest = .expired s.drawn.setTimeout := by
  unfold State.recvTest
  rw [hf, ht]
  dsimp only
  split
  · exact .inl rfl
  · exact .inr rfl

/-- A statement `x <- recv_byte()` always takes a next state: the byte is stored, a free byte is, or the statement stays. -/
theorem recvStore_cases {s : State} {put : State → Byte → State} {again : Stmt} {next : List Stmt} :
    (∃ d s', s.recvTest = .got d s' ∧ s.recvStore put again next = .next ((put s' d).push next)) ∨
      (∃ s', s.recvTest = .expired s' ∧
        s.recvStore put again next = .next ((put s'.drawn (Config.freeByte s'.freeCount)).push next)) ∨
      (s.recvTest = .waiting ∧ s.recvStore put again next = .next (s.push [again])) := by
  unfold State.recvStore
  cases h : s.recvTest with
  | got d s' => exact .inl ⟨d, s', rfl, rfl⟩
  | expired s' => exact .inr (.inl ⟨s', rfl, rfl⟩)
  | waiting => exact .inr (.inr ⟨rfl, rfl⟩)

/-- A clean byte waiting, no skip chosen or owed, the timer not expired: it is stored and the rest follows. -/
theorem recvStore_clean {s : State} {d : Byte} {rest : List RxRecord} {put : State → Byte → State} {again : Stmt}
    {next : List Stmt} (hf : s.uart.rxFifo = ⟨d, ⟨false, false⟩⟩ :: rest) (ht : s.link.timer ≠ .expired)
    (hs : s.link.skipNext = ⟨false, false⟩) (ho : s.link.owed = 0) :
    s.recvStore put again next = .next ((put (s.popRx rest) d).push next) := by
  unfold State.recvStore
  rw [recvTest_byte hf ht, latchMarks_clean (by simpa using hs) (by simpa using ho)]

/-! ## The checkpoint -/

/-- The error chosen by priority (40_serial_link R127). -/
theorem choose_cases (l : Link) :
    (l.frameError = true ∧ l.choose = .frameError) ∨
      (l.frameError = false ∧ l.bufferOverflow = true ∧ l.choose = .bufferOverflow) ∨
      (l.frameError = false ∧ l.bufferOverflow = false ∧ l.choose = .timeout) := by
  unfold Link.choose
  cases l.frameError <;> cases l.bufferOverflow <;> simp

/-- No checkpoint is refused where nothing is owed (40_serial_link R130). -/
@[simp] theorem skippedLate_none {l : Link} (h : l.owed = 0) : l.skippedLate = false := by
  simp [Link.skippedLate, h]

/-- What the first statement of `validate` can do. -/
theorem execValidate_cases (s : State) :
    (s.link.skippedLate = true ∧ execValidate s = .refused .skippedLatch) ∨
      (s.link.skippedLate = false ∧ s.link.clear = true ∧ execValidate s = .next ((s.setTimer .idle).give .ok)) ∨
      (s.link.skippedLate = false ∧ s.link.clear = false ∧ execValidate s = .next (s.push [.micro .validateChoose])) := by
  unfold execValidate
  cases s.link.skippedLate <;> cases s.link.clear <;> simp

/-- Where nothing is owed the checkpoint begins. -/
theorem execValidate_next {s : State} (h : s.link.owed = 0) : ∃ v, execValidate s = .next v := by
  rcases execValidate_cases s with ⟨h1, -⟩ | ⟨-, -, h2⟩ | ⟨-, -, h2⟩
  · simp [skippedLate_none h] at h1
  · exact ⟨_, h2⟩
  · exact ⟨_, h2⟩

/-! ## Environment moves -/

/-- A move of the target takes a next state exactly where its contract has it. -/
theorem targetMove_next {m : Move} {e : Bool} {t u : State} (h : targetMove m e t = .next u) : e = true ∧ u = t := by
  unfold targetMove at h
  split at h <;> simp_all

/-- The conditions under which the target may begin a cycle (60_exceptions R319, R320 a, R321). -/
theorem mayStart_iff (s : State) (c : BusCycle) :
    s.mayStart c = true ↔
      s.targetCondition = .running ∧ s.bus.busreq = false ∧ s.env.cycle = none ∧ (s.env.fresh = true → c = .memRead 0) := by
  simp only [State.mayStart, Bool.and_eq_true, beq_iff_eq, Bool.not_eq_true', Bool.or_eq_true, and_assoc]
  cases s.env.fresh <;> simp

/-- A cycle ends only where one is in progress and the target runs. -/
theorem moveCycleEnd_next {s t : State} (h : moveCycleEnd s = .next t) :
    ∃ c, s.env.cycle = some c ∧ s.targetCondition = .running ∧ t = s.finishCycle c := by
  unfold moveCycleEnd at h
  split at h
  · simp at h
  · rename_i c hc
    obtain ⟨he, ht⟩ := targetMove_next h
    exact ⟨c, hc, by simpa using he, ht⟩

/-- The target runs, in the terms of the state's bits (60_exceptions R318). -/
theorem targetCondition_running_iff (s : State) :
    s.targetCondition = .running ↔
      s.bus.tgtReset = false ∧ s.bus.tgtClkRun = true ∧ s.trap.pending = false ∧ s.bus.busack = false := by
  unfold State.targetCondition
  cases s.bus.tgtReset <;> cases s.bus.tgtClkRun <;> cases s.trap.pending <;> cases s.bus.busack <;> simp

end Sys2Proof.Machine
end

