-- ==== Sys2Proof/Laws/PerInstr.lean ====
section
/-! SUPPORT. Facts about each instruction as syntax, one lemma per constructor. -/

namespace Sys2Proof.Laws

/-- A wire form has at least one byte and at most its format's most: a BLOCK frame 258 (30_encoding R96, R111). -/
def WireForm.Statement (i : Instr) : Prop :=
  i.wellFormed = true → ∀ f bs, encode i = some (f, bs) → 1 ≤ bs.length ∧ bs.length ≤ formatBytes f

/-- An operation without a wire form. -/
theorem wireForm_none {i : Instr} (h : encode i = none) : WireForm.Statement i := by
  intro _ f bs he; simp [h] at he

/-- An operation encoded in one byte. -/
theorem wireForm_one {i : Instr} {g : Format} {b : Byte} (h : encode i = some (g, [b])) : WireForm.Statement i := by
  intro _ f bs he
  rw [h] at he
  cases he
  cases g <;> simp [formatBytes]

theorem WireForm.loadBinary : WireForm.Statement .loadBinary := wireForm_one rfl
theorem WireForm.echo : WireForm.Statement .echo := wireForm_one rfl
theorem WireForm.uploadToRam : WireForm.Statement .uploadToRam := wireForm_one rfl
theorem WireForm.downloadFromRam : WireForm.Statement .downloadFromRam := wireForm_one rfl
theorem WireForm.unknown (b : Byte) : WireForm.Statement (.unknown b) := wireForm_one rfl
theorem WireForm.statusOk : WireForm.Statement .statusOk := wireForm_one rfl
theorem WireForm.statusTimeout : WireForm.Statement .statusTimeout := wireForm_one rfl
theorem WireForm.statusInvalidSize : WireForm.Statement .statusInvalidSize := wireForm_one rfl
theorem WireForm.statusChecksumFailed : WireForm.Statement .statusChecksumFailed := wireForm_one rfl
theorem WireForm.statusUnknownCommand : WireForm.Statement .statusUnknownCommand := wireForm_one rfl
theorem WireForm.statusFrameError : WireForm.Statement .statusFrameError := wireForm_one rfl
theorem WireForm.statusBufferOverflow : WireForm.Statement .statusBufferOverflow := wireForm_one rfl
theorem WireForm.statusReserved (b : Byte) : WireForm.Statement (.statusReserved b) := wireForm_one rfl
theorem WireForm.port0Write : WireForm.Statement .port0Write := wireForm_one rfl
theorem WireForm.port0Read : WireForm.Statement .port0Read := wireForm_one rfl
theorem WireForm.port1Read : WireForm.Statement .port1Read := wireForm_one rfl
theorem WireForm.port1Write : WireForm.Statement .port1Write := wireForm_one rfl
theorem WireForm.port2Read : WireForm.Statement .port2Read := wireForm_one rfl
theorem WireForm.port2Write : WireForm.Statement .port2Write := wireForm_one rfl
theorem WireForm.portUnknown (dir : IoDir) (port : Port) : WireForm.Statement (.portUnknown dir port) := wireForm_one rfl
theorem WireForm.ledDisable : WireForm.Statement .ledDisable := wireForm_one rfl
theorem WireForm.ledEnable : WireForm.Statement .ledEnable := wireForm_one rfl
theorem WireForm.ledSelectLed : WireForm.Statement .ledSelectLed := wireForm_one rfl
theorem WireForm.ledSelectSwitch : WireForm.Statement .ledSelectSwitch := wireForm_one rfl
theorem WireForm.ledNone (b : Byte) : WireForm.Statement (.ledNone b) := wireForm_one rfl
theorem WireForm.size (hi lo : Byte) : WireForm.Statement (.size hi lo) := by
  intro _ f bs he
  cases he
  simp [formatBytes]
theorem WireForm.block (lb : Byte) (payload : List Byte) (ck : Byte) : WireForm.Statement (.block lb payload ck) := by
  intro hw f bs he
  cases he
  have hp : payload.length = lb.toNat + 1 := by simpa [Instr.wellFormed] using hw
  simp only [List.length_append, List.length_cons, List.length_nil, hp, formatBytes]
  omega
theorem WireForm.fetch : WireForm.Statement .fetch := wireForm_none rfl
theorem WireForm.dispatch : WireForm.Statement .dispatch := wireForm_none rfl
theorem WireForm.loadFailure : WireForm.Statement .loadFailure := wireForm_none rfl
theorem WireForm.loadSuccess : WireForm.Statement .loadSuccess := wireForm_none rfl
theorem WireForm.loadProtocol : WireForm.Statement .loadProtocol := wireForm_none rfl
theorem WireForm.armTimeout (n : Nat) : WireForm.Statement (.armTimeout n) := wireForm_none rfl
theorem WireForm.recvByte : WireForm.Statement .recvByte := wireForm_none rfl
theorem WireForm.sendByte (b : Byte) : WireForm.Statement (.sendByte b) := wireForm_none rfl
theorem WireForm.flushInput : WireForm.Statement .flushInput := wireForm_none rfl
theorem WireForm.validate : WireForm.Statement .validate := wireForm_none rfl
theorem WireForm.timer (op : TimerOp) : WireForm.Statement (.timer op) := wireForm_none rfl
theorem WireForm.receiveBlock (maxSize : Byte) : WireForm.Statement (.receiveBlock maxSize) := wireForm_none rfl
theorem WireForm.sendBlock (bytes : List Byte) : WireForm.Statement (.sendBlock bytes) := wireForm_none rfl
theorem WireForm.acquireBus : WireForm.Statement .acquireBus := wireForm_none rfl
theorem WireForm.releaseBus : WireForm.Statement .releaseBus := wireForm_none rfl
theorem WireForm.writeByteAt (addr : Addr) (value : Byte) : WireForm.Statement (.writeByteAt addr value) := wireForm_none rfl
theorem WireForm.readByteAt (addr : Addr) : WireForm.Statement (.readByteAt addr) := wireForm_none rfl
theorem WireForm.inject (form : InjectForm) (base : Addr) (bytes : List Byte) : WireForm.Statement (.inject form base bytes) :=
  wireForm_none rfl
theorem WireForm.readRegion (count : Nat) : WireForm.Statement (.readRegion count) := wireForm_none rfl
theorem WireForm.switchBank (index : Byte) : WireForm.Statement (.switchBank index) := wireForm_none rfl
theorem WireForm.trapEntry : WireForm.Statement .trapEntry := wireForm_none rfl
theorem WireForm.ioTrapDispatcher : WireForm.Statement .ioTrapDispatcher := wireForm_none rfl
theorem WireForm.completeTrap : WireForm.Statement .completeTrap := wireForm_none rfl
theorem WireForm.trapReturn : WireForm.Statement .trapReturn := wireForm_none rfl

end Sys2Proof.Laws
end

