-- ==== Sys2Proof/Tests/Slice0.lean ====
section
/-! SUPPORT. Tests: ill-formed terms, words written out from 30_encoding, single steps from 95_test_vectors, and for every
statement with hypotheses a state and operands that meet them. -/

namespace Sys2Proof.Tests

open Sys2Proof.Machine

/-! ## Ill-formed terms are refused -/

/-- R92, R101: 1 to 4 are commands, not Unknown. -/
theorem test_unknown_one_ill_formed : (Instr.unknown 1).wellFormed = false := by decide
theorem test_unknown_four_ill_formed : (Instr.unknown 4).wellFormed = false := by decide
/-- R102: 6 is BufferOverflow. -/
theorem test_reserved_status_six_ill_formed : (Instr.statusReserved 6).wellFormed = false := by decide
/-- R105: port 2 is known. -/
theorem test_unknown_port_two_ill_formed : (Instr.portUnknown .read 2).wellFormed = false := by decide
/-- R106: 3 selects switch mode. -/
theorem test_led_none_three_ill_formed : (Instr.ledNone 3).wellFormed = false := by decide
/-- R97: length byte 1 has two payload bytes. -/
theorem test_short_block_ill_formed : (Instr.block 1 [0xAA] 0xAA).wellFormed = false := by decide
/-- R123: 1 to 257. -/
theorem test_arm_timeout_zero_ill_formed : (Instr.armTimeout 0).wellFormed = false := by decide
theorem test_arm_timeout_258_ill_formed : (Instr.armTimeout 258).wellFormed = false := by decide
/-- R124: a timer is armed with at least 1 tick. -/
theorem test_timer_arm_zero_ill_formed : (Instr.timer (.arm 0)).wellFormed = false := by decide
/-- R124: and with at most `TIMER_MAX`. -/
theorem test_timer_arm_above_max_ill_formed : (Instr.timer (.arm (Config.timerMax + 1))).wellFormed = false := by
  simp [Instr.wellFormed]
/-- R151: 1 to 256 bytes. -/
theorem test_send_block_empty_ill_formed : (Instr.sendBlock []).wellFormed = false := by decide
theorem test_send_block_257_ill_formed : (Instr.sendBlock (List.replicate 257 0)).wellFormed = false := by
  simp only [Instr.wellFormed, List.length_replicate]
  decide
/-- R175: 1 to 256 bytes. -/
theorem test_read_region_zero_ill_formed : (Instr.readRegion 0).wellFormed = false := by decide
theorem test_read_region_257_ill_formed : (Instr.readRegion 257).wellFormed = false := by decide

/-! ## Words of 30_encoding -/

-- R92: the command is the whole byte
theorem test_decode_load_binary : decode .cmd [0b00000001] = .ok (.loadBinary, []) := by rfl
theorem test_decode_echo : decode .cmd [0b00000010] = .ok (.echo, []) := by rfl
theorem test_decode_upload : decode .cmd [0b00000011] = .ok (.uploadToRam, []) := by rfl
theorem test_decode_download : decode .cmd [0b00000100] = .ok (.downloadFromRam, []) := by rfl
theorem test_decode_unknown : decode .cmd [0b01111111] = .ok (.unknown 0x7F, []) := by rfl
theorem test_decode_unknown_zero : decode .cmd [0b00000000] = .ok (.unknown 0, []) := by rfl
-- R94: the codes
theorem test_decode_ok : decode .status [0b00000000] = .ok (.statusOk, []) := by rfl
theorem test_decode_timeout : decode .status [0b00000001] = .ok (.statusTimeout, []) := by rfl
theorem test_decode_invalid_size : decode .status [0b00000010] = .ok (.statusInvalidSize, []) := by rfl
theorem test_decode_checksum_failed : decode .status [0b00000011] = .ok (.statusChecksumFailed, []) := by rfl
theorem test_decode_unknown_command : decode .status [0b00000100] = .ok (.statusUnknownCommand, []) := by rfl
theorem test_decode_frame_error : decode .status [0b00000101] = .ok (.statusFrameError, []) := by rfl
theorem test_decode_buffer_overflow : decode .status [0b00000110] = .ok (.statusBufferOverflow, []) := by rfl
theorem test_decode_reserved_status : decode .status [0b00000111] = .ok (.statusReserved 7, []) := by rfl
-- R104, R105: bit 4 is 1 for Write, bits 3..0 the port
theorem test_decode_port0_write : decode .ioreq [0b10000] = .ok (.port0Write, []) := by rfl
theorem test_decode_port0_read : decode .ioreq [0b00000] = .ok (.port0Read, []) := by rfl
theorem test_decode_port1_write : decode .ioreq [0b10001] = .ok (.port1Write, []) := by rfl
theorem test_decode_port1_read : decode .ioreq [0b00001] = .ok (.port1Read, []) := by rfl
theorem test_decode_port2_write : decode .ioreq [0b10010] = .ok (.port2Write, []) := by rfl
theorem test_decode_port2_read : decode .ioreq [0b00010] = .ok (.port2Read, []) := by rfl
theorem test_decode_port15_write : decode .ioreq [0b11111] = .ok (.portUnknown .write 15, []) := by rfl
theorem test_decode_port3_read : decode .ioreq [0b00011] = .ok (.portUnknown .read 3, []) := by rfl
theorem test_decode_six_bits_refused : decode .ioreq [0b100000] = .error .notIoreq := by rfl
-- R106: the values decided in R7
theorem test_decode_led_disable : decode .ledcmd [0b00000000] = .ok (.ledDisable, []) := by rfl
theorem test_decode_led_enable : decode .ledcmd [0b00000001] = .ok (.ledEnable, []) := by rfl
theorem test_decode_led_select_led : decode .ledcmd [0b00000010] = .ok (.ledSelectLed, []) := by rfl
theorem test_decode_led_select_switch : decode .ledcmd [0b00000011] = .ok (.ledSelectSwitch, []) := by rfl
theorem test_decode_led_none : decode .ledcmd [0b00000100] = .ok (.ledNone 4, []) := by rfl
-- R95: high byte first; R96: length byte, payload, checksum (95_test_vectors 2.5, E2)
theorem test_decode_size : decode .size [0x01, 0x2C] = .ok (.size 0x01 0x2C, []) := by rfl
theorem test_decode_block : decode .block [0x01, 0xAA, 0x55, 0xFF] = .ok (.block 0x01 [0xAA, 0x55] 0xFF, []) := by rfl
theorem test_decode_short_frame_refused : decode .block [0x01, 0xAA, 0x55] = .error .shortFrame := by rfl
/-- A table word counts its bits from the first byte: size 300 is `01 2C`, the first byte lowest. -/
theorem test_table_word_size : decodeTableWord 16 0x2C01 = some (.size 0x01 0x2C) := by rfl

/-! ## States -/

/-- What a next state shows. -/
def after {α : Type} (r : Result) (f : State → α) : Option α :=
  match r with
  | .next t => some (f t)
  | .fault _ => none
  | .refused _ => none

/-- The startup state with records `l` waiting. -/
def received (l : List RxRecord) : State := { State.reset with uart.rxFifo := l }

/-- A byte received without a mark. -/
def clean (d : Byte) : RxRecord := ⟨d, ⟨false, false⟩⟩

/-- The startup state with the foreground at `pc`. -/
def at_ (pc : List Stmt) : State := { State.reset with fg.pc := pc }

/-- The startup state with the moves `ms` scheduled. -/
def moving (ms : List Move) : State := { State.reset with schedule := ms }

/-- The startup state with the bus granted. -/
def granted : State := { State.reset with bus.busreq := true, bus.busack := true }

/-- The dispatcher has entered for a request with data byte `d`. -/
def trapped (dir : IoDir) (port : Port) (d : Byte) : State :=
  { State.reset with trap.inTrap := true, trap.ioDir := dir, trap.ioPort := port, trap.ioData := d }

/-- A frozen target. -/
def frozen (dir : IoDir) (port : Port) (d : Byte) : State :=
  { State.reset with trap.pending := true, env.iotrap := true, env.pa := port, env.rw := dir, env.dataIn := d }

/-! ## One step per operation -/

-- CMD: R202, R203, R205, R206, R204
theorem test_load_binary_stops_the_clock : after (exec .loadBinary State.reset) (·.bus.tgtClkRun) = some false := by rfl
theorem test_echo_arms_one_byte :
    after (exec .echo State.reset) (fun t => t.fg.pc.head?) = some (some (.micro (.armClamp (1 * Config.ticksPerByte)))) := by
  rfl
theorem test_upload_receives_with_limit_16 :
    after (exec .uploadToRam State.reset) (fun t => t.fg.pc.contains (.micro (.blockChecked 16))) = some true := by rfl
theorem test_download_requests_the_bus : after (exec .downloadFromRam State.reset) (·.bus.busreq) = some true := by rfl
theorem test_unknown_flushes : after (exec (.unknown 7) (received [clean 8, clean 9])) (·.uart.rxFifo) = some [] := by rfl
-- STATUS: R94
theorem test_status_ok : after (exec .statusOk (at_ [])) (·.fg.pc) = some [.micro (.txWrite 0)] := by rfl
theorem test_status_timeout : after (exec .statusTimeout (at_ [])) (·.fg.pc) = some [.micro (.txWrite 1)] := by rfl
theorem test_status_invalid_size : after (exec .statusInvalidSize (at_ [])) (·.fg.pc) = some [.micro (.txWrite 2)] := by
  rfl
theorem test_status_checksum_failed :
    after (exec .statusChecksumFailed (at_ [])) (·.fg.pc) = some [.micro (.txWrite 3)] := by rfl
theorem test_status_unknown_command :
    after (exec .statusUnknownCommand (at_ [])) (·.fg.pc) = some [.micro (.txWrite 4)] := by rfl
theorem test_status_frame_error : after (exec .statusFrameError (at_ [])) (·.fg.pc) = some [.micro (.txWrite 5)] := by rfl
theorem test_status_buffer_overflow :
    after (exec .statusBufferOverflow (at_ [])) (·.fg.pc) = some [.micro (.txWrite 6)] := by rfl
theorem test_status_reserved_refused : exec (.statusReserved 7) State.reset = .refused (.reservedStatus 7) := by rfl
-- 95_test_vectors 2.6, by its line numbers
theorem test_port0_write_line_15 : after (exec .port0Write (trapped .write 0 0x48)) (·.uart.txReg) = some (some 0x48) := by
  rfl
theorem test_port0_read_line_17 : after (exec .port0Read (trapped .read 0 0)) (·.bus.dataDir) = some .inp := by rfl
theorem test_port1_read_line_1 :
    after (exec .port1Read { trapped .read 1 0 with port1.ext := true }) (fun t => (t.bus.dataDir, t.bus.dataOut)) =
      some (.out, 1) := by rfl
theorem test_port1_read_line_3 :
    after (exec .port1Read { trapped .read 1 0 with port1 := ⟨.out, false, true⟩ }) (·.bus.dataOut) = some 0 := by rfl
theorem test_port1_write_line_5 :
    after (exec .port1Write (trapped .write 1 1)) (fun t => (t.port1.out, t.port1.dir)) = some (true, .out) := by rfl
theorem test_port1_write_line_9 :
    after (exec .port1Write (trapped .write 1 0x7F)) (·.port1) = some ⟨.inp, false, false⟩ := by rfl
theorem test_port2_read_line_13 :
    after (exec .port2Read { trapped .read 2 0 with bank.bankIndex := 5 }) (fun t => (t.bus.dataDir, t.bus.dataOut)) =
      some (.out, 5) := by rfl
theorem test_port2_write_line_14 : after (exec .port2Write (trapped .write 2 0xFF)) (·.bank) = some ⟨0xFF, 0xFF⟩ := by rfl
theorem test_port_unknown_line_18 : exec (.portUnknown .write 9) (trapped .write 9 0x33) = .next (trapped .write 9 0x33) := by
  rfl
theorem test_led_disable_line_7 :
    after (exec .ledDisable { State.reset with port1 := ⟨.out, true, true⟩ }) (·.port1) = some ⟨.out, false, true⟩ := by rfl
theorem test_led_enable_falls_through : after (exec .ledEnable State.reset) (·.port1) = some ⟨.out, true, false⟩ := by rfl
theorem test_led_select_led_line_2 : after (exec .ledSelectLed State.reset) (·.port1) = some ⟨.out, false, false⟩ := by rfl
theorem test_led_select_switch_line_4 :
    after (exec .ledSelectSwitch { State.reset with port1.dir := .out }) (·.port1.dir) = some .inp := by rfl
theorem test_led_none_line_9 : exec (.ledNone 4) State.reset = .next State.reset := by rfl
-- 2.5: total_size 257 is two blocks, 65281 is 256
theorem test_size_257 : after (exec (.size 0x01 0x01) State.reset) (·.img.blockCount) = some 2 := by rfl
theorem test_size_65281 : after (exec (.size 0xFF 0x01) State.reset) (·.img.blockCount) = some 256 := by rfl
-- E4: the computed checksum of the flipped payload is 32
theorem test_block_xor : after (exec (.block 3 [0xCE, 0xAD, 0xBE, 0xEF] 0x22) State.reset) (·.blk.xor) = some 0x32 := by rfl
-- R200, R201
theorem test_fetch_takes_the_oldest : after (exec .fetch (received [clean 4, clean 5])) (·.fg.cmd) = some 4 := by rfl
theorem test_dispatch_goes_to_the_label :
    after (exec .dispatch { State.reset with fg.cmd := 3 }) (·.fg.pc) = some [.command 3] := by rfl
-- R207, R208, R230
theorem test_failure_ending_stops_the_clock : after (exec .loadFailure State.reset) (·.bus.tgtClkRun) = some false := by rfl
theorem test_success_ending_enables_the_trap :
    after (exec .loadSuccess { State.reset with trap.enable := false }) (·.trap.enable) = some true := by rfl
theorem test_load_protocol_awaits_size :
    after (exec .loadProtocol { State.reset with img.loadState := .aborted }) (·.img.loadState) = some .awaitSize := by rfl
-- 2.1
theorem test_arm_timeout_multiplies :
    after (exec (.armTimeout 2) (at_ [])) (·.fg.pc) = some [.micro (.armClamp (2 * Config.ticksPerByte))] := by rfl
theorem test_arm_timeout_clamps :
    after (runMicro (.armClamp (Config.timerMax + 5)) (at_ [])) (·.fg.pc) = some [.op (.timer (.arm Config.timerMax))] := by
  simp [after, runMicro, microArmClamp, at_, State.reset]
theorem test_recv_byte_latches_a_frame_error :
    after (exec .recvByte (received [⟨0x41, ⟨true, false⟩⟩])) (fun t => (t.fg.ret, t.link.frameError)) =
      some (.byte 0x41, true) := by
  show some (Ret.byte 0x41, (((received [⟨0x41, ⟨true, false⟩⟩]).popRx []).latchMarks ⟨true, false⟩).link.frameError) = _
  rw [(latchMarks_flags ((received [⟨0x41, ⟨true, false⟩⟩]).popRx []) ⟨true, false⟩ (.inr rfl)).1]
  rfl
theorem test_recv_byte_times_out :
    after (exec .recvByte { State.reset with link.timer := .expired }) (fun t => (t.fg.ret, t.link.timeout)) =
      some (.timeout, true) := by rfl
theorem test_send_byte_waits_while_occupied :
    after (exec (.sendByte 0x42) { at_ [] with uart.txReg := some 0x41 }) (·.fg.pc) = some [.op (.sendByte 0x42)] := by rfl
theorem test_flush_input :
    after (exec .flushInput { received [clean 0x10, ⟨0x20, ⟨true, false⟩⟩] with uart.rxLost := true }) (·.uart) =
      some ⟨[], false, none⟩ := by rfl
theorem test_validate_ok_stops_the_timer :
    after (exec .validate { State.reset with link.timer := .running 7 }) (fun t => (t.fg.ret, t.link.timer)) =
      some (.ok, .idle) := by rfl
theorem test_validate_chooses_frame_error :
    after (runMicro .validateChoose { at_ [] with link.frameError := true, link.timeout := true }) (·.fg.pc) =
      some [.op .flushInput, .op .statusFrameError, .micro .validateClear,
        .micro (.giveResult (.err .frameError))] := by rfl
theorem test_timer_tick_expires :
    after (exec (.timer .tick) { State.reset with link.timer := .running 1 }) (·.link.timer) = some .expired := by rfl
theorem test_timer_expired_answers :
    after (exec (.timer .expired) { State.reset with link.timer := .running 1 }) (·.fg.ret) = some (.flag false) := by rfl
-- 2.2
theorem test_receive_block_arms_one_byte :
    after (exec (.receiveBlock 16) State.reset) (fun t => t.fg.pc.head?) =
      some (some (.micro (.armClamp (1 * Config.ticksPerByte)))) := by rfl
theorem test_length_above_the_limit_is_refused :
    after (runMicro (.blockLength 16) { at_ [] with blk.lb := 17 }) (fun t => t.fg.pc.head?) = some (some (.op .flushInput)) := by
  rfl
theorem test_send_block_begins_with_the_length_byte :
    after (exec (.sendBlock [0xAA, 0x55]) (at_ [])) (fun t => t.fg.pc.head?) = some (some (.micro (.txWrite 1))) := by rfl
-- 2.3
theorem test_acquire_bus_requests : after (exec .acquireBus State.reset) (·.bus.busreq) = some true := by rfl
theorem test_release_bus_withdraws : after (exec .releaseBus granted) (·.bus.busreq) = some false := by rfl
theorem test_write_byte_at_top : after (exec (.writeByteAt 0xFFFF 1) granted) (·.bus.addrOut) = some 0xFFFF := by rfl
theorem test_write_then_read : after (exec (.writeByteAt 3 0xC3) granted) (·.memByte 3) = some 0xC3 := by
  have h : granted.owner = .controllerOwned := by rfl
  simp [after, exec, execWriteByteAt, requireOwner_controller h, State.memByte, State.location, State.writeCycle,
    State.setMemByte]
  exact memRead_memWrite_same (m := []) (by simp [memWf]) _ _
theorem test_write_without_the_bus_faults :
    exec (.writeByteAt 3 0xC3) { State.reset with bus.busack := true } = .fault .driveWhileNotOwner := by rfl
theorem test_read_byte_at_releases_the_lines :
    after (exec (.readByteAt 3) granted) (fun t => (t.bus.addrDir, t.bus.memctlDir, t.bus.memOe)) =
      some (.inp, .inp, false) := by rfl
theorem test_inject_raw_wraps :
    after (exec (.inject .raw 0xFFFF [0x22, 0x33]) { granted with fg.pc := [] }) (·.fg.pc) =
      some [.op (.inject .raw 0 [0x33])] := by rfl
theorem test_inject_image_requests : after (exec (.inject (.image true) 0 [1]) State.reset) (·.bus.busreq) = some true := by
  rfl
theorem test_read_region_requests : after (exec (.readRegion 16) State.reset) (·.bus.busreq) = some true := by rfl
theorem test_switch_bank : after (exec (.switchBank 2) granted) (·.bank) = some ⟨2, 2⟩ := by rfl
-- 2.7
theorem test_trap_entry_samples :
    after (exec .trapEntry (frozen .write 2 7)) (fun t => (t.trap.inTrap, t.trap.ioPort, t.trap.ioDir, t.trap.ioData)) =
      some (true, 2, .write, 7) := by rfl
theorem test_dispatcher_enters : after (exec .ioTrapDispatcher (frozen .read 2 0)) (·.trap.pos) = some .dispatchPort := by rfl
theorem test_complete_trap_requests : after (exec .completeTrap (trapped .read 2 0)) (·.bus.busreq) = some true := by rfl
theorem test_trap_return : after (exec .trapReturn (trapped .read 2 0)) (·.trap.inTrap) = some false := by rfl

/-! ## States and operands that meet the hypotheses of each statement -/

/-- The startup state is quiet wherever the foreground is. -/
theorem test_at_quiet (pc : List Stmt) : (at_ pc).Quiet := ⟨rfl, rfl, .inr rfl⟩

/-- The startup state with any moves. -/
theorem test_moving_scheduled (ms : List Move) : (moving ms).Scheduled ms := ⟨rfl, rfl, .inr rfl⟩

/-- A running target. -/
theorem test_moving_target_runs (ms : List Move) : TargetRuns (moving ms) := ⟨rfl, rfl, rfl, rfl, rfl⟩

/-- What the reception statements ask of SerialLink, the UART and the wire. -/
theorem test_moving_serial_idle (ms : List Move) : (moving ms).SerialIdle ∧ (moving ms).uart.txReg = none :=
  ⟨⟨rfl, rfl, rfl, rfl, rfl, rfl⟩, rfl⟩

theorem test_witness_decode_reads_back :
    (Instr.block 0 [0x5A] 0x5A).wellFormed = true ∧ encode (.block 0 [0x5A] 0x5A) = some (.block, [0, 0x5A, 0x5A]) := by
  decide

theorem test_witness_decoded_bytes : decode .cmd [4, 9] = .ok (.downloadFromRam, [9]) := by rfl

theorem test_witness_command_byte :
    ((at_ [.command 1]).Quiet ∧ (at_ [.command 1]).fg.pc = [.command 1]) ∧
      ((at_ [.command 4]).Quiet ∧ (at_ [.command 4]).fg.pc = [.command 4]) ∧
      ((at_ [.command 2]).Quiet ∧ (at_ [.command 2]).fg.pc = [.command 2]) ∧
      ((at_ [.command 3]).Quiet ∧ (at_ [.command 3]).fg.pc = [.command 3]) ∧
      ((at_ [.command 0]).Quiet ∧ (at_ [.command 0]).fg.pc = [.command 0]) ∧
      (at_ [.command 5]).Quiet ∧ (at_ [.command 5]).fg.pc = [.command 5] :=
  ⟨⟨test_at_quiet _, rfl⟩, ⟨test_at_quiet _, rfl⟩, ⟨test_at_quiet _, rfl⟩, ⟨test_at_quiet _, rfl⟩, ⟨test_at_quiet _, rfl⟩,
    test_at_quiet _, rfl⟩

theorem test_witness_step_runs_operation : (at_ [.op .fetch]).Quiet ∧ (at_ [.op .fetch]).fg.pc = [.op .fetch] :=
  ⟨test_at_quiet _, rfl⟩

theorem test_witness_step_runs_command :
    (at_ [.command 0xFF]).Quiet ∧ (at_ [.command 0xFF]).fg.pc = [.command 0xFF] ∧
      decode .cmd [0xFF] = .ok (.unknown 0xFF, []) := ⟨test_at_quiet _, rfl, rfl⟩

theorem test_witness_step_runs_size :
    (at_ [.sizeField]).Quiet ∧ (at_ [.sizeField]).fg.pc = [.sizeField] ∧
      decode .size [(at_ [.sizeField]).fg.sizeHi, (at_ [.sizeField]).fg.sizeLo] = .ok (.size 0 0, []) :=
  ⟨test_at_quiet _, rfl, rfl⟩

theorem test_witness_step_runs_block :
    (at_ [.blockField]).Quiet ∧ (at_ [.blockField]).fg.pc = [.blockField] ∧
      decode .block (at_ [.blockField]).frameBytes = .ok (.block 0 [0] 0, []) := ⟨test_at_quiet _, rfl, by rfl⟩

theorem test_witness_step_runs_port :
    (trapped .write 2 7).schedule = [] ∧ (trapped .write 2 7).trap.inTrap = true ∧
      (trapped .write 2 7).trap.pos = .dispatchPort ∧
      decode .ioreq [ioreqWord (trapped .write 2 7).trap.ioDir (trapped .write 2 7).trap.ioPort] = .ok (.port2Write, []) :=
  ⟨rfl, rfl, rfl, by rfl⟩

/-- A state with a flag set and a tick to come, which meets the invariant and takes a step. -/
def ticking : State := { moving [.tick] with link.frameError := true }

theorem test_witness_invariant : ticking.Inv ∧ ∃ t, step ticking = .next t := by
  refine ⟨⟨by simp [memWf, ticking, moving, State.reset], by decide, by decide, trivial, rfl, rfl, ⟨rfl, rfl, rfl⟩, by decide,
    by decide, rfl, by decide, by decide, by decide, by decide, rfl, by decide⟩, _, rfl⟩

theorem test_witness_arm_timeout :
    (at_ []).Quiet ∧ 0 * Config.ticksPerByte ≤ Config.timerMax ∧ Config.timerMax < (Config.timerMax + 1) * Config.ticksPerByte ∧
      (∃ s : State, s.link.timer = .running (0 + 2)) ∧ (∃ s : State, s.link.timer = .running 1) ∧
      ∃ s : State, s.link.timer = .idle ∨ s.link.timer = .expired := by
  refine ⟨test_at_quiet _, by simp, ?_, ⟨{ State.reset with link.timer := .running 2 }, rfl⟩,
    ⟨{ State.reset with link.timer := .running 1 }, rfl⟩, ⟨State.reset, .inl rfl⟩⟩
  exact Nat.lt_of_lt_of_le (Nat.lt_succ_self _) (Nat.le_mul_of_pos_right _ (Nat.succ_pos _))

theorem test_witness_timer_expires :
    (1 ≤ 1 ∧ { moving [.tick] with link.timer := .running 1 }.link.timer = .running 1 ∧
      { moving [.tick] with link.timer := .running 1 }.schedule = List.replicate 1 .tick ++ []) := ⟨by decide, rfl, rfl⟩

theorem test_witness_recv_byte :
    ((received [⟨0x41, ⟨true, true⟩⟩, clean 0x42]).uart.rxFifo = [⟨0x41, ⟨true, true⟩⟩, clean 0x42] ∧
        (received [⟨0x41, ⟨true, true⟩⟩, clean 0x42]).link.timer ≠ .expired) ∧
      ({ State.reset with link.timer := .expired }.uart.rxFifo = [] ∧
        { State.reset with link.timer := .expired }.link.timer = .expired) ∧
      (State.reset.uart.rxFifo = [] ∧ State.reset.link.timer ≠ .expired) ∧
      { received [clean 0x41] with link.timer := .expired }.uart.rxFifo = [clean 0x41] ∧
      { received [clean 0x41] with link.timer := .expired }.link.timer = .expired :=
  ⟨⟨rfl, by decide⟩, ⟨rfl, rfl⟩, ⟨rfl, by decide⟩, rfl, rfl⟩

theorem test_witness_send_byte :
    ((at_ []).Quiet ∧ (at_ []).uart.txReg = none) ∧
      { moving [.tx] with uart.txReg := some 0x41 }.Scheduled [.tx] ∧
      { moving [.tx] with uart.txReg := some 0x41 }.uart.txReg = some 0x41 :=
  ⟨⟨test_at_quiet _, rfl⟩, ⟨rfl, rfl, .inr rfl⟩, rfl⟩

theorem test_witness_reserved_status : (6 : Byte) < 7 := by decide

/-- The startup state with the moves `ms`, one byte on the host's wire and `n` records waiting. -/
def arriving (ms : List Move) (n : Nat) : State :=
  { moving ms with env.rxWire := [⟨0x41, true⟩], uart.rxFifo := List.replicate n (clean 1) }

theorem test_witness_uart_moves :
    (moving [.hostSend 0x41 true]).schedule = .hostSend 0x41 true :: [] ∧
      (∀ n ≤ 3, (arriving [.rx] n).schedule = .rx :: [] ∧ (arriving [.rx] n).env.rxWire = ⟨0x41, true⟩ :: [] ∧
        ((arriving [.rx] n).uart.rxFifo.length < 2 ∨ 2 ≤ (arriving [.rx] n).uart.rxFifo.length)) ∧
      ({ moving [.tx] with uart.txReg := some 0x41 }.schedule = .tx :: [] ∧
        { moving [.tx] with uart.txReg := some 0x41 }.uart.txReg = some 0x41) ∧
      { moving [.hostTake] with env.txWire := [0x41] }.schedule = .hostTake :: [] ∧
      { moving [.hostTake] with env.txWire := [0x41] }.env.txWire = 0x41 :: [] :=
  ⟨rfl, fun n _ => ⟨rfl, rfl, by omega⟩, ⟨rfl, rfl⟩, rfl, rfl⟩

/-- The startup state with the three sticky flags as given. -/
def flagged (fe ovf tmo : Bool) : State :=
  { State.reset with link := ⟨fe, ovf, tmo, .expired, ⟨false, false⟩, 0⟩ }

theorem test_witness_validate :
    ((flagged false false false).link.owed = 0 ∧ (flagged false false false).link.clear = true) ∧
      ∀ fe ovf tmo : Bool, (flagged fe ovf tmo).link.owed = 0 ∧ (flagged fe ovf tmo).Quiet ∧
        (flagged fe ovf tmo).uart.txReg = none ∧ (flagged fe ovf tmo).link.frameError = fe ∧
        (flagged fe ovf tmo).link.bufferOverflow = ovf ∧ (flagged fe ovf tmo).link.timeout = tmo :=
  ⟨⟨rfl, rfl⟩, fun _ _ _ => ⟨rfl, ⟨rfl, rfl, .inr rfl⟩, rfl, rfl, rfl, rfl⟩⟩

/-- One and two marked bytes are consumed with no skip chosen, and each time the checkpoint is reached. -/
theorem test_witness_marks_reach_the_checkpoint :
    ∃ t, exec .recvByte (received [⟨1, ⟨true, false⟩⟩]) = .next t ∧ (∃ v, exec .validate t = .next v) ∧
      ∃ u, exec .recvByte { t with uart.rxFifo := [⟨2, ⟨false, true⟩⟩], link.skipNext := ⟨false, false⟩ } = .next u ∧
        ∃ v, exec .validate u = .next v := by
  have owed {s : State} (m : RxMarks) (h : s.link.skipNext = ⟨false, false⟩) (ho : s.link.owed = 0) :
      (s.latchMarks m).link.owed = 0 := Nat.le_zero.1 (ho ▸ latchMarks_owed_le h m)
  have timer : (((received [⟨1, ⟨true, false⟩⟩]).popRx []).latchMarks ⟨true, false⟩).link.timer = .idle :=
    (latchMarks_keeps_flags _ _).2.2.2
  refine ⟨_, rfl, execValidate_next (owed _ rfl rfl), _, execRecvByte_got rfl ?_, execValidate_next ?_⟩
  · show (((received [⟨1, ⟨true, false⟩⟩]).popRx []).latchMarks ⟨true, false⟩).link.timer ≠ .expired
    rw [timer]
    decide
  · exact owed _ rfl (owed _ rfl rfl)

/-- Three bytes of which the first may lose an assignment, and a byte owed. -/
theorem test_witness_earlier_marks :
    ((received [⟨1, ⟨true, true⟩⟩, clean 2]).uart.rxFifo = [⟨1, ⟨true, true⟩⟩, clean 2] ∧
        (received [⟨1, ⟨true, true⟩⟩, clean 2]).link.timer ≠ .expired ∧
        (received [⟨1, ⟨true, true⟩⟩, clean 2]).link.owed ≤ 2) ∧
      { State.reset with link.owed := 1 }.link.owed ≠ 0 := by decide

theorem test_witness_sticky_flags :
    (ticking.link.frameError = true ∧ ∃ t, step ticking = .next t) ∧
      (∃ t, step { at_ [.op .recvByte] with link.timer := .expired } = .next t ∧ t.link.timeout = true) ∧
      ∃ t, step (received [⟨1, ⟨true, true⟩⟩]) = .next t ∧ t.link.frameError = true ∧ t.link.bufferOverflow = true :=
  ⟨⟨rfl, _, rfl⟩, ⟨_, rfl, rfl⟩, _, rfl,
    ((latchMarks_flags ((received [⟨1, ⟨true, true⟩⟩]).popRx []) ⟨true, true⟩ (.inr rfl)).1.trans rfl),
    ((latchMarks_flags ((received [⟨1, ⟨true, true⟩⟩]).popRx []) ⟨true, true⟩ (.inr rfl)).2.trans rfl)⟩

/-- The smallest and the largest frame (95_test_vectors 2.2, rows 9, 8), and a wrong checksum (row 11). -/
theorem test_witness_receive_block :
    ((moving (frameMoves 0 [0x5A] (xorFold [0x5A]))).Scheduled (frameMoves 0 [0x5A] (xorFold [0x5A])) ∧ (0 : Byte) ≤ 0 ∧
        [(0x5A : Byte)].length = (0 : Byte).toNat + 1) ∧
      ((moving (frameMoves 255 (List.replicate 256 0) (xorFold (List.replicate 256 0)))).Scheduled
          (frameMoves 255 (List.replicate 256 0) (xorFold (List.replicate 256 0))) ∧ (255 : Byte) ≤ 255 ∧
        (List.replicate 256 (0 : Byte)).length = (255 : Byte).toNat + 1) ∧
      (moving (frameMoves 1 [0xAA, 0x55] 0xFE)).Scheduled (frameMoves 1 [0xAA, 0x55] 0xFE) ∧ (1 : Byte) ≤ 16 ∧
      [(0xAA : Byte), 0x55].length = (1 : Byte).toNat + 1 ∧ (0xFE : Byte) ≠ xorFold [0xAA, 0x55] :=
  ⟨⟨test_moving_scheduled _, by decide, by decide⟩,
    ⟨test_moving_scheduled _, by decide, by rw [List.length_replicate]; decide⟩,
    test_moving_scheduled _, by decide, by decide, by decide⟩

/-- The three errors of a checkpoint. -/
theorem test_witness_flags_report :
    FlagsReport true true true .frameError 5 ∧ FlagsReport false true true .bufferOverflow 6 ∧
      FlagsReport false false true .timeout 1 :=
  ⟨.inl ⟨rfl, rfl, rfl⟩, .inr (.inl ⟨rfl, rfl, rfl, rfl⟩), .inr (.inr ⟨rfl, rfl, rfl, rfl, rfl⟩)⟩

/-- A length byte whose marks, with the flags carried, report each error; a silent host. -/
theorem test_witness_length_phase (fe ovf tmo : Bool) (m : RxMarks) :
    ({ flagged fe ovf tmo with uart.rxFifo := [⟨200, m⟩] }.Quiet ∧
        { flagged fe ovf tmo with uart.rxFifo := [⟨200, m⟩] }.uart.rxFifo = ⟨200, m⟩ :: [] ∧
        { flagged fe ovf tmo with uart.rxFifo := [⟨200, m⟩] }.uart.txReg = none ∧
        { flagged fe ovf tmo with uart.rxFifo := [⟨200, m⟩] }.link = ⟨fe, ovf, tmo, .expired, ⟨false, false⟩, 0⟩) ∧
      (moving (controllerMoves 2 ++ testedTicks (timeoutTicks 1))).Scheduled
        (controllerMoves 2 ++ testedTicks (timeoutTicks 1)) :=
  ⟨⟨⟨rfl, rfl, .inr rfl⟩, rfl, rfl, rfl⟩, test_moving_scheduled _⟩

/-- A bad stop bit on the first byte and on the last; a host that stalls at once and before the last byte; flags at the
checkpoint. -/
theorem test_witness_payload_phase (ws : List WireByte) (bytes : List Byte) (fe ovf tmo : Bool) :
    ((moving (lengthMoves 0 ++ wireMoves ws)).Scheduled (lengthMoves 0 ++ wireMoves ws) ∧
        (∃ w ∈ [(⟨1, true⟩ : WireByte), ⟨1, false⟩], w.badStop = true) ∧
        (∃ w ∈ [(⟨1, false⟩ : WireByte), ⟨1, true⟩], w.badStop = true) ∧
        [(⟨1, false⟩ : WireByte), ⟨1, true⟩].length = (0 : Byte).toNat + 2) ∧
      ((moving (lengthMoves 0 ++ rxMoves bytes ++ testedTicks (timeoutTicks 2))).Scheduled
          (lengthMoves 0 ++ rxMoves bytes ++ testedTicks (timeoutTicks 2)) ∧
        ([] : List Byte).length < (0 : Byte).toNat + 2 ∧ [(1 : Byte)].length < (0 : Byte).toNat + 2) ∧
      { flagged fe ovf tmo with fg.pc := [.op .validate, .micro .blockPayload] }.Quiet ∧
      { flagged fe ovf tmo with fg.pc := [.op .validate, .micro .blockPayload] }.uart.txReg = none :=
  ⟨⟨test_moving_scheduled _, ⟨_, .head _, rfl⟩, ⟨_, .tail _ (.head _), rfl⟩, rfl⟩,
    ⟨test_moving_scheduled _, by decide, by decide⟩, ⟨rfl, rfl, .inr rfl⟩, rfl⟩

/-- Rows 6 and 10: the first length above the limit. -/
theorem test_witness_long_length :
    ((received [clean 17]).Quiet ∧ (received [clean 17]).uart.rxFifo = ⟨17, ⟨false, false⟩⟩ :: [] ∧
      (received [clean 17]).uart.txReg = none ∧ (received [clean 17]).link.clear = true ∧
      (received [clean 17]).link.skipNext = ⟨false, false⟩ ∧ (received [clean 17]).link.owed = 0 ∧ (16 : Byte) < 17) ∧
    (received [clean 1, clean 2]).Quiet ∧ (received [clean 1, clean 2]).uart.rxFifo = ⟨1, ⟨false, false⟩⟩ :: [clean 2] ∧
      (received [clean 1, clean 2]).uart.txReg = none ∧ (received [clean 1, clean 2]).link.clear = true ∧
      (received [clean 1, clean 2]).link.skipNext = ⟨false, false⟩ ∧ (received [clean 1, clean 2]).link.owed = 0 ∧ (0 : Byte) < 1 :=
  ⟨⟨⟨rfl, rfl, .inr rfl⟩, rfl, rfl, rfl, rfl, rfl, by decide⟩, ⟨rfl, rfl, .inr rfl⟩, rfl, rfl, rfl, rfl, rfl, by decide⟩

theorem test_witness_send_block :
    (1 ≤ [(0x5A : Byte)].length ∧ [(0x5A : Byte)].length ≤ 256 ∧ (moving (sendBlockMoves 1)).Scheduled (sendBlockMoves 1) ∧
        (moving (sendBlockMoves 1)).uart.txReg = none) ∧
      1 ≤ (List.replicate 256 (0 : Byte)).length ∧ (List.replicate 256 (0 : Byte)).length ≤ 256 ∧
      (moving (sendBlockMoves 256)).Scheduled (sendBlockMoves 256) ∧ (moving (sendBlockMoves 256)).uart.txReg = none :=
  ⟨⟨by decide, by decide, test_moving_scheduled _, rfl⟩, by rw [List.length_replicate]; decide,
    by rw [List.length_replicate], test_moving_scheduled _, rfl⟩

/-- E4: bit 4 flipped in the first two payload bytes. -/
theorem test_witness_odd_flips : [(0x10 : Byte), 0x10, 0, 0].length = [(0xDE : Byte), 0xAD, 0xBE, 0xEF].length := by rfl

theorem test_witness_block_frame :
    [(0x5A : Byte)].length = (0 : Byte).toNat + 1 ∧ (List.replicate 256 (0 : Byte)).length = (255 : Byte).toNat + 1 :=
  ⟨by rfl, by rw [List.length_replicate]; decide⟩

theorem test_witness_acquire_bus :
    ((moving [.grant]).Scheduled [.grant] ∧ TargetRuns (moving [.grant])) ∧
      granted.Quiet ∧ granted.bus.busreq = true ∧ granted.bus.busack = true :=
  ⟨⟨test_moving_scheduled _, test_moving_target_runs _⟩, ⟨rfl, rfl, .inr rfl⟩, rfl, rfl⟩

theorem test_witness_acquire_hangs : (at_ []).Quiet ∧ (at_ []).bus.busack = false := ⟨test_at_quiet _, rfl⟩

/-- A running target with cycle `c` in progress, about to end it, asked for the bus or not. -/
def ending (c : BusCycle) (asked : Bool) : State :=
  { moving [.cycleEnd] with env.cycle := some c, bus.busreq := asked }

/-- Each move of the target is taken where its contract has it: the first cycle after a reset, a cycle that ends after the
request rose; and an end without a cycle. -/
theorem test_witness_target_moves :
    (∃ t, step { moving [.grant] with bus.busreq := true } = .next t) ∧
      (∃ t, step { moving [.ungrant] with bus.busack := true } = .next t) ∧
      (∃ t, step { moving [.cycleStart (.memRead 0)] with env.fresh := true } = .next t) ∧
      (∃ t, step (moving [.cycleStart (.io 15 .write 7)]) = .next t) ∧
      (∀ asked, (∃ t, step (ending (.memRead 0xFFFF) asked) = .next t) ∧
        (∃ t, step (ending (.memWrite 0xFFFF 1) asked) = .next t) ∧ ∃ t, step (ending (.io 15 .read 7) asked) = .next t) ∧
      (moving [.cycleEnd]).schedule = .cycleEnd :: [] ∧ (moving [.cycleEnd]).env.cycle = none :=
  ⟨⟨_, rfl⟩, ⟨_, rfl⟩, ⟨_, rfl⟩, ⟨_, rfl⟩, fun _ => ⟨⟨_, rfl⟩, ⟨_, rfl⟩, _, rfl⟩, rfl, rfl⟩

/-- Rules R320 (a), C14 and R319: no cycle begins while the bus is asked for, and the first after a reset is no other. -/
theorem test_cycle_refused_while_asked :
    step { moving [.cycleStart (.io 1 .read 0)] with bus.busreq := true } =
      .refused (.targetContract (.cycleStart (.io 1 .read 0))) := by rfl
theorem test_first_cycle_elsewhere_refused :
    step { moving [.cycleStart (.memRead 1)] with env.fresh := true } =
      .refused (.targetContract (.cycleStart (.memRead 1))) := by rfl

theorem test_witness_release_bus :
    granted.bus.tgtReset = false ∧ { granted with bus.tgtReset := true }.bus.tgtReset = true := ⟨rfl, rfl⟩

theorem test_witness_owner :
    (granted.owner = .controllerOwned ∧ memWf granted.mem ∧ granted.Quiet) ∧
      { State.reset with bus.tgtReset := true }.owner = .controllerOwned ∧ State.reset.owner = .targetOwned :=
  ⟨⟨rfl, by simp [memWf, granted, State.reset], ⟨rfl, rfl, .inr rfl⟩⟩, rfl, rfl⟩

theorem test_witness_injected :
    memWf [] ∧ [(0x11 : Byte)][0]? = some 0x11 ∧
      (∀ j, 0 < j → j < [(0x11 : Byte)].length →
        Config.bankMap 0 (addrPlus 0xFFFF j) ≠ Config.bankMap 0 (addrPlus 0xFFFF 0)) ∧
      ∀ i < [(0x11 : Byte)].length,
        Config.bankMap 0 (addrPlus 0xFFFF i) ≠ Config.bankMap 0 (addrPlus 0xFFFF 0) + 1 := by
  refine ⟨by simp [memWf], rfl, fun j h1 h2 => ?_, fun i hi => ?_⟩
  · simp at h2; omega
  · obtain rfl : i = 0 := by simpa using hi
    omega

theorem test_witness_inject_image :
    (moving [.grant]).Scheduled [.grant] ∧ TargetRuns (moving [.grant]) ∧ [(0xAA : Byte), 0x55] ≠ [] :=
  ⟨test_moving_scheduled _, test_moving_target_runs _, by decide⟩

theorem test_witness_read_region :
    (1 ≤ 1 ∧ 1 ≤ 256 ∧ 256 ≤ 256) ∧ (moving [.grant]).Scheduled [.grant] ∧ TargetRuns (moving [.grant]) :=
  ⟨by decide, test_moving_scheduled _, test_moving_target_runs _⟩

theorem test_witness_fetch :
    ((received [⟨4, ⟨true, true⟩⟩]).link.timer = .idle ∧ (received [⟨4, ⟨true, true⟩⟩]).uart.rxFifo = ⟨4, ⟨true, true⟩⟩ :: [] ∧
        (received [⟨4, ⟨true, true⟩⟩]).link.skipNext = ⟨false, false⟩) ∧
      State.reset.link.timer = .idle ∧ State.reset.Quiet ∧ State.reset.uart.rxFifo = [] ∧ State.reset.fg.pc = [.op .fetch] :=
  ⟨⟨rfl, rfl, rfl⟩, rfl, ⟨rfl, rfl, .inr rfl⟩, rfl, rfl⟩

/-- A state where Echo is to receive one byte with the marks `m`, the flags `fe` and `ovf` carried from the command byte. -/
def echoing (m : RxMarks) (fe ovf : Bool) : State :=
  { received [⟨0x5A, m⟩] with link.frameError := fe, link.bufferOverflow := ovf }

theorem test_witness_echo (m : RxMarks) (fe ovf : Bool) :
    (echoing m fe ovf).Quiet ∧ (echoing m fe ovf).uart.rxFifo = [⟨0x5A, m⟩] ∧ (echoing m fe ovf).uart.txReg = none ∧
      (echoing m fe ovf).link.skipNext = ⟨false, false⟩ ∧ (echoing m fe ovf).link.owed = 0 ∧
      (echoing m fe ovf).link.frameError = fe ∧ (echoing m fe ovf).link.bufferOverflow = ovf ∧
      (echoing m false false).link.clear = true := ⟨⟨rfl, rfl, .inr rfl⟩, rfl, rfl, rfl, rfl, rfl, rfl, rfl⟩

theorem test_witness_echo_times_out :
    (moving (controllerMoves 2 ++ testedTicks (timeoutTicks 1))).Scheduled (controllerMoves 2 ++ testedTicks (timeoutTicks 1)) ∧
      0 < timeoutTicks 1 := by
  refine ⟨test_moving_scheduled _, ?_⟩
  simp only [timeoutTicks, Config.ticksPerByte, Config.timerMax]
  omega

theorem test_witness_upload :
    (moving (frameMoves 16 (List.replicate 17 0xA0) (xorFold (List.replicate 17 0xA0)) ++ controllerMoves 8 ++
        [.grant])).Scheduled
      (frameMoves 16 (List.replicate 17 0xA0) (xorFold (List.replicate 17 0xA0)) ++ controllerMoves 8 ++ [.grant]) ∧
      (16 : Byte) ≤ 16 ∧ (List.replicate 17 (0xA0 : Byte)).length = (16 : Byte).toNat + 1 :=
  ⟨test_moving_scheduled _, by decide, by decide⟩

theorem test_witness_upload_fails :
    ((moving (frameMoves 16 (List.replicate 17 0xA0) 0)).Scheduled (frameMoves 16 (List.replicate 17 0xA0) 0) ∧
        (0 : Byte) ≠ xorFold (List.replicate 17 0xA0)) ∧
      { at_ [.micro .uploadChecked] with fg.ret := .err .frameError }.Quiet ∧
      { at_ [.micro .uploadChecked] with fg.ret := .err .frameError }.fg.pc = .micro .uploadChecked :: [] :=
  ⟨⟨test_moving_scheduled _, by decide⟩, ⟨rfl, rfl, .inr rfl⟩, rfl⟩

/-- Both results of the load protocol, and a request that waits while the trap is disabled. -/
theorem test_witness_load_result :
    (∀ r ∈ [Ret.aborted, .done], { at_ [.micro .loadResult] with fg.ret := r }.Quiet ∧
        { at_ [.micro .loadResult] with fg.ret := r }.trap.pending = false) ∧
      { frozen .read 1 0 with trap.enable := false }.Quiet ∧ { frozen .read 1 0 with trap.enable := false }.trap.pending = true ∧
      (moving (controllerMoves (8 + Config.bootstrap.length) ++ testedTicks (timeoutTicks 2))).Scheduled
        (controllerMoves (8 + Config.bootstrap.length) ++ testedTicks (timeoutTicks 2)) :=
  ⟨fun _ _ => ⟨⟨rfl, rfl, .inr rfl⟩, rfl⟩, ⟨rfl, rfl, .inl rfl⟩, rfl, test_moving_scheduled _⟩

theorem test_witness_load_endings :
    (at_ []).Quiet ∧ (at_ []).trap.pending = false ∧ (at_ []).uart.txReg = none := ⟨test_at_quiet _, rfl, rfl⟩

theorem test_witness_load_transitions :
    ((∃ s : State, s.Quiet ∧ s.fg.pc = [.micro .sizeChecked] ∧ s.fg.ret = .err .timeout) ∧
      ∃ s : State, s.Quiet ∧ s.fg.pc = [.micro .blockReceived] ∧ s.fg.ret = .err .timeout) ∧
    ((at_ [.micro .blocksLoop]).Quiet ∧ (at_ [.micro .blocksLoop]).img.remainingSize = 0) ∧
    { at_ [.micro .blocksLoop] with img.remainingSize := 1 }.Quiet ∧
    { at_ [.micro .blocksLoop] with img.remainingSize := 1 }.img.remainingSize ≠ 0 :=
  ⟨⟨⟨{ at_ [.micro .sizeChecked] with fg.ret := .err .timeout }, ⟨rfl, rfl, .inr rfl⟩, rfl, rfl⟩,
    { at_ [.micro .blockReceived] with fg.ret := .err .timeout }, ⟨rfl, rfl, .inr rfl⟩, rfl, rfl⟩,
    ⟨test_at_quiet _, rfl⟩, ⟨rfl, rfl, .inr rfl⟩, by decide⟩

/-- A block of length byte `lb` received with `n` bytes remaining, the moves `ms` scheduled. -/
def blockCame (lb : Byte) (n : Size) (ms : List Move) : State :=
  { moving ms with
    fg.pc := [.micro .blockReceived], fg.ret := .okLen (lb.toNat + 1), blk.lb := lb, img.remainingSize := n }

/-- The hypotheses on an accepted block. -/
def blockFits (lb : Byte) (n : Size) : Prop :=
  (blockCame lb n (controllerMoves 5 ++ [.grant])).Scheduled (controllerMoves 5 ++ [.grant]) ∧
    TargetRuns (blockCame lb n (controllerMoves 5 ++ [.grant])) ∧
    (blockCame lb n (controllerMoves 5 ++ [.grant])).uart.txReg = none ∧ n ≠ 0 ∧ lb.toNat = min n.toNat 256 - 1

/-- The required lengths of 95_test_vectors 2.5 for 1, 256 and 65535 bytes remaining. -/
theorem test_witness_accepted_block : blockFits 0 1 ∧ blockFits 255 256 ∧ blockFits 255 65535 :=
  ⟨⟨⟨rfl, rfl, .inr rfl⟩, ⟨rfl, rfl, rfl, rfl, rfl⟩, rfl, by decide, by decide⟩,
    ⟨⟨rfl, rfl, .inr rfl⟩, ⟨rfl, rfl, rfl, rfl, rfl⟩, rfl, by decide, by decide⟩,
    ⟨rfl, rfl, .inr rfl⟩, ⟨rfl, rfl, rfl, rfl, rfl⟩, rfl, by decide, by decide⟩

/-- E7: length byte 0 where 1 is required. -/
theorem test_witness_wrong_length :
    (blockCame 0 2 []).Quiet ∧ (blockCame 0 2 []).uart.txReg = none ∧ (2 : Size) ≠ 0 ∧
      (0 : Byte).toNat ≠ min (2 : Size).toNat 256 - 1 := ⟨⟨rfl, rfl, .inr rfl⟩, rfl, by decide, by decide⟩

/-- The five cases of a port-1 Write, the last at both ends of its range. -/
theorem test_witness_port1_write :
    ∀ d ∈ [(0 : Byte), 1, 2, 3, 4, 255], (trapped .write 1 d).trap.ioData = d ∧ (d = 0 ∨ d = 1 ∨ d = 2 ∨ d = 3 ∨ 3 < d) := by
  decide

theorem test_witness_console_write :
    (trapped .write 0 0x49).uart.txReg = none ∧
      { trapped .write 0 0x49 with uart.txReg := some 0x48 }.uart.txReg = some 0x48 := ⟨rfl, rfl⟩

theorem test_witness_port : Instr.port0Write.port = true ∧ (Instr.portUnknown .read 15).port = true := ⟨rfl, rfl⟩

theorem test_witness_trap_entry :
    ((frozen .read 2 0).schedule = [] ∧ (frozen .read 2 0).trap.enable = true ∧ (frozen .read 2 0).trap.pending = true ∧
        (frozen .read 2 0).trap.inTrap = false) ∧
      (moving [.foreground]).schedule = .foreground :: [] ∧ (moving [.foreground]).trap.inTrap = false :=
  ⟨⟨rfl, rfl, rfl, rfl⟩, rfl, rfl⟩

theorem test_witness_completion :
    { trapped .read 2 0 with schedule := [.controller, .grant] }.trap.inTrap = true ∧
      { trapped .read 2 0 with schedule := [.controller, .grant] }.schedule = [.controller, .grant] ∧
      (trapped .read 2 0).bus.tgtReset = false ∧ (trapped .read 2 0).bus.tgtClkRun = true ∧
      (trapped .read 2 0).bus.busack = false ∧ (trapped .read 2 0).env.cycle = none := ⟨rfl, rfl, rfl, rfl, rfl, rfl⟩

/-- A frozen target with the moves that serve it. -/
def frozenServed (dir : IoDir) (port : Port) : State :=
  { frozen dir port 0 with schedule := controllerMoves 4 ++ [.grant] }

theorem test_witness_trap_served (dir : IoDir) (port : Port) :
    (frozenServed dir port).schedule = controllerMoves 4 ++ [.grant] ∧ (frozenServed dir port).trap.enable = true ∧
      (frozenServed dir port).trap.pending = true ∧ (frozenServed dir port).trap.inTrap = false ∧
      (frozenServed dir port).bus.tgtReset = false ∧ (frozenServed dir port).bus.tgtClkRun = true ∧
      (frozenServed dir port).bus.busack = false ∧ (frozenServed dir port).env.cycle = none ∧
      (frozenServed dir port).bus.dataDir = .inp ∧
      (frozenServed dir port).env.rw = dir ∧ (frozenServed dir port).env.pa = port :=
  ⟨rfl, rfl, rfl, rfl, rfl, rfl, rfl, rfl, rfl, rfl, rfl⟩

theorem test_witness_dispatcher_alone :
    (trapped .write 2 7).trap.inTrap = true ∧ (trapped .write 2 7).schedule = [] ∧
      ∃ t, step (trapped .write 2 7) = .next t := ⟨rfl, rfl, _, rfl⟩

/-- Each statement that writes the trap enable, the reset or the clock takes a step. -/
theorem test_witness_load_binary_controls :
    (∃ t, step (at_ [.micro .disableTrap]) = .next t) ∧ (∃ t, step (at_ [.op .loadSuccess]) = .next t) ∧
      (∃ t, step (at_ [.micro .assertReset]) = .next t) ∧ (∃ t, step (at_ [.command 1]) = .next t) :=
  ⟨⟨_, rfl⟩, ⟨_, rfl⟩, ⟨_, rfl⟩, _, rfl⟩

theorem test_witness_controller_writes :
    { granted with fg.pc := [.op (.writeByteAt 0 1)] }.schedule = [] ∧
      ∃ t, step { granted with fg.pc := [.op (.writeByteAt 0 1)] } = .next t := ⟨rfl, _, rfl⟩

end Sys2Proof.Tests
end

