-- ==== Sys2Proof/Proofs/DecodePositions.lean ====
section
/-! What a step does at each position where it decodes or calls, and the statement of the family 00_scope about them. -/

namespace Sys2Proof.Machine

/-! ## Which function a step is -/

/-- A quiet state leaves the controller to the foreground. -/
theorem State.Quiet.trapIdle {s : State} (q : s.Quiet) : s.trapIdle := ⟨q.notInTrap, q.noTrap⟩

/-- In a quiet state a step executes the statement at the foreground position. -/
theorem State.Quiet.step_eq_runStmt {s : State} {st : Stmt} {rest : List Stmt} (q : s.Quiet) (hpc : s.fg.pc = st :: rest) :
    step s = runStmt st (s.goto rest) :=
  step_foreground q.schedule q.trapIdle hpc

/-- With nothing scheduled and `in_trap` set, a step is the dispatcher's (60_exceptions R302). -/
theorem step_eq_trapStep {s : State} (hs : s.schedule = []) (ht : s.trap.inTrap = true) : step s = trapStep s := by
  rw [step_nil hs, controllerStep_inTrap ht]

/-! ## The decode positions -/

@[simp] theorem runDecoded_ok (i : Instr) (l : List Byte) (s : State) : runDecoded (.ok (i, l)) s = exec i s := rfl

@[simp] theorem runDecoded_error (e : DecodeError) (s : State) : runDecoded (.error e) s = .refused (.undecodable e) := rfl

@[simp] theorem runStmt_op (i : Instr) (s : State) : runStmt (.op i) s = exec i s := rfl

@[simp] theorem runStmt_micro (m : Micro) (s : State) : runStmt (.micro m) s = runMicro m s := rfl

/-- The frame stands in the Block registers, which the foreground position is no part of. -/
@[simp] theorem State.goto_frameBytes (s : State) (ks : List Stmt) : (s.goto ks).frameBytes = s.frameBytes := rfl

/-- 43_command_loop R201: the label executes the command its byte decodes to. -/
theorem runStmt_command_of_decode {b : Byte} {i : Instr} {l : List Byte} (h : decode .cmd [b] = .ok (i, l)) (s : State) :
    runStmt (.command b) s = exec i s := by
  rw [runStmt, h, runDecoded_ok]

/-- 44_load_protocol R230: step 6 executes what the two size bytes decode to. -/
theorem runStmt_sizeField_of_decode {s : State} {i : Instr} {l : List Byte}
    (h : decode .size [s.fg.sizeHi, s.fg.sizeLo] = .ok (i, l)) : runStmt .sizeField s = exec i s := by
  rw [runStmt, h, runDecoded_ok]

/-- 41_block_transfer R150: step 9 executes what the frame in the Block registers decodes to. -/
theorem runStmt_blockField_of_decode {s : State} {i : Instr} {l : List Byte}
    (h : decode .block s.frameBytes = .ok (i, l)) : runStmt .blockField s = exec i s := by
  rw [runStmt, h, runDecoded_ok]

/-- 60_exceptions R302: the dispatcher executes what the latched request decodes to, with its completion to follow. -/
theorem trapStep_dispatchPort_of_decode {s : State} {i : Instr} {l : List Byte} (hp : s.trap.pos = .dispatchPort)
    (h : decode .ioreq [ioreqWord s.trap.ioDir s.trap.ioPort] = .ok (i, l)) :
    trapStep s = exec i (s.setTrapPos .complete) := by
  rw [trapStep, hp, h]
  exact runDecoded_ok i l _

/-- Settles O5: the state fixes which function the step is, and that function runs what its decoder reads. -/
theorem stepRunsTheDecodedInstruction : Obligations.StepRunsTheDecodedInstruction := by
  refine ⟨?call, ?command, ?size, ?block, ?port⟩
  case call =>
    intro s i rest q hpc
    rw [q.step_eq_runStmt hpc, runStmt_op]
  case command =>
    intro s b rest i l q hpc hdec
    rw [q.step_eq_runStmt hpc, runStmt_command_of_decode hdec]
  case size =>
    intro s rest i l q hpc hdec
    rw [q.step_eq_runStmt hpc]
    exact runStmt_sizeField_of_decode (by simpa using hdec)
  case block =>
    intro s rest i l q hpc hdec
    rw [q.step_eq_runStmt hpc]
    exact runStmt_blockField_of_decode (by simpa using hdec)
  case port =>
    intro s i l hs ht hp hdec
    rw [step_eq_trapStep hs ht, trapStep_dispatchPort_of_decode hp hdec]

end Sys2Proof.Machine
end

