-- ==== Sys2Proof/Proofs/StateInvariant.lean ====
section
/-! The statements of the family 10_state: the startup state, the invariant over every step, the sticky flags over every step.
A property of every step is proved in three layers: what each named update of the state does to it, then each operation and
statement as a composition of updates, then the split of a step into the agents that may take it. -/

namespace Sys2Proof.Machine

/-! ## Outcomes -/

/-- The next state of outcome `r`, if it has one, satisfies `P`. -/
def NextSatisfies (P : State → Prop) (r : Result) : Prop := ∀ t, r = .next t → P t

@[simp] theorem nextSatisfies_next {P : State → Prop} {t : State} : NextSatisfies P (.next t) ↔ P t := by
  simp [NextSatisfies]

@[simp] theorem nextSatisfies_refused {P : State → Prop} (r : Refusal) : NextSatisfies P (.refused r) := by
  simp [NextSatisfies]

/-- A driving operation that takes a next state has taken the one it drives to. -/
theorem nextSatisfies_requireOwner {P : State → Prop} {s : State} {f : State → State} (h : P (f s)) :
    NextSatisfies P (requireOwner s fun u => .next (f u)) := by
  intro t ht
  obtain ⟨-, he⟩ := requireOwner_next ht
  cases he
  exact h

theorem nextSatisfies_ite {P : State → Prop} {c : Prop} [Decidable c] {r q : Result} (hr : NextSatisfies P r)
    (hq : NextSatisfies P q) : NextSatisfies P (if c then r else q) := by
  split
  · exact hr
  · exact hq

theorem nextSatisfies_targetMove {P : State → Prop} {m : Move} {e : Bool} {t : State} (h : e = true → P t) :
    NextSatisfies P (targetMove m e t) := by
  intro u hu
  obtain ⟨he, rfl⟩ := targetMove_next hu
  exact h he

theorem nextSatisfies_runDecoded {P : State → Prop} {r : Except DecodeError (Instr × List Byte)} {s : State}
    (h : ∀ i l, r = .ok (i, l) → NextSatisfies P (exec i s)) : NextSatisfies P (runDecoded r s) := by
  cases r with
  | error e => exact nextSatisfies_refused _
  | ok d => exact h d.1 d.2 rfl

/-! ## Who takes a step -/

/-- The move is one of the controller's environment. -/
def Move.environmental : Move → Bool
  | .controller => false
  | .foreground => false
  | _ => true

/-- 00_scope R9, R10: a step is the dispatcher's, the entry of the trap, the foreground's or the environment's. -/
theorem nextSatisfies_step {P : State → Prop} {s : State}
    (trap : ∀ ms, s.trap.inTrap = true → NextSatisfies P (trapStep { s with schedule := ms }))
    (enter : ∀ ms, s.trap.inTrap = false → NextSatisfies P (exec .ioTrapDispatcher { s with schedule := ms }))
    (foreground : ∀ ms, s.trap.inTrap = false → NextSatisfies P (foregroundStep { s with schedule := ms }))
    (environment : ∀ m ms, m.environmental = true → NextSatisfies P (runMove m { s with schedule := ms })) :
    NextSatisfies P (step s) := by
  have controller : ∀ ms, NextSatisfies P (controllerStep { s with schedule := ms }) := by
    intro ms
    cases ht : s.trap.inTrap with
    | true =>
      rw [controllerStep_inTrap (s := { s with schedule := ms }) ht]
      exact trap ms ht
    | false =>
      unfold controllerStep
      rw [if_neg (by simp [ht])]
      split
      · exact enter ms ht
      · exact foreground ms ht
  cases hs : s.schedule with
  | nil =>
    rw [step_nil hs]
    have hc := controller []
    rw [← hs] at hc
    exact hc
  | cons m ms =>
    rw [step_cons hs]
    cases m with
    | controller => exact controller ms
    | foreground =>
      show NextSatisfies P (if s.trap.inTrap then _ else _)
      cases ht : s.trap.inTrap with
      | true => exact trap ms ht
      | false => exact foreground ms ht
    | _ => exact environment _ ms rfl

/-- The foreground executes FETCH where nothing is left of its program, else the first statement left. -/
theorem nextSatisfies_foregroundStep {P : State → Prop} {s : State} (fetch : s.fg.pc = [] → NextSatisfies P (exec .fetch s))
    (stmt : ∀ st rest, s.fg.pc = st :: rest → NextSatisfies P (runStmt st (s.goto rest))) :
    NextSatisfies P (foregroundStep s) := by
  unfold foregroundStep
  split
  · exact fetch ‹_›
  · exact stmt _ _ ‹_›

/-! ## The driving operations -/

theorem nextSatisfies_execWriteByteAt {P : State → Prop} {s : State} {a : Addr} {v : Byte} (h : P (s.writeCycle a v)) :
    NextSatisfies P (execWriteByteAt a v s) := by
  unfold execWriteByteAt
  exact nextSatisfies_requireOwner h

theorem nextSatisfies_execReadByteAt {P : State → Prop} {s : State} {a : Addr}
    (h : P ((s.readCycle a).1.give (.byte (s.readCycle a).2))) : NextSatisfies P (execReadByteAt a s) := by
  unfold execReadByteAt
  exact nextSatisfies_requireOwner h

theorem nextSatisfies_execSwitchBank {P : State → Prop} {s : State} {v : Byte} (h : P (s.bankCycle v)) :
    NextSatisfies P (execSwitchBank v s) := by
  unfold execSwitchBank
  exact nextSatisfies_requireOwner h

theorem nextSatisfies_microWriteCount {P : State → Prop} {s : State}
    (h : P (s.writeCycle Config.countCell (s.img.blockCount.setWidth 8))) : NextSatisfies P (microWriteCount s) := by
  unfold microWriteCount
  exact nextSatisfies_requireOwner h

/-- One byte is written, and what is left of the list follows as one legal call (42_bus_arbiter R174). -/
theorem nextSatisfies_injectRaw {P : State → Prop} {s : State} {base : Addr} {bytes : List Byte} (nil : P s)
    (cons : ∀ v ks, ks.all Stmt.legal = true → P ((s.writeCycle base v).push ks)) :
    NextSatisfies P (injectRaw base bytes s) := by
  cases bytes with
  | nil => exact nextSatisfies_next.2 nil
  | cons v rest =>
    unfold injectRaw
    refine nextSatisfies_requireOwner (cons v _ ?_)
    cases rest <;> rfl

/-- One byte is read into the buffer, and the reads left follow as one legal statement (42_bus_arbiter R175). -/
theorem nextSatisfies_microReadRegion {P : State → Prop} {s : State} {i : Byte} {left : Nat} (zero : P s)
    (succ : ∀ v ks, ks.all Stmt.legal = true → P (((s.readCycle (i.setWidth 16)).1.setBuf i v).push ks)) :
    NextSatisfies P (microReadRegion i left s) := by
  cases left with
  | zero => exact nextSatisfies_next.2 zero
  | succ n =>
    unfold microReadRegion
    refine nextSatisfies_requireOwner (succ _ _ ?_)
    cases n <;> rfl

/-! ## Decoding at the machine's own positions -/

/-- 30_encoding R104: the dispatcher's word decodes to the operation of its port and direction. -/
theorem decode_ioreqWord (dir : IoDir) (port : Port) :
    decode .ioreq [ioreqWord dir port] = .ok (decodePort dir port, []) := by
  have unused : ∀ d p, (ioreqWord d p).extractLsb' 5 3 = 0 := by
    intro d p; cases d <;> revert p <;> decide
  have direction : ∀ d p, ioreqDir (ioreqWord d p) = d := by
    intro d p; cases d <;> revert p <;> decide
  have portBits : ∀ d p, (ioreqWord d p).extractLsb' 0 4 = p := by
    intro d p; cases d <;> revert p <;> decide
  simp only [decode, unused, if_true, direction, portBits]

/-- 45_io_ports R260: the direction and the port select one of the eight port operations. -/
theorem decodePort_cases (dir : IoDir) (port : Port) :
    (dir = .write ∧ (decodePort dir port = .port0Write ∨ decodePort dir port = .port1Write ∨
        decodePort dir port = .port2Write)) ∨
      (dir = .read ∧ (decodePort dir port = .port0Read ∨ decodePort dir port = .port1Read ∨
        decodePort dir port = .port2Read)) ∨
      decodePort dir port = .portUnknown dir port := by
  unfold decodePort
  cases dir <;> split_ifs <;> simp

/-- A BLOCK frame decodes to no other operation. -/
theorem eq_block_of_decode {bytes l : List Byte} {i : Instr} (h : decode .block bytes = .ok (i, l)) :
    ∃ lb payload ck, i = .block lb payload ck := by
  cases bytes with
  | nil => simp [decode] at h
  | cons b rest =>
    simp only [decode] at h
    split at h
    · simp at h
    · simp only [Except.ok.injEq, Prod.mk.injEq] at h
      exact ⟨_, _, _, h.1.symm⟩

/-! ## One test of recv_byte -/

/-- A byte taken is the oldest waiting, its marks latched (40_serial_link R121). -/
theorem recvTest_got {s t : State} {d : Byte} (h : s.recvTest = .got d t) :
    ∃ r rest u, s.uart.rxFifo = r :: rest ∧ (u = s ∨ u = s.drawn) ∧ d = r.data ∧
      t = (u.popRx rest).latchMarks r.marks := by
  cases hf : s.uart.rxFifo with
  | nil => rcases recvTest_empty hf with ⟨-, he⟩ | ⟨-, he⟩ <;> simp [he] at h
  | cons r rest =>
    by_cases ht : s.link.timer = .expired
    · rcases recvTest_both hf ht with he | he
      · rw [he] at h
        cases h
        exact ⟨r, rest, s.drawn, rfl, .inr rfl, rfl, rfl⟩
      · simp [he] at h
    · rw [recvTest_byte hf ht] at h
      cases h
      exact ⟨r, rest, s, rfl, .inl rfl, rfl, rfl⟩

/-- Timeout is found only with the timer expired (40_serial_link R121). -/
theorem recvTest_expired {s t : State} (h : s.recvTest = .expired t) :
    s.link.timer = .expired ∧ ∃ u, (u = s ∨ u = s.drawn) ∧ t = u.setTimeout := by
  cases hf : s.uart.rxFifo with
  | nil =>
    rcases recvTest_empty hf with ⟨ht, he⟩ | ⟨-, he⟩
    · rw [he] at h
      cases h
      exact ⟨ht, s, .inl rfl, rfl⟩
    · simp [he] at h
  | cons r rest =>
    by_cases ht : s.link.timer = .expired
    · rcases recvTest_both hf ht with he | he
      · simp [he] at h
      · rw [he] at h
        cases h
        exact ⟨ht, s.drawn, .inr rfl, rfl⟩
    · simp [recvTest_byte hf ht] at h

/-- What holds after either result of the test and after none holds after `x <- recv_byte()`. -/
theorem nextSatisfies_recvStore {P : State → Prop} {s : State} {put : State → Byte → State} {again : Stmt}
    {next : List Stmt} (got : ∀ d u, s.recvTest = .got d u → P ((put u d).push next))
    (expired : ∀ u v, s.recvTest = .expired u → P ((put u.drawn v).push next)) (waiting : P (s.push [again])) :
    NextSatisfies P (s.recvStore put again next) := by
  rcases recvStore_cases (s := s) (put := put) (again := again) (next := next) with
    ⟨d, u, hu, he⟩ | ⟨u, hu, he⟩ | ⟨-, he⟩
  all_goals rw [he, nextSatisfies_next]
  · exact got d u hu
  · exact expired u _ hu
  · exact waiting

/-- `send_byte(b)` leaves one statement in front: the write, or the whole call again (40_serial_link R122). -/
theorem sendByte_eq_push (s : State) (b : Byte) :
    ∃ st, (st = .micro (.txWrite b) ∨ st = .op (.sendByte b)) ∧ s.sendByte b = s.push [st] := by
  cases h : s.uart.txReg with
  | none => exact ⟨_, .inl rfl, sendByte_free h b⟩
  | some p => exact ⟨_, .inr rfl, sendByte_busy h b⟩

/-! ## Facts about operands -/

theorem Timer.tick_inRange {t : Timer} (h : t.inRange) : t.tick.inRange := by
  cases t with
  | idle => trivial
  | expired => trivial
  | running n =>
    obtain ⟨-, hmax⟩ : 1 ≤ n ∧ n ≤ Config.timerMax := h
    by_cases hn : n ≤ 1
    · simp [Timer.tick, hn, Timer.inRange]
    · simp only [Timer.tick, hn, if_false, Timer.inRange]
      omega

/-- A duration clamped by R123 is one R124 admits. -/
theorem one_le_clamped {d : Nat} (h : 1 ≤ d) : 1 ≤ min d Config.timerMax := Nat.le_min.2 ⟨h, Nat.succ_pos _⟩

theorem latchMarks_owed_le_rxDepth {s : State} (h : s.link.owed ≤ Config.rxDepth) (m : RxMarks) :
    (s.latchMarks m).link.owed ≤ Config.rxDepth := by
  rw [State.latchMarks_link]
  split
  · rcases latchLossy_cases s.link m with ⟨-, he⟩ | ⟨-, he⟩ <;> omega
  · exact h

/-- 30_encoding R99: a size of at most 65535 bytes is at most 256 blocks. -/
theorem blockCountOf_le (total : Size) : (blockCountOf total).toNat ≤ 256 := by
  have := total.isLt
  simp only [blockCountOf, BitVec.toNat_ofNat]
  omega

/-- Every command byte selects a legal operation (43_command_loop R201). -/
theorem decodeCmd_legal (b : Byte) : (Stmt.op (decodeCmd b)).legal = true := by
  revert b
  decide

/-- A checkpoint's report is a legal call (40_serial_link R125). -/
theorem status_legal (e : Err) : (Stmt.op e.status).legal = true := by
  cases e <;> rfl

/-- The window of the payload phase is one R123 admits: `blk_lb + 2` bytes, at most 257. -/
theorem payloadWindow_legal (lb : Byte) : (Stmt.op (.armTimeout (lb.toNat + 2))).legal = true := by
  have := lb.isLt
  simp only [Stmt.legal, Instr.foreground, Instr.wellFormed, Bool.true_and, Bool.and_eq_true, decide_eq_true_eq]
  omega

section Invariant

variable {s : State} (h : s.Inv)
include h

/-! ## What each update of the state does to the invariant -/

/-! ### Updates of registers the invariant does not speak of -/

theorem State.Inv.reschedule (ms : List Move) : State.Inv { s with schedule := ms } := { h with }

theorem State.Inv.give (r : Ret) : (s.give r).Inv := { h with }

theorem State.Inv.drawn : s.drawn.Inv := { h with }

theorem State.Inv.setBusreq (b : Bool) : (s.setBusreq b).Inv := { h with }

theorem State.Inv.setClock (b : Bool) : (s.setClock b).Inv := { h with }

theorem State.Inv.setTrapEnable (b : Bool) : (s.setTrapEnable b).Inv := { h with }

theorem State.Inv.setBlk (b : Block) : State.Inv { s with blk := b } := { h with }

theorem State.Inv.setBuf (i v : Byte) : (s.setBuf i v).Inv := h.setBlk _

theorem State.Inv.storeFrame (lb : Byte) (payload : List Byte) (ck : Byte) :
    (s.storeFrame lb payload ck).Inv := h.setBlk _

theorem State.Inv.setXor (x : Byte) : State.Inv { s with blk.xor := x } := h.setBlk _

theorem State.Inv.setPort1 (p : Port1) : State.Inv { s with port1 := p } := { h with }

theorem State.Inv.setLoadState (l : LoadState) : (s.setLoadState l).Inv := { h with }

theorem State.Inv.abortLoad : s.abortLoad.Inv := (h.setLoadState _).give _

theorem State.Inv.setTimeout : s.setTimeout.Inv := { h with }

theorem State.Inv.setSkipNext (m : RxMarks) : State.Inv { s with link.skipNext := m } := { h with }

theorem State.Inv.hostSend (d : Byte) (badStop : Bool) : (s.hostSend d badStop).Inv := { h with }

theorem State.Inv.setRxWire (ws : List WireByte) : State.Inv { s with env.rxWire := ws } := { h with }

theorem State.Inv.targetTakes (v : Byte) : (s.targetTakes v).Inv := { h with }

theorem State.Inv.store (d : RxDst) (v : Byte) : (s.store d v).Inv := by
  cases d <;> exact { h with }

theorem State.Inv.hostTake : s.hostTake.Inv := by
  unfold State.hostTake
  split
  · exact h
  · exact { h with }

theorem State.Inv.transmit : s.transmit.Inv := by
  unfold State.transmit
  split
  · exact h
  · exact { h with }

theorem State.Inv.txWrite (b : Byte) : (s.txWrite b).Inv := by
  unfold State.txWrite
  split <;> exact { h with }

/-! ### The foreground's program -/

theorem State.Inv.goto {ks : List Stmt} (hk : ks.all Stmt.legal = true) : (s.goto ks).Inv :=
  { h with program := hk }

theorem State.Inv.push {ks : List Stmt} (hk : ks.all Stmt.legal = true) : (s.push ks).Inv :=
  { h with program := by simpa using And.intro (List.all_eq_true.1 hk) (List.all_eq_true.1 h.program) }

theorem State.Inv.sendByte (b : Byte) : (s.sendByte b).Inv := by
  obtain ⟨st, hst, he⟩ := sendByte_eq_push s b
  rw [he]
  rcases hst with rfl | rfl <;> exact h.push rfl

theorem State.Inv.sendBlock (bytes : List Byte) : (s.sendBlock bytes).Inv :=
  (h.push rfl).sendByte _

/-- A duration of at least one byte is at least one tick (40_serial_link R123). -/
theorem State.Inv.armTimeout {n : Nat} (hn : 1 ≤ n) : (s.armTimeout n).Inv := by
  refine h.push ?_
  have ticks : 1 ≤ n * Config.ticksPerByte := Nat.mul_pos hn (Nat.succ_pos _)
  simpa [Stmt.legal, Micro.legal] using ticks

theorem State.Inv.receiveBlock (maxSize : Byte) : (s.receiveBlock maxSize).Inv :=
  (h.push rfl).armTimeout (Nat.le_refl 1)

theorem State.Inv.acquireBus : s.acquireBus.Inv := (h.setBusreq true).push rfl

theorem State.Inv.injectImage (base : Addr) (bytes : List Byte) (keepLocked : Bool) :
    (s.injectImage base bytes keepLocked).Inv :=
  (h.push rfl).acquireBus

theorem State.Inv.readRegion (count : Nat) : (s.readRegion count).Inv := (h.push rfl).acquireBus

/-! ### SerialLink and the UART -/

theorem State.Inv.setTimer {t : Timer} (ht : t.inRange) : (s.setTimer t).Inv :=
  { h with timer := ht }

theorem State.Inv.clearFlags : s.clearFlags.Inv := { h with timer := trivial }

theorem State.Inv.flushInput : s.flushInput.Inv := { h with rxDepth := Nat.zero_le _ }

theorem State.Inv.popRx {r : RxRecord} {rest : List RxRecord} (hf : s.uart.rxFifo = r :: rest) :
    (s.popRx rest).Inv := by
  have hlen := h.rxDepth
  rw [hf, List.length_cons] at hlen
  exact { h with rxDepth := by simp; omega }

theorem State.Inv.latchMarks (m : RxMarks) : (s.latchMarks m).Inv := by
  obtain ⟨-, -, -, htimer⟩ := latchMarks_keeps_flags s m
  exact { h with owed := latchMarks_owed_le_rxDepth h.owed m, timer := htimer ▸ h.timer }

/-- The queue takes a byte only where it has room (10_state R26). -/
theorem State.Inv.receive (d : Byte) (fe : Bool) : (s.receive d fe).Inv := by
  unfold State.receive
  split
  · exact { h with rxDepth := by simpa using Nat.succ_le_of_lt ‹_› }
  · exact { h with }

theorem State.Inv.receiveWire : s.receiveWire.Inv := by
  unfold State.receiveWire
  split
  · exact h
  · exact (h.setRxWire _).receive _ _

/-! ### Memory, the lines and the bank -/

theorem State.Inv.setMemByte (a : Addr) (v : Byte) : (s.setMemByte a v).Inv :=
  { h with mem := memWrite_wf h.mem _ v }

/-- An access that has released what it drove, and has touched nothing else but memory, keeps the invariant. -/
theorem State.Inv.of_access {t : State} (hmem : memWf t.mem)
    (hlines : t.bus.addrDir = .inp ∧ t.bus.memctlDir = .inp ∧ t.bus.dataDir = .inp)
    (hstrobes : t.bus.memOe = false ∧ t.bus.memWe = false ∧ t.bus.memCe = false)
    (hsignals : t.bus.tgtReset = s.bus.tgtReset ∧ t.bus.busack = s.bus.busack)
    (hsame : t.link = s.link ∧ t.img = s.img ∧ t.bank = s.bank ∧ t.trap = s.trap ∧ t.fg = s.fg ∧ t.uart = s.uart ∧
      t.env = s.env) : t.Inv := by
  obtain ⟨haddr, hmemctl, hdata⟩ := hlines
  obtain ⟨hreset, hack⟩ := hsignals
  obtain ⟨hlink, himg, hbank, htrap, hfg, huart, henv⟩ := hsame
  exact
    { mem := hmem
      rxDepth := huart ▸ h.rxDepth
      owed := hlink ▸ h.owed
      timer := hlink ▸ h.timer
      addr := haddr
      memctl := hmemctl
      strobes := hstrobes
      data := fun ho => by simp [hdata] at ho
      blockCount := himg ▸ h.blockCount
      bank := hbank ▸ h.bank
      held := by rw [hreset, hack, htrap, henv]; exact h.held
      frozen := by rw [hack, htrap, henv]; exact h.frozen
      granted := by rw [hack, henv]; exact h.granted
      fresh := by rw [htrap, henv]; exact h.fresh
      request := by rw [htrap, henv]; exact h.request
      program := hfg ▸ h.program }

theorem State.Inv.writeCycle (a : Addr) (v : Byte) : (s.writeCycle a v).Inv :=
  h.of_access (by simpa using memWrite_wf h.mem _ v) (by simp) (by simp) (by simp) (by simp)

theorem State.Inv.readCycle (a : Addr) : (s.readCycle a).1.Inv :=
  h.of_access (by simpa using h.mem) (by simp) (by simp) (by simp) (by simp)

/-- The latch captures the level driven, which is the index then stored (42_bus_arbiter R176). -/
theorem State.Inv.bankCycle (v : Byte) : (s.bankCycle v).Inv := { h with data := by simp, bank := rfl }

theorem State.Inv.releaseData : (s.setDataDir .inp).Inv := { h with data := by simp }

/-- Both halves of a bank switch take one value (45_io_ports R270). -/
theorem State.Inv.switchBank (v : Byte) : ((s.setBankIndex v).latchBank v).Inv :=
  { h with bank := rfl }

/-! ### The load protocol's registers -/

theorem State.Inv.setSize (hi lo : Byte) : (s.setSize hi lo).Inv :=
  { h with blockCount := blockCountOf_le _ }

theorem State.Inv.setNextAddr (a : Addr) : State.Inv { s with img.nextAddr := a } := { h with }

theorem State.Inv.setRemaining (n : Size) : State.Inv { s with img.remainingSize := n } := { h with }

/-! ### The target -/

/-- 60_exceptions R324: what the target abandons at once is what the clause of a held target asks. -/
theorem State.Inv.holdTarget : s.holdTarget.Inv :=
  { h with
    held := fun _ => ⟨rfl, rfl, rfl, rfl⟩
    frozen := by simp
    granted := by simp
    fresh := fun _ => ⟨rfl, rfl⟩
    request := rfl }

theorem State.Inv.freeTarget : s.freeTarget.Inv := { h with held := by simp }

theorem State.Inv.grant (hrun : s.targetCondition = .running) (hc : s.env.cycle = none) :
    State.Inv { s with bus.busack := true } := by
  obtain ⟨hreset, -, hpending, -⟩ := (targetCondition_running_iff s).1 hrun
  exact
    { h with
      held := fun hr => by simp [hreset] at hr
      frozen := fun hp => by simp [hpending] at hp
      granted := fun _ => hc }

theorem State.Inv.ungrant : State.Inv { s with bus.busack := false } :=
  { h with
    held := fun hr => ⟨rfl, (h.held hr).2⟩
    frozen := fun hp => ⟨rfl, (h.frozen hp).2⟩
    granted := by simp }

theorem State.Inv.startCycle (hrun : s.targetCondition = .running) (c : BusCycle) : (s.startCycle c).Inv := by
  obtain ⟨hreset, -, hpending, hack⟩ := (targetCondition_running_iff s).1 hrun
  exact
    { h with
      held := fun hr => by simp [hreset] at hr
      frozen := fun hp => by simp [hpending] at hp
      granted := fun ha => by simp [hack] at ha
      fresh := by simp }

theorem State.Inv.endCycle : s.endCycle.Inv :=
  { h with
    held := fun hr => have ⟨hack, hpending, _, hfresh⟩ := h.held hr; ⟨hack, hpending, rfl, hfresh⟩
    frozen := fun hp => ⟨(h.frozen hp).1, rfl⟩
    granted := fun _ => rfl
    fresh := fun hf => ⟨rfl, (h.fresh hf).2⟩ }

/-- The request freezes a target that runs and has begun a cycle since its reset (60_exceptions R322). -/
theorem State.Inv.startIoCycle (hrun : s.targetCondition = .running) (hc : s.env.cycle = none)
    (hfresh : s.env.fresh = false) (port : Port) (dir : IoDir) (data : Byte) : (s.startIoCycle port dir data).Inv := by
  obtain ⟨hreset, -, -, hack⟩ := (targetCondition_running_iff s).1 hrun
  exact
    { h with
      held := fun hr => by simp [hreset] at hr
      frozen := fun _ => ⟨hack, hc⟩
      fresh := fun hf => by simp [hfresh] at hf
      request := rfl }

theorem State.Inv.finishCycle (hrun : s.targetCondition = .running) {c : BusCycle}
    (hc : s.env.cycle = some c) : (s.finishCycle c).Inv := by
  cases c with
  | memRead a => exact h.endCycle.targetTakes _
  | memWrite a v => exact h.endCycle.setMemByte a v
  | io port dir data =>
    have hfresh : s.env.fresh = false := by
      cases hf : s.env.fresh with
      | false => rfl
      | true => simp [(h.fresh hf).1] at hc
    exact h.endCycle.startIoCycle hrun rfl hfresh port dir data

/-! ### The trap -/

/-- Outside the dispatcher nothing drives DATA between steps (42_bus_arbiter R178). -/
theorem State.Inv.dataDir_of_notInTrap (ht : s.trap.inTrap = false) : s.bus.dataDir = .inp := by
  cases hd : s.bus.dataDir with
  | inp => rfl
  | out => simp [(h.data hd).1] at ht

theorem State.Inv.enterTrap (hd : s.bus.dataDir = .inp) : s.enterTrap.Inv :=
  { h with data := fun ho => by simp [hd] at ho }

theorem State.Inv.leaveTrap (hd : ¬ s.bus.dataDir = .out) : s.leaveTrap.Inv :=
  { h with data := fun ho => absurd ho hd }

/-- The dispatcher may go on wherever it may drive DATA, and anywhere with DATA released (45_io_ports R272). -/
theorem State.Inv.setTrapPos {p : TrapPos} (hp : s.bus.dataDir = .out → p.answering = true) : (s.setTrapPos p).Inv :=
  { h with data := fun ho => have ⟨ht, hread, _⟩ := h.data ho; ⟨ht, hread, hp ho⟩ }

theorem State.Inv.pulseWaitAck : s.pulseWaitAck.Inv :=
  { h with
    held := fun hr => have ⟨hack, _, hidle⟩ := h.held hr; ⟨hack, rfl, hidle⟩
    frozen := by simp
    fresh := fun hf => ⟨(h.fresh hf).1, rfl⟩
    request := rfl }

/-- DATA is driven only to answer a Read, until the handshake is over (45_io_ports R272). -/
theorem State.Inv.answerRead (ht : s.trap.inTrap = true) (hd : s.trap.ioDir = .read)
    (hp : s.trap.pos.answering = true) (v : Byte) : (s.answerRead v).Inv :=
  { h with data := fun _ => ⟨ht, hd, hp⟩ }

theorem State.Inv.recvTest_got {u : State} {d : Byte} (hu : s.recvTest = .got d u) : u.Inv := by
  obtain ⟨r, rest, v, hf, rfl | rfl, -, rfl⟩ := Machine.recvTest_got hu
  · exact (h.popRx hf).latchMarks _
  · exact (State.Inv.popRx h.drawn hf).latchMarks _

theorem State.Inv.recvTest_expired {u : State} (hu : s.recvTest = .expired u) : u.Inv := by
  obtain ⟨-, v, rfl | rfl, rfl⟩ := Machine.recvTest_expired hu
  · exact h.setTimeout
  · exact h.drawn.setTimeout

/-! ## What each operation and statement does to the invariant -/

/-- 40_serial_link R121: a statement `x <- recv_byte()`, whose variable the invariant does not speak of. -/
theorem recvStore_keeps_inv {put : State → Byte → State} {again : Stmt} {next : List Stmt}
    (hput : ∀ {u : State} (v : Byte), u.Inv → (put u v).Inv) (hagain : again.legal = true)
    (hnext : next.all Stmt.legal = true) : NextSatisfies State.Inv (s.recvStore put again next) := by
  refine nextSatisfies_recvStore ?got ?expired (h.push (by simp [hagain]))
  case got =>
    intro d u hu
    exact (hput d (h.recvTest_got hu)).push hnext
  case expired =>
    intro u v hu
    exact (hput v (h.recvTest_expired hu).drawn).push hnext

theorem execRecvByte_keeps_inv : NextSatisfies State.Inv (execRecvByte s) := by
  unfold execRecvByte
  cases hr : s.recvTest with
  | got d u => exact nextSatisfies_next.2 ((h.recvTest_got hr).give _)
  | expired u => exact nextSatisfies_next.2 ((h.recvTest_expired hr).give _)
  | waiting => exact nextSatisfies_next.2 (h.push rfl)

theorem execFetch_keeps_inv : NextSatisfies State.Inv (execFetch s) :=
  recvStore_keeps_inv h (fun v hu => hu.store .cmd v) rfl rfl

theorem execValidate_keeps_inv : NextSatisfies State.Inv (execValidate s) := by
  rcases execValidate_cases s with ⟨-, he⟩ | ⟨-, -, he⟩ | ⟨-, -, he⟩
  · rw [he]; exact nextSatisfies_refused _
  · rw [he, nextSatisfies_next]; exact (h.setTimer (t := .idle) trivial).give _
  · rw [he, nextSatisfies_next]; exact h.push rfl

/-- A legal duration is one R124 admits; a tick keeps it so. -/
theorem execTimer_keeps_inv {op : TimerOp} (hop : (Instr.timer op).wellFormed = true) :
    NextSatisfies State.Inv (execTimer op s) := by
  cases op with
  | arm d =>
    have hd : 1 ≤ d ∧ d ≤ Config.timerMax := by simpa [Instr.wellFormed] using hop
    exact nextSatisfies_next.2 (h.setTimer hd)
  | expired => exact nextSatisfies_next.2 (h.give _)
  | clear => exact nextSatisfies_next.2 (h.setTimer trivial)
  | tick => exact nextSatisfies_next.2 (h.setTimer (Timer.tick_inRange h.timer))

theorem injectRaw_keeps_inv (base : Addr) (bytes : List Byte) : NextSatisfies State.Inv (injectRaw base bytes s) :=
  nextSatisfies_injectRaw h fun v _ hks => (h.writeCycle base v).push hks

theorem execInject_keeps_inv (form : InjectForm) (base : Addr) (bytes : List Byte) :
    NextSatisfies State.Inv (execInject form base bytes s) := by
  cases form with
  | raw => exact injectRaw_keeps_inv h base bytes
  | image keepLocked => exact nextSatisfies_next.2 (h.injectImage base bytes keepLocked)

theorem execBlock_keeps_inv (lb : Byte) (payload : List Byte) (ck : Byte) :
    NextSatisfies State.Inv (execBlock lb payload ck s) :=
  nextSatisfies_next.2 ((h.storeFrame lb payload ck).setXor _)

/-- Every operation the foreground may call keeps the invariant. -/
theorem exec_keeps_inv {i : Instr} (hlegal : (Stmt.op i).legal = true) : NextSatisfies State.Inv (exec i s) := by
  obtain ⟨hfg, hwf⟩ : i.foreground = true ∧ i.wellFormed = true := by simpa [Stmt.legal] using hlegal
  cases i with
  | loadBinary => exact nextSatisfies_next.2 ((h.setClock false).goto rfl)
  | echo => exact nextSatisfies_next.2 (State.Inv.armTimeout (h.goto rfl) (Nat.le_refl 1))
  | uploadToRam => exact nextSatisfies_next.2 (State.Inv.receiveBlock (h.goto rfl) _)
  | downloadFromRam => exact nextSatisfies_next.2 (State.Inv.readRegion (h.goto rfl) _)
  | unknown _ => exact nextSatisfies_next.2 (h.flushInput.goto rfl)
  | statusOk | statusTimeout | statusInvalidSize | statusChecksumFailed | statusUnknownCommand | statusFrameError
  | statusBufferOverflow | sendByte _ => exact nextSatisfies_next.2 (h.sendByte _)
  | size hi lo => exact nextSatisfies_next.2 (h.setSize hi lo)
  | block lb payload ck => exact execBlock_keeps_inv h lb payload ck
  | fetch => exact execFetch_keeps_inv h
  | dispatch => exact nextSatisfies_next.2 (h.goto rfl)
  | loadFailure => exact nextSatisfies_next.2 ((h.setClock false).push rfl)
  | loadSuccess => exact nextSatisfies_next.2 ((h.setTrapEnable true).push rfl)
  | loadProtocol => exact nextSatisfies_next.2 ((h.setLoadState .awaitSize).push rfl)
  | armTimeout n =>
    have hn : 1 ≤ n ∧ n ≤ 257 := by simpa [Instr.wellFormed] using hwf
    exact nextSatisfies_next.2 (h.armTimeout hn.1)
  | recvByte => exact execRecvByte_keeps_inv h
  | flushInput => exact nextSatisfies_next.2 h.flushInput
  | validate => exact execValidate_keeps_inv h
  | timer op => exact execTimer_keeps_inv h hwf
  | receiveBlock maxSize => exact nextSatisfies_next.2 (h.receiveBlock maxSize)
  | sendBlock bytes => exact nextSatisfies_next.2 (h.sendBlock bytes)
  | acquireBus => exact nextSatisfies_next.2 h.acquireBus
  | releaseBus => exact nextSatisfies_next.2 (h.setBusreq false)
  | writeByteAt addr value => exact nextSatisfies_execWriteByteAt (h.writeCycle addr value)
  | readByteAt addr => exact nextSatisfies_execReadByteAt ((h.readCycle addr).give _)
  | inject form base bytes => exact execInject_keeps_inv h form base bytes
  | readRegion count => exact nextSatisfies_next.2 (h.readRegion count)
  | switchBank index => exact nextSatisfies_execSwitchBank (h.bankCycle index)
  | statusReserved _ | port0Write | port0Read | port1Read | port1Write | port2Read | port2Write | portUnknown _ _
  | ledDisable | ledEnable | ledSelectLed | ledSelectSwitch | ledNone _ | trapEntry | ioTrapDispatcher | completeTrap
  | trapReturn => simp [Instr.foreground] at hfg

/-! ### The statements that are no call -/

theorem microBlockLength_keeps_inv (maxSize : Byte) : NextSatisfies State.Inv (microBlockLength maxSize s) := by
  unfold microBlockLength
  split
  · exact nextSatisfies_next.2 (h.push rfl)
  · refine nextSatisfies_next.2 (h.push ?_)
    rw [List.all_cons, payloadWindow_legal]
    rfl

theorem microRecvBuf_keeps_inv (i : Byte) : NextSatisfies State.Inv (microRecvBuf i s) := by
  refine recvStore_keeps_inv h (fun v hu => hu.setBuf i v) rfl ?_
  split <;> rfl

theorem microValidateChoose_keeps_inv : NextSatisfies State.Inv (microValidateChoose s) := by
  refine nextSatisfies_next.2 (h.push ?_)
  simp only [List.all_cons, status_legal]
  rfl

theorem microArmClamp_keeps_inv {d : Nat} (hd : 1 ≤ d) : NextSatisfies State.Inv (microArmClamp d s) := by
  refine nextSatisfies_next.2 (h.push ?_)
  simpa [Stmt.legal, Instr.foreground, Instr.wellFormed] using one_le_clamped hd

theorem microSendBlockBytes_keeps_inv (bytes : List Byte) : NextSatisfies State.Inv (microSendBlockBytes bytes s) := by
  cases bytes with
  | nil => exact nextSatisfies_next.2 (h.sendByte _)
  | cons b rest => exact nextSatisfies_next.2 (State.Inv.sendByte (h.push rfl) b)

/-- Every legal statement of the foreground that is no call keeps the invariant. -/
theorem runMicro_keeps_inv {m : Micro} (hm : m.legal = true) : NextSatisfies State.Inv (runMicro m s) := by
  cases m with
  | recvInto d => exact recvStore_keeps_inv h (fun v hu => hu.store d v) rfl rfl
  | recvBuf i => exact microRecvBuf_keeps_inv h i
  | txWrite b => exact nextSatisfies_next.2 (h.txWrite b)
  | validateChoose => exact microValidateChoose_keeps_inv h
  | validateClear => exact nextSatisfies_next.2 h.clearFlags
  | armClamp d => exact microArmClamp_keeps_inv h (by simpa [Micro.legal] using hm)
  | giveResult r => exact nextSatisfies_next.2 (h.give r)
  | blockLength maxSize => exact microBlockLength_keeps_inv h maxSize
  | sendBlockZero bytes => exact nextSatisfies_next.2 ((h.setXor 0).push rfl)
  | sendBlockBytes bytes => exact microSendBlockBytes_keeps_inv h bytes
  | sendBlockFold b => exact nextSatisfies_next.2 (h.setXor _)
  | readRegion i left =>
    exact nextSatisfies_microReadRegion h fun v _ hks => (State.Inv.setBuf (h.readCycle _) i v).push hks
  | uploadInject n => exact nextSatisfies_next.2 (h.injectImage _ _ _)
  | injectBlock n final => exact nextSatisfies_next.2 (h.injectImage _ _ _)
  | downloadSend => exact nextSatisfies_next.2 (h.sendBlock _)
  | blockOk => exact nextSatisfies_next.2 (h.give _)
  | toFetch => exact nextSatisfies_next.2 (h.goto rfl)
  | assertReset => exact nextSatisfies_next.2 h.holdTarget
  | disableTrap => exact nextSatisfies_next.2 (h.setTrapEnable false)
  | releaseReset => exact nextSatisfies_next.2 h.freeTarget
  | startClock => exact nextSatisfies_next.2 (h.setClock true)
  | writeCount => exact nextSatisfies_microWriteCount (h.writeCycle _ _)
  | enterBlocks => exact nextSatisfies_next.2 (h.setLoadState .awaitBlocks)
  | loadDone => exact nextSatisfies_next.2 (State.Inv.give (h.setLoadState .done) _)
  | loadAbort => exact nextSatisfies_next.2 h.abortLoad
  | advanceAddr n => exact nextSatisfies_next.2 (h.setNextAddr _)
  | reduceRemaining n => exact nextSatisfies_next.2 (h.setRemaining _)
  | uploadLength | requireLb | takeBlock => exact nextSatisfies_next.2 (h.push rfl)
  | blockChecked _ | blockPayload =>
    simp only [runMicro, microBlockChecked, microBlockPayload]
    split
    · exact nextSatisfies_next.2 h
    · exact nextSatisfies_next.2 (h.push rfl)
  | sizeChecked | blockReceived =>
    simp only [runMicro, microSizeChecked, microBlockReceived]
    split
    · exact nextSatisfies_next.2 h.abortLoad
    · exact nextSatisfies_next.2 (h.push rfl)
  | echoReply =>
    simp only [runMicro, microEchoReply]
    split
    · exact nextSatisfies_next.2 (h.push rfl)
    · exact nextSatisfies_next.2 h
  | uploadChecked =>
    simp only [runMicro, microUploadChecked]
    split
    · exact nextSatisfies_next.2 (h.goto rfl)
    · exact nextSatisfies_next.2 (h.push rfl)
  | loadResult =>
    simp only [runMicro, microLoadResult]
    split
    · exact nextSatisfies_next.2 (h.push rfl)
    · exact nextSatisfies_next.2 (h.push rfl)
  | awaitGrant | injectRelease _ =>
    exact nextSatisfies_ite (nextSatisfies_next.2 h) (nextSatisfies_next.2 (h.push rfl))
  | blockCompare | blocksLoop | checkLb _ =>
    exact nextSatisfies_ite (nextSatisfies_next.2 (h.push rfl)) (nextSatisfies_next.2 (h.push rfl))

/-- Every legal statement keeps the invariant, decoding included. -/
theorem runStmt_keeps_inv {st : Stmt} (hst : st.legal = true) : NextSatisfies State.Inv (runStmt st s) := by
  cases st with
  | op i => exact exec_keeps_inv h hst
  | command b => exact exec_keeps_inv h (decodeCmd_legal b)
  | sizeField => exact nextSatisfies_next.2 (h.setSize _ _)
  | blockField =>
    refine nextSatisfies_runDecoded fun i l hdec => ?_
    obtain ⟨lb, payload, ck, rfl⟩ := eq_block_of_decode hdec
    exact execBlock_keeps_inv h lb payload ck
  | micro m => exact runMicro_keeps_inv h hst

theorem foregroundStep_keeps_inv : NextSatisfies State.Inv (foregroundStep s) := by
  refine nextSatisfies_foregroundStep (fun _ => execFetch_keeps_inv h) fun st rest hpc => ?_
  have hall := h.program
  rw [hpc, List.all_cons, Bool.and_eq_true] at hall
  exact runStmt_keeps_inv (h.goto hall.2) hall.1

/-! ## What the dispatcher and the environment do to the invariant -/

theorem execPort1Write_keeps_inv : NextSatisfies State.Inv (execPort1Write s) := by
  unfold execPort1Write
  split_ifs
  · exact nextSatisfies_next.2 (h.setPort1 _)
  · exact nextSatisfies_next.2 (h.setPort1 _)
  · exact nextSatisfies_next.2 (h.setPort1 _)
  · exact nextSatisfies_next.2 (h.setPort1 _)
  · exact nextSatisfies_next.2 h

/-- A port operation drives DATA only for a Read, and the dispatcher then stands where it may (45_io_ports R272). -/
theorem exec_port_keeps_inv (ht : s.trap.inTrap = true) (hp : s.trap.pos.answering = true)
    (port : Port) : NextSatisfies State.Inv (exec (decodePort s.trap.ioDir port) s) := by
  rcases decodePort_cases s.trap.ioDir port with ⟨-, he | he | he⟩ | ⟨hd, he | he | he⟩ | he <;> rw [he]
  · exact nextSatisfies_next.2 (h.txWrite _)
  · exact execPort1Write_keeps_inv h
  · exact nextSatisfies_next.2 (h.switchBank _)
  · exact nextSatisfies_next.2 h
  · exact nextSatisfies_next.2 (h.answerRead ht hd hp _)
  · exact nextSatisfies_next.2 (h.answerRead ht hd hp _)
  · exact nextSatisfies_next.2 h

/-- Once the handshake is over on a Read, and from the start on a Write, DATA is released (45_io_ports R272). -/
theorem trapReleaseData_keeps_inv : NextSatisfies State.Inv (trapReleaseData s) := by
  unfold trapReleaseData
  cases hd : s.trap.ioDir with
  | read => exact nextSatisfies_next.2 (h.releaseData.setTrapPos (by simp))
  | write =>
    refine nextSatisfies_next.2 (h.setTrapPos fun ho => ?_)
    obtain ⟨-, hread, -⟩ := h.data ho
    simp [hd] at hread

theorem trapStep_keeps_inv (ht : s.trap.inTrap = true) : NextSatisfies State.Inv (trapStep s) := by
  have released : s.trap.pos.answering = false → ¬ s.bus.dataDir = .out := by
    intro hp ho
    obtain ⟨-, -, hanswering⟩ := h.data ho
    simp [hanswering] at hp
  unfold trapStep
  cases hpos : s.trap.pos with
  | dispatchPort =>
    simp only [decode_ioreqWord, runDecoded_ok]
    exact exec_port_keeps_inv (s := s.setTrapPos .complete) (h.setTrapPos fun _ => rfl) ht rfl _
  | complete => exact nextSatisfies_next.2 ((h.setBusreq true).setTrapPos fun _ => rfl)
  | pulseWaitAck => exact nextSatisfies_next.2 (h.pulseWaitAck.setTrapPos fun _ => rfl)
  | awaitAck => exact nextSatisfies_ite (nextSatisfies_next.2 (h.setTrapPos fun _ => rfl)) (nextSatisfies_next.2 h)
  | releaseData => exact trapReleaseData_keeps_inv h
  | dropRequest =>
    exact nextSatisfies_next.2 ((h.setBusreq false).setTrapPos fun ho => absurd ho (released (by rw [hpos]; rfl)))
  | ret => exact nextSatisfies_next.2 (h.leaveTrap (released (by rw [hpos]; rfl)))

theorem runMove_keeps_inv {m : Move} (hm : m.environmental = true) : NextSatisfies State.Inv (runMove m s) := by
  cases m with
  | controller | foreground => simp [Move.environmental] at hm
  | hostSend d badStop => exact nextSatisfies_next.2 (h.hostSend d badStop)
  | hostTake => exact nextSatisfies_next.2 h.hostTake
  | rx => exact nextSatisfies_next.2 h.receiveWire
  | loseMarks fe ovf => exact nextSatisfies_next.2 (h.setSkipNext _)
  | tx => exact nextSatisfies_next.2 h.transmit
  | tick => exact nextSatisfies_next.2 (h.setTimer (Timer.tick_inRange h.timer))
  | grant =>
    refine nextSatisfies_targetMove fun he => ?_
    simp only [Bool.and_eq_true, beq_iff_eq] at he
    obtain ⟨⟨hrun, -⟩, hc⟩ := he
    exact h.grant hrun hc
  | ungrant => exact nextSatisfies_targetMove fun _ => h.ungrant
  | cycleStart c => exact nextSatisfies_targetMove fun he => h.startCycle ((mayStart_iff s c).1 he).left c
  | cycleEnd =>
    intro t ht
    obtain ⟨c, hc, hrun, rfl⟩ := moveCycleEnd_next ht
    exact h.finishCycle hrun hc
  | switchLevel v => exact nextSatisfies_next.2 (h.setPort1 _)

end Invariant

/-! ## Startup and the invariant over every step -/

/-- Settles O6: each register by evaluation, and an empty memory reads as the startup byte everywhere. -/
theorem startupStateIsTheTableOfR40 : Obligations.StartupStateIsTheTableOfR40 := by
  have released : State.reset.owner = .targetOwned := (owner_target_iff _).2 ⟨rfl, .inl rfl⟩
  have memory : ∀ l, memRead State.reset.mem l = Config.startupByte l := fun _ => rfl
  unfold Obligations.StartupStateIsTheTableOfR40
  simp only [released, memory]
  simp [State.reset]

/-- Settles O7: nothing is listed, waiting, owed, driven, pending or in progress, and the program is a legal call. -/
theorem invariantHoldsAtStartup : Obligations.InvariantHoldsAtStartup :=
  { mem := ⟨List.Pairwise.nil, nofun⟩
    rxDepth := Nat.zero_le _
    owed := Nat.zero_le _
    timer := trivial
    addr := rfl
    memctl := rfl
    strobes := ⟨rfl, rfl, rfl⟩
    data := nofun
    blockCount := by decide
    bank := rfl
    held := nofun
    frozen := nofun
    granted := nofun
    fresh := nofun
    request := rfl
    program := rfl }

/-- Settles O8: each agent that may take the step keeps the invariant. -/
theorem everyStepKeepsTheInvariant : Obligations.EveryStepKeepsTheInvariant := by
  unfold Obligations.EveryStepKeepsTheInvariant
  intro s t h
  refine nextSatisfies_step (P := State.Inv) ?trap ?enter ?foreground ?environment t
  case trap =>
    intro ms ht
    exact trapStep_keeps_inv (h.reschedule ms) ht
  case enter =>
    intro ms ht
    have hd := h.dataDir_of_notInTrap ht
    exact nextSatisfies_next.2 (((h.reschedule ms).enterTrap hd).setTrapPos fun ho => by simp [hd] at ho)
  case foreground =>
    intro ms _
    exact foregroundStep_keeps_inv (h.reschedule ms)
  case environment =>
    intro m ms hm
    exact runMove_keeps_inv (h.reschedule ms) hm

/-! ## The sticky flags -/

/-- The three sticky flags (10_state R21): FrameError, BufferOverflow, Timeout. -/
def Link.flags (l : Link) : Bool × Bool × Bool := (l.frameError, l.bufferOverflow, l.timeout)

/-- From `s` to `t` no sticky flag has changed. -/
def FlagsKept (s t : State) : Prop := t.link.flags = s.link.flags

/-- From `s` to `t` no flag is cleared, and each flag set has the cause a test of `recv_byte` finds (40_serial_link R121). -/
structure FlagsReceived (s t : State) : Prop where
  frameError : s.link.frameError = true → t.link.frameError = true
  bufferOverflow : s.link.bufferOverflow = true → t.link.bufferOverflow = true
  timeout : s.link.timeout = true → t.link.timeout = true
  frameErrorCause : s.link.frameError = false → t.link.frameError = true →
    ∃ r rest, s.uart.rxFifo = r :: rest ∧ r.marks.fe = true
  bufferOverflowCause : s.link.bufferOverflow = false → t.link.bufferOverflow = true →
    ∃ r rest, s.uart.rxFifo = r :: rest ∧ r.marks.ovf = true
  timeoutCause : s.link.timeout = false → t.link.timeout = true → s.link.timer = .expired

theorem FlagsKept.of_link {s t : State} (h : t.link = s.link) : FlagsKept s t := congrArg Link.flags h

theorem FlagsKept.received {s t : State} (h : FlagsKept s t) : FlagsReceived s t := by
  simp only [FlagsKept, Link.flags, Prod.mk.injEq] at h
  obtain ⟨hfe, hovf, hto⟩ := h
  constructor <;> simp_all

theorem FlagsReceived.congr_link {s t u : State} (h : FlagsReceived s t) (hu : u.link = t.link) : FlagsReceived s u := by
  constructor <;> rw [hu]
  exacts [h.frameError, h.bufferOverflow, h.timeout, h.frameErrorCause, h.bufferOverflowCause, h.timeoutCause]

/-- A skipped assignment sets no flag, so a flag newly set is a mark of the byte in either setting of the parameter
(40_serial_link R121, R130). -/
theorem latchMarks_sets_only_marks {s : State} {m : RxMarks} :
    ((s.latchMarks m).link.frameError = true → s.link.frameError = true ∨ m.fe = true) ∧
      ((s.latchMarks m).link.bufferOverflow = true → s.link.bufferOverflow = true ∨ m.ovf = true) := by
  rw [State.latchMarks_link]
  split
  · simp only [Link.latchLossy, Link.latch, RxMarks.kept, Bool.or_eq_true, Bool.and_eq_true]
    exact ⟨Or.imp_right And.left, Or.imp_right And.left⟩
  · simp [Link.latch]

theorem flagsReceived_of_got {s u : State} {d : Byte} (h : s.recvTest = .got d u) : FlagsReceived s u := by
  obtain ⟨r, rest, v, hf, hv, -, rfl⟩ := recvTest_got h
  have hlink : (v.popRx rest).link = s.link := by rcases hv with rfl | rfl <;> rfl
  obtain ⟨hfe, hovf, hto, -⟩ := latchMarks_keeps_flags (v.popRx rest) r.marks
  obtain ⟨hfe', hovf'⟩ := latchMarks_sets_only_marks (s := v.popRx rest) (m := r.marks)
  rw [hlink] at hfe hovf hto hfe' hovf'
  exact
    { frameError := hfe
      bufferOverflow := hovf
      timeout := fun ht => hto.trans ht
      frameErrorCause := fun h0 h1 => ⟨r, rest, hf, (hfe' h1).resolve_left (by simp [h0])⟩
      bufferOverflowCause := fun h0 h1 => ⟨r, rest, hf, (hovf' h1).resolve_left (by simp [h0])⟩
      timeoutCause := fun h0 h1 => by rw [hto, h0] at h1; cases h1 }

theorem flagsReceived_of_expired {s u : State} (h : s.recvTest = .expired u) : FlagsReceived s u := by
  obtain ⟨ht, v, hv, rfl⟩ := recvTest_expired h
  have hlink : v.link = s.link := by rcases hv with rfl | rfl <;> rfl
  constructor <;> simp_all

/-- `x <- recv_byte()` does to the flags what its test does, where storing the byte leaves SerialLink alone. -/
theorem recvStore_flagsReceived {s : State} {put : State → Byte → State} {again : Stmt} {next : List Stmt}
    (hput : ∀ u v, (put u v).link = u.link) : NextSatisfies (FlagsReceived s) (s.recvStore put again next) := by
  refine nextSatisfies_recvStore ?got ?expired (FlagsKept.of_link (State.push_link s _)).received
  case got =>
    intro d u hu
    exact (flagsReceived_of_got hu).congr_link (by simp [hput])
  case expired =>
    intro u v hu
    exact (flagsReceived_of_expired hu).congr_link (by simp [hput])

theorem execRecvByte_flagsReceived (s : State) : NextSatisfies (FlagsReceived s) (execRecvByte s) := by
  unfold execRecvByte
  cases hr : s.recvTest with
  | got d u => exact nextSatisfies_next.2 ((flagsReceived_of_got hr).congr_link rfl)
  | expired u => exact nextSatisfies_next.2 ((flagsReceived_of_expired hr).congr_link rfl)
  | waiting => exact nextSatisfies_next.2 (FlagsKept.of_link (State.push_link s _)).received

theorem execFetch_flagsReceived (s : State) : NextSatisfies (FlagsReceived s) (execFetch s) :=
  recvStore_flagsReceived fun _ _ => by simp

/-- Every test of `recv_byte` (40_serial_link R121). -/
theorem runStmt_flagsReceived (s : State) {st : Stmt} (hst : st.receives = true) :
    NextSatisfies (FlagsReceived s) (runStmt st s) := by
  unfold Stmt.receives at hst
  split at hst
  · exact execRecvByte_flagsReceived s
  · exact execFetch_flagsReceived s
  · exact recvStore_flagsReceived fun _ _ => by simp
  · exact recvStore_flagsReceived fun _ _ => rfl
  · simp at hst

/-- 40_serial_link R125: the first statement of a checkpoint clears the timer at most. -/
theorem execValidate_flagsKept (s : State) : NextSatisfies (FlagsKept s) (execValidate s) := by
  rcases execValidate_cases s with ⟨-, he⟩ | ⟨-, -, he⟩ | ⟨-, -, he⟩
  · rw [he]; exact nextSatisfies_refused _
  · rw [he, nextSatisfies_next]; rfl
  · rw [he, nextSatisfies_next]; rfl

theorem execTimer_flagsKept (op : TimerOp) (s : State) : NextSatisfies (FlagsKept s) (execTimer op s) := by
  cases op <;> exact nextSatisfies_next.2 rfl

theorem execInject_flagsKept (form : InjectForm) (base : Addr) (bytes : List Byte) (s : State) :
    NextSatisfies (FlagsKept s) (execInject form base bytes s) := by
  cases form with
  | raw => exact nextSatisfies_injectRaw rfl fun v _ _ => .of_link (by simp)
  | image keepLocked => exact nextSatisfies_next.2 rfl

theorem execPort1Write_flagsKept (s : State) : NextSatisfies (FlagsKept s) (execPort1Write s) := by
  unfold execPort1Write
  split_ifs <;> exact nextSatisfies_next.2 rfl

theorem execBlock_flagsKept (lb : Byte) (payload : List Byte) (ck : Byte) (s : State) :
    NextSatisfies (FlagsKept s) (execBlock lb payload ck s) := by
  simp [execBlock, FlagsKept]

/-- An operation that is no test of `recv_byte` keeps the flags. -/
theorem exec_flagsKept (s : State) {i : Instr} (hi : (Stmt.op i).receives = false) :
    NextSatisfies (FlagsKept s) (exec i s) := by
  cases i with
  | fetch | recvByte => simp [Stmt.receives] at hi
  | statusReserved b => exact nextSatisfies_refused _
  | statusOk | statusTimeout | statusInvalidSize | statusChecksumFailed | statusUnknownCommand | statusFrameError
  | statusBufferOverflow | sendByte _ => exact nextSatisfies_next.2 (.of_link (State.sendByte_link s _))
  | sendBlock bytes => exact nextSatisfies_next.2 (.of_link (State.sendBlock_link s bytes))
  | port0Write => exact nextSatisfies_next.2 (.of_link (State.txWrite_link s _))
  | port1Write => exact execPort1Write_flagsKept s
  | validate => exact execValidate_flagsKept s
  | timer op => exact execTimer_flagsKept op s
  | block lb payload ck => exact execBlock_flagsKept lb payload ck s
  | inject form base bytes => exact execInject_flagsKept form base bytes s
  | writeByteAt a v => exact nextSatisfies_execWriteByteAt (.of_link (State.writeCycle_link s a v))
  | readByteAt a => exact nextSatisfies_execReadByteAt (.of_link (State.readCycle_link s a))
  | switchBank v => exact nextSatisfies_execSwitchBank (.of_link (State.bankCycle_link s v))
  | _ => exact nextSatisfies_next.2 rfl

/-- A statement that is neither a test of `recv_byte` nor step 5 of `validate` keeps the flags. -/
theorem runMicro_flagsKept (s : State) {m : Micro} (hr : (Stmt.micro m).receives = false) (hc : m ≠ .validateClear) :
    NextSatisfies (FlagsKept s) (runMicro m s) := by
  cases m with
  | recvInto _ | recvBuf _ => simp [Stmt.receives] at hr
  | validateClear => exact absurd rfl hc
  | txWrite b => exact nextSatisfies_next.2 (.of_link (State.txWrite_link s b))
  | sendBlockBytes bytes =>
    cases bytes <;> exact nextSatisfies_next.2 (.of_link (State.sendByte_link _ _))
  | downloadSend => exact nextSatisfies_next.2 (.of_link (State.sendBlock_link s _))
  | readRegion i left => exact nextSatisfies_microReadRegion rfl fun _ _ _ => .of_link (by simp)
  | writeCount => exact nextSatisfies_microWriteCount (.of_link (State.writeCycle_link s _ _))
  | blockLength _ | blockCompare | awaitGrant | injectRelease _ | blocksLoop | checkLb _ =>
    exact nextSatisfies_ite (nextSatisfies_next.2 rfl) (nextSatisfies_next.2 rfl)
  | blockChecked _ | blockPayload | echoReply | uploadChecked | loadResult | sizeChecked | blockReceived =>
    simp only [runMicro, microBlockChecked, microBlockPayload, microEchoReply, microUploadChecked, microLoadResult,
      microSizeChecked, microBlockReceived]
    split <;> exact nextSatisfies_next.2 rfl
  | _ => exact nextSatisfies_next.2 rfl

/-- 43_command_loop R201: no command byte stands for a bare test of `recv_byte`. -/
theorem decodeCmd_not_receives (b : Byte) : (Stmt.op (decodeCmd b)).receives = false := by
  unfold decodeCmd
  split_ifs <;> rfl

/-- 45_io_ports R260: no port operation is a test of `recv_byte`. -/
theorem decodePort_not_receives (dir : IoDir) (port : Port) : (Stmt.op (decodePort dir port)).receives = false := by
  unfold decodePort
  cases dir <;> split_ifs <;> rfl

/-- A statement that is neither a test of `recv_byte` nor step 5 of `validate` keeps the flags. -/
theorem runStmt_flagsKept (s : State) {st : Stmt} (hr : st.receives = false) (hc : st ≠ .micro .validateClear) :
    NextSatisfies (FlagsKept s) (runStmt st s) := by
  cases st with
  | op i => exact exec_flagsKept s hr
  | command b => exact exec_flagsKept s (decodeCmd_not_receives b)
  | sizeField => exact nextSatisfies_next.2 rfl
  | blockField =>
    refine nextSatisfies_runDecoded fun i l hdec => ?_
    obtain ⟨lb, payload, ck, rfl⟩ := eq_block_of_decode hdec
    exact execBlock_flagsKept lb payload ck s
  | micro m => exact runMicro_flagsKept s hr fun hm => hc (hm ▸ rfl)

/-- The dispatcher keeps the flags (60_exceptions R302, R303). -/
theorem trapStep_flagsKept (s : State) : NextSatisfies (FlagsKept s) (trapStep s) := by
  unfold trapStep
  cases s.trap.pos with
  | dispatchPort =>
    simp only [decode_ioreqWord, runDecoded_ok]
    exact exec_flagsKept (s.setTrapPos .complete) (decodePort_not_receives _ _)
  | awaitAck => exact nextSatisfies_ite (nextSatisfies_next.2 rfl) (nextSatisfies_next.2 rfl)
  | releaseData =>
    simp only [trapReleaseData]
    split <;> exact nextSatisfies_next.2 rfl
  | complete | pulseWaitAck | dropRequest | ret => exact nextSatisfies_next.2 rfl

/-- No move of the environment sets or clears a flag. -/
theorem runMove_flagsKept (s : State) {m : Move} (hm : m.environmental = true) :
    NextSatisfies (FlagsKept s) (runMove m s) := by
  cases m with
  | controller | foreground => simp [Move.environmental] at hm
  | hostTake => exact nextSatisfies_next.2 (.of_link (State.hostTake_link s))
  | rx => exact nextSatisfies_next.2 (.of_link (State.receiveWire_link s))
  | tx => exact nextSatisfies_next.2 (.of_link (State.transmit_link s))
  | grant | ungrant | cycleStart c => exact nextSatisfies_targetMove fun _ => rfl
  | cycleEnd =>
    intro t ht
    obtain ⟨c, -, -, rfl⟩ := moveCycleEnd_next ht
    exact .of_link (State.finishCycle_link s c)
  | hostSend _ _ | loseMarks _ _ | tick | switchLevel _ => exact nextSatisfies_next.2 rfl

/-- The foreground stands at a test of `recv_byte`, with nothing left at that of FETCH. -/
def State.atReceive (s : State) : Prop := s.fg.pc = [] ∨ ∃ st rest, s.fg.pc = st :: rest ∧ st.receives = true

/-- What a step can do to the sticky flags (10_state R38): nothing, a reception of the foreground, or step 5 of `validate`. -/
def FlagsStep (s t : State) : Prop :=
  FlagsKept s t ∨ (s.trap.inTrap = false ∧ s.atReceive ∧ FlagsReceived s t) ∨
    ((∃ rest, s.fg.pc = .micro .validateClear :: rest) ∧ t.link.flags = (false, false, false))

/-- Which moves are left says nothing of the flags. -/
theorem FlagsStep.of_schedule {s t : State} {ms : List Move} (h : FlagsStep { s with schedule := ms } t) : FlagsStep s t :=
  h.imp_right (Or.imp_left fun ⟨ht, hpc, received⟩ => ⟨ht, hpc, { received with }⟩)

theorem foregroundStep_flagsStep {s : State} (ht : s.trap.inTrap = false) :
    NextSatisfies (FlagsStep s) (foregroundStep s) := by
  refine nextSatisfies_foregroundStep (fun hpc t hs => ?fetch) fun st rest hpc t hs => ?stmt
  case fetch => exact .inr (.inl ⟨ht, .inl hpc, execFetch_flagsReceived s t hs⟩)
  case stmt =>
    cases hr : st.receives with
    | true =>
      have received : FlagsReceived (s.goto rest) t := runStmt_flagsReceived _ hr t hs
      exact .inr (.inl ⟨ht, .inr ⟨st, rest, hpc, hr⟩, { received with }⟩)
    | false =>
      by_cases hc : st = .micro .validateClear
      · subst hc
        cases hs
        exact .inr (.inr ⟨⟨rest, hpc⟩, rfl⟩)
      · exact .inl (runStmt_flagsKept (s.goto rest) hr hc t hs)

theorem step_flagsStep (s : State) : NextSatisfies (FlagsStep s) (step s) := by
  refine nextSatisfies_step ?trap ?enter ?foreground ?environment
  case trap => exact fun ms _ t ht => .inl (trapStep_flagsKept { s with schedule := ms } t ht)
  case enter => exact fun ms _ => nextSatisfies_next.2 (.inl rfl)
  case foreground => exact fun ms ht t hs => (foregroundStep_flagsStep (s := { s with schedule := ms }) ht t hs).of_schedule
  case environment => exact fun m ms hm t ht => .inl (runMove_flagsKept { s with schedule := ms } hm t ht)

/-- Settles O19: each of the three things a step can do to the flags meets every clause. -/
theorem stickyFlagsAreSetByRecvByteAndClearedAtCheckpoints :
    Obligations.StickyFlagsAreSetByRecvByteAndClearedAtCheckpoints := by
  unfold Obligations.StickyFlagsAreSetByRecvByteAndClearedAtCheckpoints
  intro s t hstep
  rcases step_flagsStep s t hstep with kept | ⟨ht, hpc, h⟩ | ⟨hpc, cleared⟩
  · have h := kept.received
    simp only [FlagsKept, Link.flags, Prod.mk.injEq] at kept
    obtain ⟨hfe, hovf, hto⟩ := kept
    exact ⟨.inr ⟨h.frameError, h.bufferOverflow, h.timeout⟩, .inl ⟨hfe ▸ id, hovf ▸ id, hto ▸ id⟩, h.frameErrorCause,
      h.bufferOverflowCause, h.timeoutCause⟩
  · exact ⟨.inr ⟨h.frameError, h.bufferOverflow, h.timeout⟩, .inr ⟨ht, hpc⟩, h.frameErrorCause, h.bufferOverflowCause,
      h.timeoutCause⟩
  · simp only [Link.flags, Prod.mk.injEq] at cleared
    obtain ⟨hfe, hovf, hto⟩ := cleared
    exact ⟨.inl hpc, .inl (by simp [hfe, hovf, hto]), by simp [hfe], by simp [hovf], by simp [hto]⟩

end Sys2Proof.Machine
end

