-- ==== Sys2Proof/Proofs/MemoryOwnership.lean ====
section
/-! The statement of the family 20_memory: what the controller's steps may do to memory. A byte of memory is written in
`write_byte_at`, in `inject_raw` and in the write of the count cell, each under the requirement of 42_bus_arbiter R177; every
other statement of the foreground and of the dispatcher leaves memory alone. -/

namespace Sys2Proof.Machine

/-- A step of the controller is the dispatcher's, the entry of the trap or the foreground's (60_exceptions R300). -/
theorem nextSatisfies_controllerStep {P : State → Prop} {s : State} (trap : NextSatisfies P (trapStep s))
    (enter : NextSatisfies P (exec .ioTrapDispatcher s)) (foreground : NextSatisfies P (foregroundStep s)) :
    NextSatisfies P (controllerStep s) :=
  nextSatisfies_ite trap (nextSatisfies_ite enter foreground)

/-- From `s` to `t` memory has changed at most with the controller as owner of the bus at `s` (20_memory R74). -/
def MemWrittenByOwner (s t : State) : Prop := t.mem = s.mem ∨ s.owner = .controllerOwned

/-- A step that leaves memory alone asks nothing of the owner. -/
theorem MemWrittenByOwner.of_mem {s t : State} (h : t.mem = s.mem) : MemWrittenByOwner s t := .inl h

/-! ## The operations that receive a byte or drive the bus -/

/-- 42_bus_arbiter R177: a driving operation goes on only where the controller owns the bus, so its effect may be any. -/
theorem requireOwner_memWrittenByOwner (s : State) (k : State → Result) :
    NextSatisfies (MemWrittenByOwner s) (requireOwner s k) :=
  fun _ ht => .inr (requireOwner_next ht).1

/-- 42_bus_arbiter R174: an empty list writes nothing, the first byte of another is written under the requirement. -/
theorem injectRaw_memWrittenByOwner (base : Addr) (bytes : List Byte) (s : State) :
    NextSatisfies (MemWrittenByOwner s) (injectRaw base bytes s) := by
  cases bytes with
  | nil => exact nextSatisfies_next.2 (.of_mem rfl)
  | cons v rest =>
    unfold injectRaw
    exact requireOwner_memWrittenByOwner s _

/-- 42_bus_arbiter R175: the bytes left are read under the requirement. -/
theorem microReadRegion_memWrittenByOwner (i : Byte) (left : Nat) (s : State) :
    NextSatisfies (MemWrittenByOwner s) (microReadRegion i left s) := by
  cases left with
  | zero => exact nextSatisfies_next.2 (.of_mem rfl)
  | succ n =>
    unfold microReadRegion
    exact requireOwner_memWrittenByOwner s _

/-- A test of `recv_byte` that takes a byte leaves memory alone. -/
theorem mem_of_recvTest_got {s u : State} {d : Byte} (h : s.recvTest = .got d u) : u.mem = s.mem := by
  obtain ⟨r, rest, v, -, rfl | rfl, -, rfl⟩ := recvTest_got h <;> simp

/-- A test of `recv_byte` that finds Timeout leaves memory alone. -/
theorem mem_of_recvTest_expired {s u : State} (h : s.recvTest = .expired u) : u.mem = s.mem := by
  obtain ⟨-, v, rfl | rfl, rfl⟩ := recvTest_expired h <;> simp

/-- `x <- recv_byte()` leaves memory alone, where storing the byte does. -/
theorem recvStore_memWrittenByOwner {s : State} {put : State → Byte → State} {again : Stmt} {next : List Stmt}
    (hput : ∀ u v, (put u v).mem = u.mem) : NextSatisfies (MemWrittenByOwner s) (s.recvStore put again next) := by
  refine nextSatisfies_recvStore ?got ?expired (.of_mem (State.push_mem s _))
  case got =>
    intro d u hu
    exact .of_mem (by simp [hput, mem_of_recvTest_got hu])
  case expired =>
    intro u v hu
    exact .of_mem (by simp [hput, mem_of_recvTest_expired hu])

/-- 40_serial_link R121: each result of the test leaves memory alone. -/
theorem execRecvByte_memWrittenByOwner (s : State) : NextSatisfies (MemWrittenByOwner s) (execRecvByte s) := by
  unfold execRecvByte
  cases hr : s.recvTest with
  | got d u => exact nextSatisfies_next.2 (.of_mem (by simp [mem_of_recvTest_got hr]))
  | expired u => exact nextSatisfies_next.2 (.of_mem (by simp [mem_of_recvTest_expired hr]))
  | waiting => exact nextSatisfies_next.2 (.of_mem rfl)

/-! ## The operations and statements -/

/-- The driving operations stand under the requirement of R177 and every other operation leaves memory alone. -/
theorem exec_memWrittenByOwner (i : Instr) (s : State) : NextSatisfies (MemWrittenByOwner s) (exec i s) := by
  cases i with
  | writeByteAt _ _ | readByteAt _ | switchBank _ =>
    simp only [exec, execWriteByteAt, execReadByteAt, execSwitchBank]
    exact requireOwner_memWrittenByOwner s _
  | inject form base bytes =>
    cases form with
    | raw => exact injectRaw_memWrittenByOwner base bytes s
    | image keepLocked => exact nextSatisfies_next.2 (.of_mem rfl)
  | fetch => exact recvStore_memWrittenByOwner fun u v => State.store_mem u _ v
  | recvByte => exact execRecvByte_memWrittenByOwner s
  | statusReserved b => exact nextSatisfies_refused _
  | statusOk | statusTimeout | statusInvalidSize | statusChecksumFailed | statusUnknownCommand | statusFrameError
  | statusBufferOverflow | sendByte _ => exact nextSatisfies_next.2 (.of_mem (State.sendByte_mem s _))
  | sendBlock bytes => exact nextSatisfies_next.2 (.of_mem (State.sendBlock_mem s bytes))
  | port0Write => exact nextSatisfies_next.2 (.of_mem (State.txWrite_mem s _))
  | port1Write =>
    simp only [exec, execPort1Write]
    split_ifs <;> exact nextSatisfies_next.2 (.of_mem rfl)
  | validate =>
    exact nextSatisfies_ite (nextSatisfies_refused _)
      (nextSatisfies_ite (nextSatisfies_next.2 (.of_mem rfl)) (nextSatisfies_next.2 (.of_mem rfl)))
  | timer op => cases op <;> exact nextSatisfies_next.2 (.of_mem rfl)
  | block lb payload ck => exact nextSatisfies_next.2 (.of_mem (by simp))
  | _ => exact nextSatisfies_next.2 (.of_mem rfl)

/-- The write of the count cell (44_load_protocol R232) and the reads of `read_region` stand under the requirement of R177;
every other statement leaves memory alone. -/
theorem runMicro_memWrittenByOwner (m : Micro) (s : State) : NextSatisfies (MemWrittenByOwner s) (runMicro m s) := by
  cases m with
  | writeCount =>
    simp only [runMicro, microWriteCount]
    exact requireOwner_memWrittenByOwner s _
  | readRegion i left => exact microReadRegion_memWrittenByOwner i left s
  | recvInto d => exact recvStore_memWrittenByOwner fun u v => State.store_mem u d v
  | recvBuf i => exact recvStore_memWrittenByOwner fun u v => State.setBuf_mem u i v
  | txWrite b => exact nextSatisfies_next.2 (.of_mem (State.txWrite_mem s b))
  | sendBlockBytes bytes =>
    cases bytes with
    | nil => exact nextSatisfies_next.2 (.of_mem (State.sendByte_mem s s.blk.xor))
    | cons b rest => exact nextSatisfies_next.2 (.of_mem (State.sendByte_mem (s.push _) b))
  | downloadSend => exact nextSatisfies_next.2 (.of_mem (State.sendBlock_mem s _))
  | blockLength _ | blockCompare | awaitGrant | injectRelease _ | blocksLoop | checkLb _ =>
    exact nextSatisfies_ite (nextSatisfies_next.2 (.of_mem rfl)) (nextSatisfies_next.2 (.of_mem rfl))
  | blockChecked _ | blockPayload | echoReply | uploadChecked | loadResult | sizeChecked | blockReceived =>
    simp only [runMicro, microBlockChecked, microBlockPayload, microEchoReply, microUploadChecked, microLoadResult,
      microSizeChecked, microBlockReceived]
    split <;> exact nextSatisfies_next.2 (.of_mem rfl)
  | _ => exact nextSatisfies_next.2 (.of_mem rfl)

/-- What a decode position reads is executed as an operation, whichever it is. -/
theorem runStmt_memWrittenByOwner (st : Stmt) (s : State) : NextSatisfies (MemWrittenByOwner s) (runStmt st s) := by
  cases st with
  | op i => exact exec_memWrittenByOwner i s
  | command _ | sizeField | blockField =>
    rw [runStmt]
    exact nextSatisfies_runDecoded fun i _ _ => exec_memWrittenByOwner i s
  | micro m => exact runMicro_memWrittenByOwner m s

/-! ## The controller's step -/

/-- The position a statement leaves behind is no part of memory or of the bus. -/
theorem foregroundStep_memWrittenByOwner (s : State) : NextSatisfies (MemWrittenByOwner s) (foregroundStep s) :=
  nextSatisfies_foregroundStep (fun _ => exec_memWrittenByOwner .fetch s)
    fun st rest _ => runStmt_memWrittenByOwner st (s.goto rest)

/-- The dispatcher executes one port operation; its other statements work on the handshake lines (60_exceptions R303). -/
theorem trapStep_memWrittenByOwner (s : State) : NextSatisfies (MemWrittenByOwner s) (trapStep s) := by
  unfold trapStep
  cases s.trap.pos with
  | dispatchPort => exact nextSatisfies_runDecoded fun i _ _ => exec_memWrittenByOwner i (s.setTrapPos .complete)
  | awaitAck => exact nextSatisfies_ite (nextSatisfies_next.2 (.of_mem rfl)) (nextSatisfies_next.2 (.of_mem rfl))
  | releaseData =>
    simp only [trapReleaseData]
    split <;> exact nextSatisfies_next.2 (.of_mem rfl)
  | complete | pulseWaitAck | dropRequest | ret => exact nextSatisfies_next.2 (.of_mem rfl)

/-- 20_memory R74, for the controller's step under any schedule. -/
theorem controllerStep_memWrittenByOwner (s : State) : NextSatisfies (MemWrittenByOwner s) (controllerStep s) :=
  nextSatisfies_controllerStep (trapStep_memWrittenByOwner s) (exec_memWrittenByOwner .ioTrapDispatcher s)
    (foregroundStep_memWrittenByOwner s)

/-- Settles O60: with nothing scheduled a step is the controller's. -/
theorem controllerWritesMemoryOnlyAsOwner : Obligations.ControllerWritesMemoryOnlyAsOwner := by
  unfold Obligations.ControllerWritesMemoryOnlyAsOwner
  intro s t hs hstep
  rw [step_nil hs] at hstep
  exact controllerStep_memWrittenByOwner s t hstep

end Sys2Proof.Machine
end

