-- ==== Sys2Proof/Proofs/EncodingRoundTrip.lean ====
section
/-! The statements of the family 30_encoding about the formats: the decoder and the encoder agree in both directions. Both
directions speak of one relation between an instruction and its bytes; each one-byte format needs one fact per direction. -/

namespace Sys2Proof

/-- `i` has its operands in range and `bs` are its bytes in format `f`. -/
def Encodes (i : Instr) (f : Format) (bs : List Byte) : Prop := i.wellFormed = true ∧ encode i = some (f, bs)

/-! ## From an encoding to its instruction -/

/-- 30_encoding R92, R101: a byte that is no command's exact value decodes to `Unknown`. -/
theorem decodeCmd_unknown {b : Byte} (h : (Instr.unknown b).wellFormed = true) : decodeCmd b = .unknown b := by
  have hb : b = 0 ∨ 4 < b := by simpa [Instr.wellFormed] using h
  unfold decodeCmd
  rw [if_neg, if_neg, if_neg, if_neg] <;> bv_omega

/-- 30_encoding R94, R102: a byte above the last code decodes to the reserved status. -/
theorem decodeStatus_reserved {b : Byte} (h : (Instr.statusReserved b).wellFormed = true) :
    decodeStatus b = .statusReserved b := by
  have hb : 6 < b := by simpa [Instr.wellFormed] using h
  unfold decodeStatus
  rw [if_neg, if_neg, if_neg, if_neg, if_neg, if_neg, if_neg] <;> bv_omega

/-- 30_encoding R106: a data byte above the last sub-command decodes to none of them. -/
theorem decodeLedcmd_none {b : Byte} (h : (Instr.ledNone b).wellFormed = true) : decodeLedcmd b = .ledNone b := by
  have hb : 3 < b := by simpa [Instr.wellFormed] using h
  unfold decodeLedcmd Config.ledcmdDisable Config.ledcmdEnable Config.ledcmdModeLed Config.ledcmdModeSwitch
  rw [if_neg, if_neg, if_neg, if_neg] <;> bv_omega

/-- 30_encoding R105: a port above the known ones decodes to the unknown port. -/
theorem decodePort_unknown {dir : IoDir} {port : Port} (h : (Instr.portUnknown dir port).wellFormed = true) :
    decodePort dir port = .portUnknown dir port := by
  have hp : 2 < port := by simpa [Instr.wellFormed] using h
  unfold decodePort
  rw [if_neg, if_neg, if_neg] <;> bv_omega

/-- 30_encoding R104: what follows an IOREQ word does not change what it decodes to. -/
theorem decode_ioreqWord_cons (dir : IoDir) (port : Port) (rest : List Byte) :
    decode .ioreq (ioreqWord dir port :: rest) = .ok (decodePort dir port, rest) := by
  have h := Machine.decode_ioreqWord dir port
  simp only [decode] at h ⊢
  split_ifs at h ⊢
  simpa using h

/-- 30_encoding R96, R97: a frame is cut after its length byte plus 1 payload bytes. -/
theorem decode_block {lb : Byte} {payload : List Byte} (h : payload.length = lb.toNat + 1) (ck : Byte) (rest : List Byte) :
    decode .block (lb :: payload ++ ck :: rest) = .ok (.block lb payload ck, rest) := by
  simp [decode, List.drop_left' h, List.take_left' h]

/-- The bytes of an instruction decode to it, and what follows them is left. -/
theorem Encodes.decode_append {i : Instr} {f : Format} {bs : List Byte} (h : Encodes i f bs) (rest : List Byte) :
    decode f (bs ++ rest) = .ok (i, rest) := by
  obtain ⟨hw, he⟩ := h
  cases i with
  | loadBinary | echo | uploadToRam | downloadFromRam | statusOk | statusTimeout | statusInvalidSize | statusChecksumFailed
  | statusUnknownCommand | statusFrameError | statusBufferOverflow | ledDisable | ledEnable | ledSelectLed | ledSelectSwitch
  | size _ _ => cases he; rfl
  | unknown b => cases he; simp [decode, decodeCmd_unknown hw]
  | statusReserved b => cases he; simp [decode, decodeStatus_reserved hw]
  | ledNone b => cases he; simp [decode, decodeLedcmd_none hw]
  | port0Write | port0Read | port1Write | port1Read | port2Write | port2Read => cases he; exact decode_ioreqWord_cons _ _ rest
  | portUnknown dir port => cases he; exact decodePort_unknown hw ▸ decode_ioreqWord_cons dir port rest
  | block lb payload ck =>
    cases he
    have hlen : payload.length = lb.toNat + 1 := by simpa [Instr.wellFormed] using hw
    simpa using decode_block hlen ck rest
  | _ => cases he

/-- An instruction's bytes alone decode to it. -/
theorem Encodes.decode_eq {i : Instr} {f : Format} {bs : List Byte} (h : Encodes i f bs) : decode f bs = .ok (i, []) := by
  simpa using h.decode_append []

/-! ## From decoded bytes to the encoding -/

/-- 30_encoding R92: the command byte is the encoding of what it decodes to. -/
theorem encodes_decodeCmd (b : Byte) : Encodes (decodeCmd b) .cmd [b] := by
  unfold decodeCmd
  split_ifs
  case neg =>
    have reserved : b = 0 ∨ 4 < b := by bv_omega
    exact ⟨by simpa [Instr.wellFormed] using reserved, rfl⟩
  all_goals subst b; exact ⟨rfl, rfl⟩

/-- 30_encoding R94, R102: the status byte is the encoding of what it decodes to. -/
theorem encodes_decodeStatus (b : Byte) : Encodes (decodeStatus b) .status [b] := by
  unfold decodeStatus
  split_ifs
  case neg =>
    have reserved : 6 < b := by bv_omega
    exact ⟨by simpa [Instr.wellFormed] using reserved, rfl⟩
  all_goals subst b; exact ⟨rfl, rfl⟩

/-- 30_encoding R106: the data byte is the encoding of what it decodes to. -/
theorem encodes_decodeLedcmd (b : Byte) : Encodes (decodeLedcmd b) .ledcmd [b] := by
  unfold decodeLedcmd Config.ledcmdDisable Config.ledcmdEnable Config.ledcmdModeLed Config.ledcmdModeSwitch
  split_ifs
  case neg =>
    have noCommand : 3 < b := by bv_omega
    exact ⟨by simpa [Instr.wellFormed] using noCommand, rfl⟩
  all_goals subst b; exact ⟨rfl, rfl⟩

/-- 30_encoding R104, R105: the word of a direction and a port is the encoding of the operation they select. -/
theorem encodes_decodePort (dir : IoDir) (port : Port) : Encodes (decodePort dir port) .ioreq [ioreqWord dir port] := by
  unfold decodePort
  split_ifs
  case neg =>
    have unknown : 2 < port := by bv_omega
    exact ⟨by simpa [Instr.wellFormed] using unknown, rfl⟩
  all_goals subst port; cases dir <;> exact ⟨rfl, rfl⟩

/-- 30_encoding R104: a byte with nothing above its 5 bits is the word of its direction and port. -/
theorem ioreqWord_of_high_clear {b : Byte} (h : b.extractLsb' 5 3 = 0) : ioreqWord (ioreqDir b) (b.extractLsb' 0 4) = b := by
  revert b
  decide

/-- A list with something after its first `n` elements has `n` of them, and is cut there. -/
theorem take_of_drop_eq_cons {α : Type} {l tail : List α} {n : Nat} {a : α} (h : l.drop n = a :: tail) :
    (l.take n).length = n ∧ l = l.take n ++ a :: tail := by
  refine ⟨?length, by rw [← h, List.take_append_drop]⟩
  have hpos : 0 < (l.drop n).length := by simp [h]
  rw [List.length_drop] at hpos
  rw [List.length_take]
  omega

/-- The bytes consumed are the encoding of the instruction read: no two encodings of a format overlap and no bit is dropped. -/
theorem encodes_of_decode {f : Format} {bytes rest : List Byte} {i : Instr} (h : decode f bytes = .ok (i, rest)) :
    ∃ bs, Encodes i f bs ∧ bytes = bs ++ rest := by
  cases bytes with
  | nil => cases h
  | cons b tail =>
    cases f with
    | cmd => cases h; exact ⟨[b], encodes_decodeCmd b, rfl⟩
    | status => cases h; exact ⟨[b], encodes_decodeStatus b, rfl⟩
    | ledcmd => cases h; exact ⟨[b], encodes_decodeLedcmd b, rfl⟩
    | ioreq =>
      simp only [decode] at h
      split_ifs at h with high
      cases h
      have word := encodes_decodePort (ioreqDir b) (b.extractLsb' 0 4)
      rw [ioreqWord_of_high_clear high] at word
      exact ⟨[b], word, rfl⟩
    | size =>
      cases tail with
      | nil => cases h
      | cons lo tail => cases h; exact ⟨[b, lo], ⟨rfl, rfl⟩, rfl⟩
    | block =>
      simp only [decode] at h
      split at h
      · cases h
      · rename_i ck tail' hdrop
        cases h
        obtain ⟨hlen, hcut⟩ := take_of_drop_eq_cons hdrop
        exact ⟨b :: tail.take (b.toNat + 1) ++ [ck], ⟨by simpa [Instr.wellFormed] using hlen, rfl⟩,
          by simpa using congrArg (b :: ·) hcut⟩

/-! ## The two directions -/

/-- Settles O1: each one-byte format's remaining values, an IOREQ word and a BLOCK frame have a lemma of their own. -/
theorem decodeReadsBackEveryEncoding : Obligations.DecodeReadsBackEveryEncoding :=
  fun _ _ _ rest hw he => Encodes.decode_append ⟨hw, he⟩ rest

/-- Settles O2, by the format and the bytes it reads. -/
theorem decodedBytesEncodeBack : Obligations.DecodedBytesEncodeBack := by
  intro f bytes rest i h
  obtain ⟨bs, ⟨hw, he⟩, hbytes⟩ := encodes_of_decode h
  exact ⟨hw, bs, he, hbytes⟩

/-- Settles O3: each word is its row's encoding. -/
theorem tableWordsDecodeToTheirRows : Obligations.TableWordsDecodeToTheirRows := by
  refine ⟨?_, ?_, ?_, ?_, ?_, ?_, ?_, ?_⟩ <;> exact Encodes.decode_eq ⟨rfl, rfl⟩

end Sys2Proof
end

