-- ==== Sys2Proof/Proofs/EncodedOperations.lean ====
section
/-! The statements of the family 30_encoding about operations: what those of the status, SIZE and BLOCK formats do with their
field. -/

namespace Sys2Proof.Machine

/-! ## Status bytes -/

/-- A statement put in front and taken again leaves the state as it was. -/
theorem State.push_goto (s : State) (ks : List Stmt) : (s.push ks).goto s.fg.pc = s := rfl

/-- 40_serial_link R122: an operation that is `send_byte(b)` puts the byte into the free transmitter one step later and changes
nothing else. -/
theorem completes_of_exec_sendByte {i : Instr} {s : State} {b : Byte} (h : exec i s = .next (s.sendByte b)) (q : s.Quiet)
    (free : s.uart.txReg = none) : Completes i s 1 { s with uart.txReg := some b } := by
  refine ⟨s.push [.micro (.txWrite b)], by rw [h, sendByte_free free], .cons ?_ ((runs_zero _ _).2 rfl), rfl⟩
  have quiet : (s.push [.micro (.txWrite b)]).Quiet := { q with }
  calc step (s.push [.micro (.txWrite b)])
      = runMicro (.txWrite b) ((s.push [.micro (.txWrite b)]).goto s.fg.pc) := quiet.step_eq_runStmt rfl
    _ = .next (s.txWrite b) := by rw [State.push_goto]; rfl
    _ = .next { s with uart.txReg := some b } := by rw [txWrite_empty free]

/-- Settles O14: each status operation is `send_byte` of its code (30_encoding R94). -/
theorem statusOperationsSendTheirCodes : Obligations.StatusOperationsSendTheirCodes := by
  intro s q free
  refine ⟨?_, ?_, ?_, ?_, ?_, ?_, ?_⟩ <;> exact completes_of_exec_sendByte rfl q free

/-- 30_encoding R94: an error's code is one of 1 to 6. -/
theorem Err.code_le (e : Err) : e.code ≤ 6 := by
  cases e <;> decide

/-- Settles O15: a status byte above 6 is the encoding of the reserved row, which has no meaning (30_encoding R102). -/
theorem reservedStatusIsNeverSent : Obligations.ReservedStatusIsNeverSent := by
  refine ⟨fun _ _ => rfl, fun b hb => ?decoded, Err.code_le⟩
  exact Encodes.decode_eq ⟨by simpa [Instr.wellFormed] using hb, rfl⟩

/-! ## The BLOCK frame -/

/-- Folding bytes by XOR into `acc` flips its bit `k` as often as that bit is set in them. -/
theorem getLsbD_foldl_xor (bytes : List Byte) (acc : Byte) (k : Nat) :
    (bytes.foldl (· ^^^ ·) acc).getLsbD k =
      (acc.getLsbD k ^^ decide (bytes.countP (fun b => b.getLsbD k) % 2 = 1)) := by
  induction bytes generalizing acc with
  | nil => simp
  | cons b bytes ih =>
    rw [List.foldl_cons, ih, BitVec.getLsbD_xor, List.countP_cons, Bool.xor_assoc]
    rcases Nat.mod_two_eq_zero_or_one (bytes.countP fun b => b.getLsbD k) with h | h <;>
      cases b.getLsbD k <;> simp [Nat.add_mod, h]

/-- 30_encoding R98: the XOR over bytes is, in each bit position, the parity of the set bits. -/
theorem xorFold_getLsbD (bytes : List Byte) (k : Nat) :
    (xorFold bytes).getLsbD k = decide (bytes.countP (fun b => b.getLsbD k) % 2 = 1) := by
  simpa [xorFold] using getLsbD_foldl_xor bytes 0 k

/-- A buffer position holds the byte stored there, or else what it held. -/
theorem bufStore_getElem (buf : Vector Byte 256) (bytes : List Byte) {j : Nat} (hj : j < 256) :
    (bufStore buf bytes)[j] = bytes[j]?.getD buf[j] := by
  simp only [bufStore, Vector.getElem_ofFn]
  cases bytes[j]? <;> rfl

/-- The bytes are stored in front of the buffer, whose rest stays. -/
theorem bufStore_toList (buf : Vector Byte 256) {bytes : List Byte} (h : bytes.length ≤ 256) :
    (bufStore buf bytes).toList = bytes ++ buf.toList.drop bytes.length := by
  apply List.ext_getElem
  · rw [List.length_append, List.length_drop, Vector.length_toList, Vector.length_toList]
    omega
  · intro j hj _
    rw [Vector.length_toList] at hj
    rw [Vector.getElem_toList, bufStore_getElem buf bytes hj, List.getElem_append]
    split
    case isTrue hin => simp [hin]
    case isFalse hout =>
      have hpos : bytes.length + (j - bytes.length) = j := by omega
      simp [hpos, Nat.le_of_not_lt hout]

/-- 30_encoding R97: the payload is the first bytes of the buffer, as many as the length byte counts. -/
theorem State.payload_eq {t : State} {payload tail : List Byte} (hlen : payload.length = t.blk.lb.toNat + 1)
    (hbuf : t.blk.buf.toList = payload ++ tail) : t.payload = payload := by
  rw [State.payload, State.bufBytes, State.payloadLen, hbuf, List.take_left' hlen]

/-- Settles O25: the buffer starts with the payload, `blk_lb` counts its bytes, and the XOR is that of the payload. -/
theorem blockFrameFillsTheBlockRegisters : Obligations.BlockFrameFillsTheBlockRegisters := by
  intro s lb payload ck hlen
  have stored := bufStore_toList s.blk.buf (bytes := payload) (by omega)
  have hpayload : State.payload { s.storeFrame lb payload ck with blk.xor := xorFold payload } = payload :=
    State.payload_eq hlen stored
  refine ⟨{ s.storeFrame lb payload ck with blk.xor := xorFold payload }, rfl, rfl, rfl, rfl,
    fun k _ => xorFold_getLsbD payload k, hpayload, ?frame, ?rest, ?unchanged⟩
  case frame => rw [State.frameBytes, hpayload]; rfl
  case rest =>
    rw [← hlen]
    exact (congrArg (List.drop payload.length) stored).trans List.drop_left
  case unchanged => simp

/-! ## The SIZE field -/

/-- 30_encoding R95: the first byte of the field is the high one. -/
theorem sizeOf_toNat (hi lo : Byte) : (sizeOf hi lo).toNat = hi.toNat * 256 + lo.toNat := by
  rw [sizeOf, BitVec.toNat_append, ← Nat.shiftLeft_add_eq_or_of_lt lo.isLt, Nat.shiftLeft_eq]

/-- 30_encoding R99, R110: 9 bits hold the ceiling, so that it does not wrap. -/
theorem blockCountOf_toNat (total : Size) : (blockCountOf total).toNat = (total.toNat + 255) / 256 := by
  have := total.isLt
  rw [blockCountOf, BitVec.toNat_ofNat, Nat.mod_eq_of_lt (by omega)]

/-- Settles O26: the counters start from the size the two bytes stand for. -/
theorem sizeFieldSetsTheImageCounters : Obligations.SizeFieldSetsTheImageCounters := by
  intro s hi lo
  have hcount := blockCountOf_toNat (sizeOf hi lo)
  have hlt : (sizeOf hi lo).toNat < 65536 := (sizeOf hi lo).isLt
  refine ⟨s.setSize hi lo, Encodes.decode_eq ⟨rfl, rfl⟩, rfl, sizeOf_toNat hi lo, rfl, hcount, ?zero, ?full, rfl, rfl, rfl⟩
  case zero =>
    simp only [State.setSize_img, hcount]
    omega
  case full =>
    simp only [State.setSize_img, hcount]
    omega

end Sys2Proof.Machine
end

