-- ==== Sys2Proof/Proofs/ForegroundRuns.lean ====
section
/-! Runs of the foreground in quiet states: one statement in front of a run, and a call whose operation completes. -/

namespace Sys2Proof.Machine

/-- The foreground position is no part of what makes a state quiet. -/
theorem State.Quiet.goto {s : State} (q : s.Quiet) (ks : List Stmt) : (s.goto ks).Quiet := { q with }

theorem State.Quiet.push {s : State} (q : s.Quiet) (ks : List Stmt) : (s.push ks).Quiet := { q with }

/-- A statement in front of a run. -/
theorem State.Quiet.runs_stmt {s t u : State} {st : Stmt} {rest : List Stmt} {k : Nat} (q : s.Quiet)
    (hpc : s.fg.pc = st :: rest) (h : runStmt st (s.goto rest) = .next t) (hr : Runs k t u) : Runs (k + 1) s u :=
  .cons ((q.step_eq_runStmt hpc).trans h) hr

/-- A call in front of a run: its first statement is one step, and the steps in which it completes follow. -/
theorem State.Quiet.runs_call {s t u : State} {i : Instr} {rest : List Stmt} {j k : Nat} (q : s.Quiet)
    (hpc : s.fg.pc = .op i :: rest) (h : Completes i (s.goto rest) j t) (hr : Runs k t u) : Runs (j + k + 1) s u := by
  obtain ⟨t₁, hexec, hruns, -⟩ := h
  exact q.runs_stmt hpc hexec (hruns.trans hr)

end Sys2Proof.Machine
end

