-- ==== Sys2Proof/Proofs/SerialTimer.lean ====
section
/-! The statements of the family 40_serial_link about the timer: arming, the primitives and the countdown. -/

namespace Sys2Proof.Machine

/-! ## Arming -/

/-- 40_serial_link R123: the timer alone is changed, in the statements of steps 2 and 3. -/
theorem completes_armTimeout {s : State} (q : s.Quiet) (n : Nat) :
    Completes (.armTimeout n) s 2 (s.setTimer (.running (timeoutTicks n))) := by
  have armed : Runs 1 (s.push [.op (.timer (.arm (timeoutTicks n)))]) (s.setTimer (.running (timeoutTicks n))) :=
    (q.push _).runs_stmt rfl rfl ((runs_zero _ _).2 rfl)
  exact ⟨s.armTimeout n, rfl, State.Quiet.runs_stmt { q with } rfl rfl armed, rfl⟩

/-- The product is taken as it is up to `TIMER_MAX`, the largest duration. -/
theorem timeoutTicks_of_le {n : Nat} (h : n * Config.ticksPerByte ≤ Config.timerMax) :
    timeoutTicks n = n * Config.ticksPerByte := Nat.min_eq_left h

theorem timeoutTicks_of_lt {n : Nat} (h : Config.timerMax < n * Config.ticksPerByte) : timeoutTicks n = Config.timerMax :=
  Nat.min_eq_right h.le

/-- Waiting for a byte takes at least one tick: both parameters are at least 1 (00_scope R7). -/
theorem one_le_timeoutTicks {n : Nat} (h : 1 ≤ n) : 1 ≤ timeoutTicks n :=
  one_le_clamped (Nat.mul_pos h (Nat.succ_pos _))

/-! ## Ticks -/

/-- A tick counts a timer with more than one tick left down. -/
theorem Timer.tick_running (n : Nat) : (Timer.running (n + 2)).tick = .running (n + 1) := by
  simp [Timer.tick]

/-- The last tick expires the timer: `Running(0)` is not observed (40_serial_link R124). -/
theorem Timer.tick_running_one : (Timer.running 1).tick = .expired := rfl

/-- A tick leaves a timer that does not run alone. -/
theorem Timer.tick_of_not_running {t : Timer} (h : t = .idle ∨ t = .expired) : t.tick = t := by
  rcases h with rfl | rfl <;> rfl

theorem exec_timer_tick (s : State) : exec (.timer .tick) s = .next (s.setTimer s.link.timer.tick) := rfl

/-- Storing what the timer holds changes nothing. -/
theorem State.setTimer_self (s : State) : s.setTimer s.link.timer = s := rfl

/-- Settles O9: the duration is the saturating product of R123, and each primitive is its case of R124. -/
theorem armTimeoutSaturatesAndTimerPrimitives : Obligations.ArmTimeoutSaturatesAndTimerPrimitives := by
  intro s
  refine ⟨fun n q => ⟨timeoutTicks n, completes_armTimeout q n, timeoutTicks_of_le, timeoutTicks_of_lt,
    one_le_timeoutTicks⟩, fun _ => rfl, rfl, rfl, ?running, ?last, ?idle⟩
  case running =>
    intro n ht
    rw [exec_timer_tick, ht, Timer.tick_running]
    rfl
  case last =>
    intro ht
    rw [exec_timer_tick, ht, Timer.tick_running_one]
    rfl
  case idle =>
    intro ht
    rw [exec_timer_tick, Timer.tick_of_not_running ht, State.setTimer_self]

/-! ## The countdown -/

/-- `n` ticks are left and scheduled, before the moves `ms`. -/
def State.counting (s : State) (n : Nat) (ms : List Move) : State :=
  { s with link.timer := .running n, schedule := List.replicate n .tick ++ ms }

/-- A state with its timer running and the ticks scheduled is one that counts. -/
theorem State.eq_counting {s : State} {d : Nat} {ms : List Move} (ht : s.link.timer = .running d)
    (hs : s.schedule = List.replicate d .tick ++ ms) : s = s.counting d ms := by
  rw [State.counting, ← ht, ← hs]

theorem step_tick {s : State} {ms : List Move} (h : s.schedule = .tick :: ms) :
    step s = .next { s with link.timer := s.link.timer.tick, schedule := ms } := step_cons h

theorem step_counting (s : State) (n : Nat) (ms : List Move) :
    step (s.counting (n + 2) ms) = .next (s.counting (n + 1) ms) := by
  have ticks : (s.counting (n + 2) ms).schedule = .tick :: (List.replicate (n + 1) .tick ++ ms) := rfl
  rw [step_tick ticks]
  show Host.Outcome.next { s with link.timer := (Timer.running (n + 2)).tick, schedule := _ } = _
  rw [Timer.tick_running]
  rfl

/-- The countdown of 40_serial_link R124, one step for each tick. -/
theorem runs_counting (s : State) (k n : Nat) (ms : List Move) :
    Runs k (s.counting (n + k + 1) ms) (s.counting (n + 1) ms) := by
  induction k with
  | zero => exact (runs_zero _ _).2 rfl
  | succ k ih => exact .cons (step_counting s (n + k) ms) ih

/-- Settles O10: the countdown leads to the state with one tick left, which the last tick expires. -/
theorem timerExpiresAfterExactlyItsTicks : Obligations.TimerExpiresAfterExactlyItsTicks := by
  intro s d ms hd ht hs
  have counting := State.eq_counting ht hs
  have counted {k : Nat} (hk : k < d) : Runs k s (s.counting (d - k) ms) := by
    obtain ⟨n, rfl⟩ : ∃ n, d = n + k + 1 := ⟨d - 1 - k, by omega⟩
    rw [show n + k + 1 - k = n + 1 by omega]
    exact counting ▸ runs_counting s k n ms
  refine ⟨fun k hk => counted hk, ?_⟩
  have last : Runs 1 (s.counting 1 ms) { s with link.timer := .expired, schedule := ms } :=
    .cons (step_tick rfl) ((runs_zero _ _).2 rfl)
  have before := counted (k := d - 1) (by omega)
  rw [show d - (d - 1) = 1 by omega] at before
  have run := before.trans last
  rwa [Nat.sub_add_cancel hd] at run

end Sys2Proof.Machine
end

