-- ==== Sys2Proof/Proofs/SerialLink.lean ====
section
/-! The statements of the family 40_serial_link about bytes: one test of `recv_byte`, `send_byte`, the checkpoint, and the moves
of the UART and the host. -/

namespace Sys2Proof.Machine

/-! ## Latching marks in either setting of LOSSY_ERROR_LATCH -/

/-- Without the parameter each mark is latched (40_serial_link R121). -/
theorem latchMarks_link_of_not_lossy (h : Config.lossyErrorLatch = false) (s : State) (m : RxMarks) :
    (s.latchMarks m).link = { s.link with
      frameError := s.link.frameError || m.fe, bufferOverflow := s.link.bufferOverflow || m.ovf } := by
  rw [State.latchMarks_link, h]
  rfl

/-- All marks are kept exactly where no mark set is skipped. -/
theorem RxMarks.kept_eq_iff (m skip : RxMarks) :
    m.kept skip = m ↔ ((m.fe && skip.fe) || (m.ovf && skip.ovf)) = false := by
  obtain ⟨fe, ovf⟩ := m
  obtain ⟨sfe, sovf⟩ := skip
  revert fe ovf sfe sovf
  decide

/-- Under the parameter the marks not skipped are latched, and bytes are owed where one was lost (40_serial_link R130). -/
theorem latchMarks_link_of_lossy (h : Config.lossyErrorLatch = true) (s : State) (m : RxMarks) :
    (s.latchMarks m).link = { s.link with
      frameError := s.link.frameError || (m.fe && !s.link.skipNext.fe),
      bufferOverflow := s.link.bufferOverflow || (m.ovf && !s.link.skipNext.ovf),
      skipNext := ⟨false, false⟩,
      owed := if (m.fe && s.link.skipNext.fe) || (m.ovf && s.link.skipNext.ovf) then 2 else s.link.owed - 1 } := by
  rw [State.latchMarks_link, h, if_pos rfl, Link.latchLossy]
  have lost := RxMarks.kept_eq_iff m s.link.skipNext
  cases hs : (m.fe && s.link.skipNext.fe) || (m.ovf && s.link.skipNext.ovf) with
  | true => rw [if_neg (by simp [lost, hs]), if_pos rfl]; rfl
  | false => rw [if_pos (lost.2 hs), if_neg (by simp)]; rfl

/-! ## The results of recv_byte -/

/-- `recv_byte` answers what its test finds. -/
theorem execRecvByte_of_got {s u : State} {d : Byte} (h : s.recvTest = .got d u) :
    exec .recvByte s = .next (u.give (.byte d)) := by
  simp [exec, execRecvByte, h]

theorem execRecvByte_of_expired {s u : State} (h : s.recvTest = .expired u) :
    exec .recvByte s = .next (u.give .timeout) := by
  simp [exec, execRecvByte, h]

/-- With nothing found the call is still to be executed. -/
theorem execRecvByte_of_waiting {s : State} (h : s.recvTest = .waiting) :
    exec .recvByte s = .next (s.push [.op .recvByte]) := by
  simp [exec, execRecvByte, h]

/-- Settles O11: the byte's marks are latched and nothing else but the queue and the result is touched. -/
theorem recvByteTakesTheOldestByte : Obligations.RecvByteTakesTheOldestByte := by
  intro s r rest hf ht
  obtain ⟨hfe, hovf, hto, htimer⟩ := latchMarks_keeps_flags (s.popRx rest) r.marks
  exact ⟨_, execRecvByte_got hf ht, rfl, rfl, fun h => latchMarks_link_of_not_lossy h _ _,
    fun h => latchMarks_link_of_lossy h _ _, hfe, hovf, hto, htimer, rfl, rfl, rfl, rfl, rfl, rfl, rfl, rfl, rfl⟩

/-- Settles O12: nothing waiting leaves one result for each condition of the timer; with both, either of the two results. -/
theorem recvByteTimesOutOnlyWhenExpired : Obligations.RecvByteTimesOutOnlyWhenExpired := by
  intro s
  refine ⟨fun hf ht => ?expired, fun hf ht => ?waiting, fun r rest hf ht => ?both⟩
  case expired =>
    rcases recvTest_empty hf with ⟨-, he⟩ | ⟨hn, -⟩
    · exact execRecvByte_of_expired he
    · exact absurd ht hn
  case waiting =>
    rcases recvTest_empty hf with ⟨he, -⟩ | ⟨-, hw⟩
    · exact absurd he ht
    · exact execRecvByte_of_waiting hw
  case both =>
    rcases recvTest_both hf ht with got | expired
    · exact ⟨_, execRecvByte_of_got got, .inl ⟨rfl, rfl, fun h => latchMarks_link_of_not_lossy h _ _,
        fun h => latchMarks_link_of_lossy h _ _⟩, rfl⟩
    · exact ⟨_, execRecvByte_of_expired expired, .inr ⟨rfl, hf, rfl⟩, rfl⟩

/-! ## send_byte and the transmitter -/

/-- The transmitter's step puts the byte it holds onto the wire (10_state R27). -/
theorem step_tx {s : State} {ms : List Move} {b : Byte} (hs : s.schedule = .tx :: ms) (h : s.uart.txReg = some b) :
    step s = .next { s with schedule := ms, uart.txReg := none, env.txWire := s.env.txWire ++ [b] } := by
  rw [step_cons hs]
  show Host.Outcome.next (State.transmit _) = _
  rw [State.transmit]
  simp only [h]

/-- A call of `send_byte` still to be executed, with the transmitter free, takes its first statement and the write. -/
theorem State.Quiet.runs_sendByte {s : State} (q : s.Quiet) (free : s.uart.txReg = none) (b : Byte) :
    Runs 2 (s.push [.op (.sendByte b)]) { s with uart.txReg := some b } :=
  (q.push _).runs_call rfl (completes_of_exec_sendByte rfl (q.goto s.fg.pc) free) ((runs_zero _ _).2 rfl)

/-- Settles O13: an occupied transmitter leaves the whole call to be executed, which finds it free after its move. -/
theorem sendByteWaitsForTheTransmitter : Obligations.SendByteWaitsForTheTransmitter := by
  intro s b
  refine ⟨completes_of_exec_sendByte rfl, fun p sched busy => ?busy⟩
  have waiting : exec (.sendByte b) s = .next (s.push [.op (.sendByte b)]) := congrArg _ (sendByte_busy busy b)
  have quiet : State.Quiet { s with schedule := [], uart.txReg := none, env.txWire := s.env.txWire ++ [p] } :=
    { sched with schedule := rfl }
  exact ⟨_, waiting, .cons (step_tx sched.schedule busy) (quiet.runs_sendByte rfl b), rfl⟩

/-! ## The checkpoint -/

/-- The checkpoint is admitted without the lossy parameter, and under it where no byte is owed (40_serial_link R130). -/
theorem skippedLate_eq_false {l : Link} (h : Config.lossyErrorLatch = false ∨ l.owed = 0) : l.skippedLate = false := by
  rcases h with h | h <;> simp [Link.skippedLate, h]

theorem Link.clear_iff (l : Link) :
    l.clear = true ↔ l.frameError = false ∧ l.bufferOverflow = false ∧ l.timeout = false := by
  simp [Link.clear, and_assoc]

/-- An admitted checkpoint with no flag set returns Ok and stops the timer (40_serial_link R125 step 1). -/
theorem exec_validate_clear {s : State} (hl : s.link.skippedLate = false) (hc : s.link.clear = true) :
    exec .validate s = .next ((s.setTimer .idle).give .ok) := by
  simp [exec, execValidate, hl, hc]

/-- An admitted checkpoint with a flag set goes on to choose its error. -/
theorem exec_validate_flagged {s : State} (hl : s.link.skippedLate = false) (hc : s.link.clear = false) :
    exec .validate s = .next (s.push [.micro .validateChoose]) := by
  simp [exec, execValidate, hl, hc]

/-- The report of 40_serial_link R127 is the choice of a checkpoint with a flag set, and the code that of the error chosen. -/
theorem FlagsReport.choose {l : Link} {e : Err} {c : Byte} (h : FlagsReport l.frameError l.bufferOverflow l.timeout e c) :
    l.clear = false ∧ l.choose = e ∧ e.code = c := by
  rcases h with ⟨hfe, rfl, rfl⟩ | ⟨hfe, hovf, rfl, rfl⟩ | ⟨hfe, hovf, hto, rfl, rfl⟩
  · simp [Link.clear, Link.choose, Err.code, hfe]
  · simp [Link.clear, Link.choose, Err.code, hfe, hovf]
  · simp [Link.clear, Link.choose, Err.code, hfe, hovf, hto]

/-- 30_encoding R94: the status operation of an error is `send_byte` of its code. -/
theorem exec_status (e : Err) (s : State) : exec e.status s = .next (s.sendByte e.code) := by
  cases e <;> rfl

/-- What steps 3 and 4 of a checkpoint that reports `e` leave: nothing waiting, and the code in the transmitter. -/
def State.reporting (s : State) (e : Err) : State := { s.flushInput with uart.txReg := some e.code }

/-- 40_serial_link R125 steps 3 to 6, as step 2 leaves them to be executed. -/
theorem State.Quiet.runs_report {s : State} (q : s.Quiet) (free : s.uart.txReg = none) (e : Err) :
    Runs 5 (s.push [.op .flushInput, .op e.status, .micro .validateClear, .micro (.giveResult (.err e))])
      ((s.reporting e).clearFlags.give (.err e)) := by
  have flushed : s.flushInput.Quiet := { q with }
  have reporting : (s.reporting e).Quiet := { q with }
  have cleared : (s.reporting e).clearFlags.Quiet := { q with }
  have give : Runs 1 ((s.reporting e).clearFlags.push [.micro (.giveResult (.err e))]) _ :=
    (cleared.push _).runs_stmt rfl rfl ((runs_zero _ _).2 rfl)
  have clear : Runs 2 ((s.reporting e).push [.micro .validateClear, .micro (.giveResult (.err e))]) _ :=
    (reporting.push _).runs_stmt rfl rfl give
  have report : Runs 4 (s.flushInput.push [.op e.status, .micro .validateClear, .micro (.giveResult (.err e))]) _ :=
    (flushed.push _).runs_call rfl (completes_of_exec_sendByte (exec_status e _) (flushed.goto _) free) clear
  exact (q.push _).runs_stmt rfl rfl report

/-- 40_serial_link R125: a checkpoint with a flag set reports the error chosen and returns it. -/
theorem completes_validate_flagged {s : State} (q : s.Quiet) (free : s.uart.txReg = none)
    (hl : s.link.skippedLate = false) (hc : s.link.clear = false) :
    Completes .validate s 6 ((s.reporting s.link.choose).clearFlags.give (.err s.link.choose)) :=
  ⟨_, exec_validate_flagged hl hc, (q.push _).runs_stmt rfl rfl (q.runs_report free _), rfl⟩

/-- Settles O17: whether a flag is set decides between the two returns, and R127's priority is the choice made. -/
theorem validateReportsTheHighestPriorityError : Obligations.ValidateReportsTheHighestPriorityError := by
  intro s howed
  have admitted := skippedLate_eq_false howed
  refine ⟨fun hfe hovf hto => exec_validate_clear admitted ((Link.clear_iff _).2 ⟨hfe, hovf, hto⟩),
    fun e c q free report => ?_⟩
  obtain ⟨flagged, rfl, rfl⟩ := FlagsReport.choose report
  exact completes_validate_flagged q free admitted flagged

/-! ## The moves of the UART and the host -/

/-- The receiver stores a byte where the queue has room (10_state R26). -/
theorem receive_of_lt {s : State} (h : s.uart.rxFifo.length < Config.rxDepth) (d : Byte) (fe : Bool) :
    s.receive d fe =
      { s with uart.rxFifo := s.uart.rxFifo ++ [⟨d, ⟨fe, s.uart.rxLost⟩⟩], uart.rxLost := false } := if_pos h

/-- It loses the byte where the queue is full. -/
theorem receive_of_le {s : State} (h : Config.rxDepth ≤ s.uart.rxFifo.length) (d : Byte) (fe : Bool) :
    s.receive d fe = { s with uart.rxLost := true } := if_neg (Nat.not_lt.2 h)

theorem step_rx {s : State} {ms : List Move} {w : WireByte} {wire : List WireByte} (hs : s.schedule = .rx :: ms)
    (hw : s.env.rxWire = w :: wire) :
    step s = .next ({ s with schedule := ms, env.rxWire := wire }.receive w.data w.badStop) := by
  rw [step_cons hs]
  show Host.Outcome.next (State.receiveWire _) = _
  rw [State.receiveWire]
  simp only [hw]

theorem step_hostTake {s : State} {ms : List Move} {b : Byte} {wire : List Byte} (hs : s.schedule = .hostTake :: ms)
    (hw : s.env.txWire = b :: wire) :
    step s = .next { s with schedule := ms, env.txWire := wire, env.hostRecv := s.env.hostRecv ++ [b] } := by
  rw [step_cons hs]
  show Host.Outcome.next (State.hostTake _) = _
  rw [State.hostTake]
  simp only [hw]

/-- Settles O16: each clause is the step of one agent. -/
theorem uartMovesBytesInOrder : Obligations.UartMovesBytesInOrder := by
  intro s
  refine ⟨rfl, fun d bad ms hs => step_cons hs, fun w wire ms hs hw room => ?stored, fun w wire ms hs hw full => ?lost,
    fun b ms => step_tx, fun b wire ms => step_hostTake⟩
  case stored =>
    rw [step_rx hs hw]
    exact congrArg _ (receive_of_lt (s := { s with schedule := ms, env.rxWire := wire }) room _ _)
  case lost =>
    rw [step_rx hs hw]
    exact congrArg _ (receive_of_le (s := { s with schedule := ms, env.rxWire := wire }) full _ _)

end Sys2Proof.Machine
end

