-- ==== Sys2Proof/Proofs/ErrorLatch.lean ====
section
/-! The statement of the family 40_serial_link about the marks of the last bytes before a checkpoint. Whether a mark was latched
or skipped, it is remembered: in the flags, or by a byte owed, and a checkpoint is refused while a byte is owed. -/

namespace Sys2Proof.Machine

/-- The marks `m` are in the flags, or under the lossy parameter more than `k` bytes are owed before a checkpoint
(40_serial_link R130; log 10). -/
def Link.Remembers (l : Link) (m : RxMarks) (k : Nat) : Prop :=
  ((m.fe = true → l.frameError = true) ∧ (m.ovf = true → l.bufferOverflow = true)) ∨
    (Config.lossyErrorLatch = true ∧ k < l.owed)

/-- The flags show the marks `m`, and the checkpoint goes on to choose its error where `m` has one. -/
structure MarksReported (m : RxMarks) (s v : State) : Prop where
  frameError : m.fe = true → v.link.frameError = true
  bufferOverflow : m.ovf = true → v.link.bufferOverflow = true
  chooses : m.fe = true ∨ m.ovf = true → v.fg.pc = .micro .validateChoose :: s.fg.pc

/-! ## Latching -/

/-- No choice of skips outlasts the byte it was made for. -/
theorem latchMarks_skipNext (h : Config.lossyErrorLatch = true) (s : State) (m : RxMarks) :
    (s.latchMarks m).link.skipNext = ⟨false, false⟩ := by
  rw [latchMarks_link_of_lossy h]

/-- With no skip chosen the byte consumed takes one off the bytes owed (40_serial_link R130). -/
theorem latchMarks_owed_of_no_skip (h : Config.lossyErrorLatch = true) {s : State} (hs : s.link.skipNext = ⟨false, false⟩)
    (m : RxMarks) : (s.latchMarks m).link.owed = s.link.owed - 1 := by
  rw [latchMarks_link_of_lossy h, hs]
  simp

/-- The marks of a byte consumed are in the flags, or `RX_DEPTH` bytes are owed. -/
theorem latchMarks_remembers (s : State) (m : RxMarks) : (s.latchMarks m).link.Remembers m 1 := by
  cases h : Config.lossyErrorLatch with
  | false =>
    rw [latchMarks_link_of_not_lossy h]
    exact .inl (by simp +contextual)
  | true =>
    rcases latchLossy_cases s.link m with ⟨kept, -⟩ | ⟨-, owed⟩
    · refine .inl ?_
      have hfe : (m.kept s.link.skipNext).fe = m.fe := by rw [kept]
      have hovf : (m.kept s.link.skipNext).ovf = m.ovf := by rw [kept]
      simp only [State.latchMarks_link, h, if_true, Link.latchLossy, Link.latch, hfe, hovf, Bool.or_eq_true]
      exact ⟨.inr, .inr⟩
    · refine .inr ⟨h, ?_⟩
      rw [State.latchMarks_link, h, if_pos rfl, owed]
      decide

/-- What is remembered is still remembered after a further byte, for one byte less. -/
theorem Link.Remembers.latchMarks {s : State} {m : RxMarks} (h : s.link.Remembers m 1) (m' : RxMarks) :
    (s.latchMarks m').link.Remembers m 0 := by
  obtain ⟨keepsFe, keepsOvf, -⟩ := latchMarks_keeps_flags s m'
  rcases h with ⟨hfe, hovf⟩ | ⟨lossy, owed⟩
  · exact .inl ⟨fun h => keepsFe (hfe h), fun h => keepsOvf (hovf h)⟩
  · refine .inr ⟨lossy, ?_⟩
    rw [latchMarks_link_of_lossy lossy]
    dsimp only
    split <;> omega

theorem Link.Remembers.of_one {l : Link} {m : RxMarks} (h : l.Remembers m 1) : l.Remembers m 0 :=
  h.imp_right fun ⟨lossy, owed⟩ => ⟨lossy, by omega⟩

/-! ## The checkpoint -/

/-- The checkpoint is refused exactly where the parameter is set and a byte is owed. -/
theorem Link.skippedLate_iff (l : Link) : l.skippedLate = true ↔ Config.lossyErrorLatch = true ∧ 0 < l.owed := by
  simp [Link.skippedLate, Nat.pos_iff_ne_zero, and_comm]

/-- Where the checkpoint is admitted no byte is owed, so what is remembered is in the flags. -/
theorem Link.Remembers.flags_of_admitted {l : Link} {m : RxMarks} (h : l.Remembers m 0) (admitted : l.skippedLate = false) :
    (m.fe = true → l.frameError = true) ∧ (m.ovf = true → l.bufferOverflow = true) :=
  h.resolve_right fun owed => Bool.false_ne_true (admitted.symm.trans ((Link.skippedLate_iff l).2 owed))

/-- A checkpoint that is reached reports what is remembered: with no flag set there was no mark, else it goes on to choose. -/
theorem Link.Remembers.reported {s v : State} {m : RxMarks} (h : s.link.Remembers m 0) (hv : exec .validate s = .next v) :
    MarksReported m s v := by
  rcases execValidate_cases s with ⟨-, refused⟩ | ⟨admitted, clear, -⟩ | ⟨admitted, -, next⟩
  · exact absurd (refused.symm.trans hv) (by simp)
  · obtain ⟨latchedFe, latchedOvf⟩ := h.flags_of_admitted admitted
    obtain ⟨noFe, noOvf, -⟩ := (Link.clear_iff _).1 clear
    have noMarkFe (hm : m.fe = true) : False := by simp [latchedFe hm] at noFe
    have noMarkOvf (hm : m.ovf = true) : False := by simp [latchedOvf hm] at noOvf
    exact ⟨fun hm => (noMarkFe hm).elim, fun hm => (noMarkOvf hm).elim, fun hm => (hm.elim noMarkFe noMarkOvf).elim⟩
  · obtain ⟨latchedFe, latchedOvf⟩ := h.flags_of_admitted admitted
    cases next.symm.trans hv
    exact ⟨latchedFe, latchedOvf, fun _ => rfl⟩

/-- Where no byte is owed under the parameter the checkpoint is reached, and the flags are as they were. -/
theorem exec_validate_reached {s : State} (h : Config.lossyErrorLatch = true → s.link.owed = 0) :
    ∃ v, exec .validate s = .next v ∧ v.link.frameError = s.link.frameError ∧
      v.link.bufferOverflow = s.link.bufferOverflow := by
  have admitted : s.link.skippedLate = false := by
    refine skippedLate_eq_false ?_
    cases lossy : Config.lossyErrorLatch with
    | false => exact .inl rfl
    | true => exact .inr (h lossy)
  cases clear : s.link.clear with
  | true => exact ⟨_, exec_validate_clear admitted clear, rfl, rfl⟩
  | false => exact ⟨_, exec_validate_flagged admitted clear, rfl, rfl⟩

/-! ## The last bytes before a checkpoint -/

/-- `recv_byte` takes the byte waiting while the timer has not expired. -/
theorem recvByte_next {s : State} {r : RxRecord} {rest : List RxRecord} (hf : s.uart.rxFifo = r :: rest)
    (ht : s.link.timer ≠ .expired) : ∃ t, exec .recvByte s = .next t ∧ t.uart.rxFifo = rest :=
  ⟨_, execRecvByte_got hf ht, rfl⟩

section Reception

/- A byte waits, the timer has not expired, and `recv_byte` takes the byte. -/
variable {s t : State} {r : RxRecord} {rest : List RxRecord} (hf : s.uart.rxFifo = r :: rest)
  (ht : s.link.timer ≠ .expired) (h : exec .recvByte s = .next t)
include hf ht h

theorem recvByte_link : t.link = (s.latchMarks r.marks).link := by
  rw [execRecvByte_got hf ht] at h
  cases h
  rfl

theorem recvByte_timer : t.link.timer = s.link.timer := by
  obtain ⟨-, -, -, kept⟩ := latchMarks_keeps_flags s r.marks
  rw [recvByte_link hf ht h, kept]

theorem recvByte_remembers : t.link.Remembers r.marks 1 := by
  rw [recvByte_link hf ht h]
  exact latchMarks_remembers s r.marks

theorem recvByte_still_remembers {m : RxMarks} (hm : s.link.Remembers m 1) : t.link.Remembers m 0 := by
  rw [recvByte_link hf ht h]
  exact hm.latchMarks r.marks

/-- Under the parameter no choice of skips is left. -/
theorem recvByte_skipNext (lossy : Config.lossyErrorLatch = true) : t.link.skipNext = ⟨false, false⟩ := by
  rw [recvByte_link hf ht h]
  exact latchMarks_skipNext lossy s r.marks

theorem recvByte_flags_of_no_skip (hs : s.link.skipNext = ⟨false, false⟩) :
    t.link.frameError = (s.link.frameError || r.marks.fe) ∧
      t.link.bufferOverflow = (s.link.bufferOverflow || r.marks.ovf) := by
  rw [recvByte_link hf ht h]
  exact latchMarks_flags s r.marks (.inr hs)

theorem recvByte_flags_of_lossy (lossy : Config.lossyErrorLatch = true) :
    t.link.frameError = (s.link.frameError || (r.marks.fe && !s.link.skipNext.fe)) ∧
      t.link.bufferOverflow = (s.link.bufferOverflow || (r.marks.ovf && !s.link.skipNext.ovf)) := by
  rw [recvByte_link hf ht h, latchMarks_link_of_lossy lossy]
  exact ⟨rfl, rfl⟩

theorem recvByte_owed_le (howed : s.link.owed ≤ 2) : t.link.owed ≤ 2 := by
  rw [recvByte_link hf ht h]
  exact latchMarks_owed_le_rxDepth howed r.marks

theorem recvByte_owed_of_no_skip (lossy : Config.lossyErrorLatch = true) (hs : s.link.skipNext = ⟨false, false⟩) :
    t.link.owed = s.link.owed - 1 := by
  rw [recvByte_link hf ht h]
  exact latchMarks_owed_of_no_skip lossy hs r.marks

end Reception

/-- The record `r` is the oldest waiting, and the assignments of `skip` are chosen to be skipped for it. -/
def State.awaiting (s : State) (r : RxRecord) (later : List RxRecord) (skip : RxMarks) : State :=
  { s with uart.rxFifo := r :: later, link.skipNext := skip }

/-- Two bytes are consumed, whatever skips were chosen, and the checkpoint is reached: the marks of both are reported. -/
theorem marks_of_last_two_reported {t u v : State} {m₁ skip : RxMarks} {r₂ : RxRecord} {later : List RxRecord}
    (hm : t.link.Remembers m₁ 1) (ht : t.link.timer ≠ .expired)
    (hu : exec .recvByte (t.awaiting r₂ later skip) = .next u) (hv : exec .validate u = .next v) :
    MarksReported m₁ u v ∧ MarksReported r₂.marks u v :=
  have first : u.link.Remembers m₁ 0 := recvByte_still_remembers (s := t.awaiting r₂ later skip) rfl ht hu hm
  have second : u.link.Remembers r₂.marks 1 := recvByte_remembers (s := t.awaiting r₂ later skip) rfl ht hu
  ⟨first.reported hv, second.of_one.reported hv⟩

/-- Settles O18: the marks of each of the last two bytes are remembered at the checkpoint, which a byte owed refuses; two bytes
with no assignment skipped end what is owed. -/
theorem marksOfTheLastTwoBytesReachTheCheckpoint : Obligations.MarksOfTheLastTwoBytesReachTheCheckpoint := by
  refine ⟨fun s t r₁ rest hf ht hrecv => ?lastTwo, fun s r₀ r₁ r₂ lossy hf ht howed => ?earlier,
    fun s lossy howed => ?refused⟩
  case lastTwo =>
    have remembered := recvByte_remembers hf ht hrecv
    have running : t.link.timer ≠ .expired := recvByte_timer hf ht hrecv ▸ ht
    refine ⟨fun v hv => ?one, fun u r₂ later skip hu => ⟨fun v hv => ?two, fun noSkip₁ noSkip₂ howed => ?reached⟩⟩
    case one =>
      obtain ⟨fe, ovf, chooses⟩ := remembered.of_one.reported hv
      exact ⟨fe, ovf, chooses⟩
    case two =>
      obtain ⟨⟨fe₁, ovf₁, chooses₁⟩, ⟨fe₂, ovf₂, chooses₂⟩⟩ := marks_of_last_two_reported remembered running hu hv
      exact ⟨fun h => h.elim fe₁ fe₂, fun h => h.elim ovf₁ ovf₂,
        fun h => (or_assoc.2 h).elim chooses₁ chooses₂⟩
    case reached =>
      have owed : Config.lossyErrorLatch = true → u.link.owed = 0 := by
        intro lossy
        have first := recvByte_owed_of_no_skip hf ht hrecv lossy noSkip₁
        have second : u.link.owed = t.link.owed - 1 :=
          recvByte_owed_of_no_skip (s := t.awaiting r₂ later skip) rfl running hu lossy noSkip₂
        omega
      obtain ⟨v, hv, -⟩ := exec_validate_reached owed
      exact ⟨v, hv⟩
  case earlier =>
    obtain ⟨t, hrecv₀, hf₁⟩ := recvByte_next hf ht
    have ht₁ : t.link.timer ≠ .expired := recvByte_timer hf ht hrecv₀ ▸ ht
    have noSkip₁ := recvByte_skipNext hf ht hrecv₀ lossy
    obtain ⟨u, hrecv₁, -⟩ := recvByte_next hf₁ ht₁
    have ht₂ : u.link.timer ≠ .expired := recvByte_timer hf₁ ht₁ hrecv₁ ▸ ht₁
    have noSkip₂ := recvByte_skipNext hf₁ ht₁ hrecv₁ lossy
    obtain ⟨w, hrecv₂, -⟩ := recvByte_next (s := u.popRx [r₂]) rfl ht₂
    obtain ⟨fe₀, ovf₀⟩ := recvByte_flags_of_lossy hf ht hrecv₀ lossy
    obtain ⟨fe₁, ovf₁⟩ := recvByte_flags_of_no_skip hf₁ ht₁ hrecv₁ noSkip₁
    obtain ⟨fe₂, ovf₂⟩ := recvByte_flags_of_no_skip (s := u.popRx [r₂]) rfl ht₂ hrecv₂ noSkip₂
    have owed : w.link.owed = 0 := by
      have owed₀ := recvByte_owed_le hf ht hrecv₀ howed
      have owed₁ := recvByte_owed_of_no_skip hf₁ ht₁ hrecv₁ lossy noSkip₁
      have owed₂ : w.link.owed = u.link.owed - 1 :=
        recvByte_owed_of_no_skip (s := u.popRx [r₂]) rfl ht₂ hrecv₂ lossy noSkip₂
      omega
    obtain ⟨v, hv, keptFe, keptOvf⟩ := exec_validate_reached fun _ => owed
    refine ⟨t, u, w, v, hrecv₀, hrecv₁, hrecv₂, hv, ?_, ?_⟩
    · rw [keptFe, fe₂, State.popRx_link, fe₁, fe₀]
    · rw [keptOvf, ovf₂, State.popRx_link, ovf₁, ovf₀]
  case refused =>
    have late : s.link.skippedLate = true := (Link.skippedLate_iff _).2 ⟨lossy, Nat.pos_of_ne_zero howed⟩
    simp [exec, execValidate, late]

end Sys2Proof.Machine
end

