-- ==== Sys2Proof/Proofs/DispatcherFrame.lean ====
section
/-! The statement of the family 40_serial_link about the dispatcher: it touches the handshake lines, the port devices, the
transmitter and its own registers, and nothing the foreground works on. -/

namespace Sys2Proof.Machine

/-- What the foreground holds: its position, SerialLink, the Block and BinaryImage registers, the receive queue, memory and the
trap mask (40_serial_link R133, 60_exceptions R310). -/
def State.foregroundPart (s : State) :
    Foreground × Link × Block × Image × List RxRecord × Bool × List Host.Cell × Bool :=
  (s.fg, s.link, s.blk, s.img, s.uart.rxFifo, s.uart.rxLost, s.mem, s.trap.enable)

/-- From `s` to `t` nothing the foreground holds has changed. -/
def ForegroundKept (s t : State) : Prop := t.foregroundPart = s.foregroundPart

/-- 45_io_ports R261: the console write reaches the transmitter alone, whichever of two bytes it keeps. -/
theorem txWrite_foregroundKept (s : State) (b : Byte) : ForegroundKept s (s.txWrite b) := by
  rcases txWrite_cases s b with h | ⟨-, -, h⟩ <;> simp [ForegroundKept, State.foregroundPart, h]

/-- 45_io_ports R264 to R268: an LED sub-command reaches the port-1 line alone. -/
theorem execPort1Write_foregroundKept (s : State) : NextSatisfies (ForegroundKept s) (execPort1Write s) := by
  unfold execPort1Write
  split_ifs <;> exact nextSatisfies_next.2 rfl

/-- 45_io_ports R275: no port operation touches what the foreground holds. -/
theorem exec_port_foregroundKept (dir : IoDir) (port : Port) (s : State) :
    NextSatisfies (ForegroundKept s) (exec (decodePort dir port) s) := by
  rcases decodePort_cases dir port with ⟨-, he | he | he⟩ | ⟨-, he | he | he⟩ | he <;> rw [he]
  case inl.inl => exact nextSatisfies_next.2 (txWrite_foregroundKept s _)
  case inl.inr.inl => exact execPort1Write_foregroundKept s
  all_goals exact nextSatisfies_next.2 rfl

/-- 60_exceptions R302, R303: the dispatcher executes one port operation, and its other statements work on the handshake lines
and its own position. -/
theorem trapStep_foregroundKept (s : State) : NextSatisfies (ForegroundKept s) (trapStep s) := by
  unfold trapStep
  cases s.trap.pos with
  | dispatchPort =>
    simp only [decode_ioreqWord, runDecoded_ok]
    exact exec_port_foregroundKept s.trap.ioDir s.trap.ioPort (s.setTrapPos .complete)
  | awaitAck => exact nextSatisfies_ite (nextSatisfies_next.2 rfl) (nextSatisfies_next.2 rfl)
  | releaseData =>
    simp only [trapReleaseData]
    split <;> exact nextSatisfies_next.2 rfl
  | complete | pulseWaitAck | dropRequest | ret => exact nextSatisfies_next.2 rfl

/-- Settles O58: with nothing scheduled and `in_trap` set a step is the dispatcher's. -/
theorem dispatcherLeavesTheForegroundAlone : Obligations.DispatcherLeavesTheForegroundAlone := by
  intro s t ht hs hstep
  rw [step_eq_trapStep hs ht] at hstep
  have kept : ForegroundKept s t := trapStep_foregroundKept s t hstep
  simpa only [ForegroundKept, State.foregroundPart, Prod.mk.injEq] using kept

end Sys2Proof.Machine
end

