-- ==== Sys2Proof/Proofs/Checksum.lean ====
section
/-! The statement of the family 41_block_transfer about the checksum: what its XOR sees of a corruption. -/

namespace Sys2Proof.Machine

theorem xorFold_cons (b : Byte) (bytes : List Byte) : xorFold (b :: bytes) = b ^^^ xorFold bytes := by
  rw [xorFold, List.foldl_cons, BitVec.xor_comm, List.foldl_assoc, xorFold]

theorem xorFold_concat (bytes : List Byte) (b : Byte) : xorFold (bytes ++ [b]) = xorFold bytes ^^^ b := by
  simp [xorFold]

/-- 41_block_transfer R154: the checksum of a corrupted payload is off by the checksum of the masks. -/
theorem xorFold_zipWith_xor {payload errs : List Byte} (h : errs.length = payload.length) :
    xorFold (List.zipWith (· ^^^ ·) payload errs) = xorFold payload ^^^ xorFold errs := by
  induction payload generalizing errs with
  | nil => simp_all [xorFold]
  | cons b payload ih =>
    obtain _ | ⟨e, errs⟩ := errs
    · simp at h
    · rw [List.zipWith_cons_cons, xorFold_cons, xorFold_cons, xorFold_cons, ih (by simpa using h)]
      ac_rfl

/-- The XOR is 0 exactly when every bit position is set evenly often. -/
theorem xorFold_eq_zero_iff (bytes : List Byte) :
    xorFold bytes = 0 ↔ ∀ k < 8, bytes.countP (fun b => b.getLsbD k) % 2 = 0 := by
  have even (k : Nat) : (xorFold bytes).getLsbD k = false ↔ bytes.countP (fun b => b.getLsbD k) % 2 = 0 := by
    rw [xorFold_getLsbD]
    simp
  constructor
  · intro h k _
    rw [← even, h]
    simp
  · intro h
    refine BitVec.eq_of_getLsbD_eq fun k hk => ?_
    rw [(even k).2 (h k hk)]
    simp

/-- Settles O24: unseen means that the masks of the payload and of the checksum byte have XOR 0. -/
theorem checksumSeesExactlyTheOddFlips : Obligations.ChecksumSeesExactlyTheOddFlips := by
  intro payload errs err hlen
  calc xorFold (List.zipWith (· ^^^ ·) payload errs) = xorFold payload ^^^ err
      ↔ xorFold errs = err := by rw [xorFold_zipWith_xor hlen, BitVec.xor_right_inj]
    _ ↔ xorFold (errs ++ [err]) = 0 := by rw [xorFold_concat]; exact BitVec.xor_eq_zero_iff.symm
    _ ↔ _ := xorFold_eq_zero_iff _

end Sys2Proof.Machine
end

