-- ==== Sys2Proof/Proofs/ScheduledRuns.lean ====
section
/-! Runs under a schedule: the foreground's statements at its turns, a byte sent by the host and received, a byte sent to the
host, tests of `recv_byte` between ticks. -/

namespace Sys2Proof.Machine

/-! ## A state by what is to be executed and what is scheduled -/

/-- `s` with the statements `pc` to execute and the moves `ms` scheduled. -/
def State.poised (s : State) (pc : List Stmt) (ms : List Move) : State := { s with fg.pc := pc, schedule := ms }

/-- Whether the trap is idle is a matter of the trap bits alone. -/
theorem State.trapIdle.of_trap_eq {s t : State} (idle : s.trapIdle) (h : t.trap = s.trap) : t.trapIdle := by
  rwa [State.trapIdle, h]

theorem State.Scheduled.trapIdle {s : State} {ms : List Move} (h : s.Scheduled ms) : s.trapIdle := ⟨h.notInTrap, h.noTrap⟩

/-- With nothing scheduled and the trap idle the state is quiet. -/
theorem State.trapIdle.quiet_poised {s : State} (idle : s.trapIdle) (pc : List Stmt) : (s.poised pc []).Quiet :=
  ⟨rfl, idle.1, idle.2⟩

/-- At the controller's scheduled turn the first statement is executed. -/
theorem State.trapIdle.step_controller {s : State} (idle : s.trapIdle) (st : Stmt) (rest : List Stmt) (ms : List Move) :
    step (s.poised (st :: rest) (.controller :: ms)) = runStmt st (s.poised rest ms) :=
  step_foreground_scheduled (s := s.poised (st :: rest) (.controller :: ms)) rfl idle rfl

/-- It is too with nothing scheduled. -/
theorem State.trapIdle.step_free {s : State} (idle : s.trapIdle) (st : Stmt) (rest : List Stmt) :
    step (s.poised (st :: rest) []) = runStmt st (s.poised rest []) :=
  (idle.quiet_poised _).step_eq_runStmt rfl

/-! ## Statements in sequence -/

/-- From `s` with `pc` to execute, the foreground's next `k` statements lead to `u` with `pc'` to execute, whatever is
scheduled, and leave the trap bits alone. -/
inductive Executes : Nat → State → List Stmt → State → List Stmt → Prop
  | done (s : State) (pc : List Stmt) : Executes 0 s pc s pc
  | stmt {s t u : State} {st : Stmt} {rest pc pc' : List Stmt} {k : Nat}
      (first : ∀ ms, runStmt st (s.poised rest ms) = .next (t.poised pc ms)) (trap : t.trap = s.trap)
      (more : Executes k t pc u pc') : Executes (k + 1) s (st :: rest) u pc'

/-- One statement. -/
theorem Executes.one {s t : State} {st : Stmt} {rest pc : List Stmt}
    (h : ∀ ms, runStmt st (s.poised rest ms) = .next (t.poised pc ms)) (trap : t.trap = s.trap) :
    Executes 1 s (st :: rest) t pc := .stmt h trap (.done t pc)

/-- A statement that puts others in front of the rest and does nothing else. -/
theorem Executes.push {s u : State} {st : Stmt} {rest ks pc' : List Stmt} {k : Nat}
    (h : ∀ ms, runStmt st (s.poised rest ms) = .next ((s.poised rest ms).push ks))
    (more : Executes k s (ks ++ rest) u pc') : Executes (k + 1) s (st :: rest) u pc' :=
  .stmt (t := s) (pc := ks ++ rest) h rfl more

theorem Executes.trans {j k : Nat} {s t u : State} {pc pc₁ pc₂ : List Stmt} (h : Executes j s pc t pc₁)
    (h' : Executes k t pc₁ u pc₂) : Executes (j + k) s pc u pc₂ := by
  induction h with
  | done => simpa using h'
  | stmt first trap _ ih =>
    rw [Nat.succ_add]
    exact .stmt first trap (ih h')

/-- Statements are executed one at each turn the controller is given. -/
theorem Executes.runs_scheduled {k : Nat} {s t : State} {pc pc' : List Stmt} (h : Executes k s pc t pc')
    (idle : s.trapIdle) (ms : List Move) : Runs k (s.poised pc (controllerMoves k ++ ms)) (t.poised pc' ms) := by
  induction h with
  | done => exact (runs_zero _ _).2 rfl
  | stmt first trap _ ih => exact .cons ((idle.step_controller _ _ _).trans (first _)) (ih (idle.of_trap_eq trap))

/-- With nothing scheduled each step is one of them. -/
theorem Executes.runs_free {k : Nat} {s t : State} {pc pc' : List Stmt} (h : Executes k s pc t pc') (idle : s.trapIdle) :
    Runs k (s.poised pc []) (t.poised pc' []) := by
  induction h with
  | done => exact (runs_zero _ _).2 rfl
  | stmt first trap _ ih => exact .cons ((idle.step_free _ _).trans (first _)) (ih (idle.of_trap_eq trap))

/-- 40_serial_link R123: steps 2 and 3 of `arm_timeout(n)`. -/
theorem executes_armClamp (s : State) (n : Nat) (rest : List Stmt) :
    Executes 2 s (.micro (.armClamp (n * Config.ticksPerByte)) :: rest) (s.setTimer (.running (timeoutTicks n))) rest :=
  .push (fun _ => rfl) (.one (fun _ => rfl) rfl)

/-- 40_serial_link R123: a call of `arm_timeout(n)`. -/
theorem executes_armTimeout (s : State) (n : Nat) (rest : List Stmt) :
    Executes 3 s (.op (.armTimeout n) :: rest) (s.setTimer (.running (timeoutTicks n))) rest :=
  .push (fun _ => rfl) (executes_armClamp s n rest)

/-- 40_serial_link R125: a checkpoint with no flag set. -/
theorem executes_validate_clear {s : State} (owed : s.link.owed = 0) (clear : s.link.clear = true) (rest : List Stmt) :
    Executes 1 s (.op .validate :: rest) ((s.setTimer .idle).give .ok) rest :=
  .one (fun ms => exec_validate_clear (s := s.poised rest ms) (skippedLate_none owed) clear) rfl

/-! ## Statements that receive -/

/-- While the length byte is `lb`, the statement `st` is `x <- recv_byte()`: `put` stores the byte and `next` follows. -/
structure Reception (lb : Byte) (st : Stmt) (put : State → Byte → State) (next : List Stmt) : Prop where
  run : ∀ s : State, s.blk.lb = lb → runStmt st s = s.recvStore put st next
  poised : ∀ (s : State) (v : Byte) (pc : List Stmt) (ms : List Move), put (s.poised pc ms) v = (put s v).poised pc ms
  trap : ∀ (s : State) (v : Byte), (put s v).trap = s.trap

theorem reception_recvInto (lb : Byte) (d : RxDst) :
    Reception lb (.micro (.recvInto d)) (fun t v => t.store d v) [] where
  run _ _ := rfl
  poised s v pc ms := by cases d <;> rfl
  trap s v := by cases d <;> rfl

namespace Reception

variable {lb : Byte} {st : Stmt} {put : State → Byte → State} {next : List Stmt} {s : State}

/-- A byte waiting is stored, its marks latched. -/
theorem takes (h : Reception lb st put next) {d : Byte} {m : RxMarks} {more : List RxRecord} (hlb : s.blk.lb = lb)
    (fifo : s.uart.rxFifo = ⟨d, m⟩ :: more) (timer : s.link.timer ≠ .expired) (rest : List Stmt) :
    Executes 1 s (st :: rest) (put ((s.popRx more).latchMarks m) d) (next ++ rest) := by
  refine .one (fun ms => ?_) (h.trap _ _)
  rw [h.run (s.poised rest ms) hlb, State.recvStore, recvTest_byte (s := s.poised rest ms) fifo timer]
  exact congrArg (fun t : State => Host.Outcome.next (t.push next))
    (h.poised ((s.popRx more).latchMarks m) d rest ms)

/-- A clean byte is stored and changes no flag, where no skip is chosen and no byte is owed. -/
theorem takes_clean (h : Reception lb st put next) {d : Byte} {more : List RxRecord} (hlb : s.blk.lb = lb)
    (fifo : s.uart.rxFifo = ⟨d, ⟨false, false⟩⟩ :: more) (timer : s.link.timer ≠ .expired)
    (skipNext : s.link.skipNext = ⟨false, false⟩) (owed : s.link.owed = 0) (rest : List Stmt) :
    Executes 1 s (st :: rest) (put (s.popRx more) d) (next ++ rest) := by
  have taken := h.takes hlb fifo timer rest
  rwa [latchMarks_clean (s := s.popRx more) skipNext owed] at taken

/-- With nothing waiting before the timer expires the statement stays. -/
theorem waits (h : Reception lb st put next) (hlb : s.blk.lb = lb) (fifo : s.uart.rxFifo = [])
    (timer : s.link.timer ≠ .expired) (rest : List Stmt) : Executes 1 s (st :: rest) s (st :: rest) := by
  refine .one (fun ms => ?_) rfl
  have waiting : (s.poised rest ms).recvTest = .waiting :=
    ((recvTest_empty (s := s.poised rest ms) fifo).resolve_left fun expired => timer expired.1).2
  rw [h.run (s.poised rest ms) hlb, State.recvStore, waiting]
  rfl

/-- With nothing waiting and the timer expired a free byte is stored (40_serial_link R121 e). -/
theorem expires (h : Reception lb st put next) (hlb : s.blk.lb = lb) (fifo : s.uart.rxFifo = [])
    (timer : s.link.timer = .expired) (rest : List Stmt) :
    Executes 1 s (st :: rest) (put s.setTimeout.drawn (Config.freeByte s.freeCount)) (next ++ rest) := by
  refine .one (fun ms => ?_) (h.trap _ _)
  have expired : (s.poised rest ms).recvTest = .expired (s.poised rest ms).setTimeout :=
    ((recvTest_empty (s := s.poised rest ms) fifo).resolve_right fun waiting => waiting.1 timer).2
  rw [h.run (s.poised rest ms) hlb, State.recvStore, expired]
  exact congrArg (fun t : State => Host.Outcome.next (t.push next))
    (h.poised s.setTimeout.drawn (Config.freeByte s.freeCount) rest ms)

end Reception

/-- Nothing of the host's is on its way or waiting, and no mark is skipped: what the host sends is what is received. -/
structure State.Listening (s : State) : Prop where
  wire : s.env.rxWire = []
  fifo : s.uart.rxFifo = []
  lost : s.uart.rxLost = false
  skipNext : s.link.skipNext = ⟨false, false⟩
  owed : s.link.owed = 0

theorem State.SerialIdle.listening {s : State} (h : s.SerialIdle) : s.Listening := { h with }

/-- Where no skip is chosen and no byte is owed, marks are latched at once in either setting of LOSSY_ERROR_LATCH. -/
theorem latchMarks_of_no_skip {s : State} (skipNext : s.link.skipNext = ⟨false, false⟩) (owed : s.link.owed = 0)
    (m : RxMarks) : s.latchMarks m = { s with link := s.link.latch m } := by
  have lossy : s.link.latchLossy m = s.link.latch m := by
    simp [Link.latchLossy, Link.latch, kept_none, skipNext, owed]
  rw [State.latchMarks, lossy, ite_self]

/-- The host sends a byte and the receiver delivers it. -/
theorem State.Listening.runs_delivery {s : State} (h : s.Listening) (w : WireByte) (pc : List Stmt) (ms : List Move) :
    Runs 2 (s.poised pc (.hostSend w.data w.badStop :: .rx :: ms))
      ({ s with uart.rxFifo := [⟨w.data, ⟨w.badStop, false⟩⟩] }.poised pc ms) := by
  have onWire : s.env.rxWire ++ [w] = w :: s.env.rxWire := by rw [h.wire]; rfl
  have room : s.uart.rxFifo.length < Config.rxDepth := by rw [h.fifo]; decide
  have sent : step (s.poised pc (.hostSend w.data w.badStop :: .rx :: ms)) =
      .next ({ s with env.rxWire := s.env.rxWire ++ [w] }.poised pc (.rx :: ms)) :=
    step_cons (s := s.poised pc (.hostSend w.data w.badStop :: .rx :: ms)) rfl
  refine .cons sent (.cons ((step_rx rfl onWire).trans ?_) ((runs_zero _ _).2 rfl))
  refine congrArg _ ((receive_of_lt (s := s.poised pc ms) room _ _).trans ?_)
  simp only [State.poised, h.fifo, h.lost, List.nil_append]

/-- A byte the host sends reaches the statement that waits for it, which latches its mark and stores it. -/
theorem Reception.runs_wireByte {lb : Byte} {st : Stmt} {put : State → Byte → State} {next : List Stmt} {s : State}
    (h : Reception lb st put next) (hlb : s.blk.lb = lb) (listening : s.Listening) (idle : s.trapIdle)
    (timer : s.link.timer ≠ .expired) (w : WireByte) (rest : List Stmt) (ms : List Move) :
    Runs 3 (s.poised (st :: rest) (wireMoves [w] ++ ms))
      ((put { s with link := s.link.latch ⟨w.badStop, false⟩ } w.data).poised (next ++ rest) ms) := by
  have taken : State.popRx { s with uart.rxFifo := [⟨w.data, ⟨w.badStop, false⟩⟩] } [] = s := by
    rw [State.popRx, ← listening.fifo]
  have test := h.takes (s := { s with uart.rxFifo := [⟨w.data, ⟨w.badStop, false⟩⟩] }) hlb rfl timer rest
  rw [taken, latchMarks_of_no_skip listening.skipNext listening.owed] at test
  exact (listening.runs_delivery w (st :: rest) (.controller :: ms)).trans (test.runs_scheduled idle ms)

/-! ## Ticks -/

/-- A host silent for the `n` ticks left leaves the statement that waits for its byte to be executed, the timer expired. -/
theorem Reception.runs_testedTicks {lb : Byte} {st : Stmt} {put : State → Byte → State} {next : List Stmt} {s : State}
    (h : Reception lb st put next) (hlb : s.blk.lb = lb) (fifo : s.uart.rxFifo = []) (idle : s.trapIdle) {n : Nat}
    (hn : 1 ≤ n) (rest : List Stmt) (ms : List Move) :
    Runs (2 * n) ((s.setTimer (.running n)).poised (st :: rest) (testedTicks n ++ ms))
      ((s.setTimer .expired).poised (st :: rest) ms) := by
  have tested (n : Nat) (ms : List Move) : Runs 2 ((s.setTimer (.running n)).poised (st :: rest) (.controller :: .tick :: ms))
      ((s.setTimer (Timer.running n).tick).poised (st :: rest) ms) :=
    ((h.waits (s := s.setTimer (.running n)) hlb fifo (by simp) rest).runs_scheduled idle (.tick :: ms)).trans
      (.cons (step_tick rfl) ((runs_zero _ _).2 rfl))
  induction n, hn using Nat.le_induction with
  | base => exact tested 1 ms
  | succ n hn ih =>
    obtain ⟨m, rfl⟩ := Nat.exists_eq_add_of_le' hn
    have first := tested (m + 2) (testedTicks (m + 1) ++ ms)
    rw [Timer.tick_running] at first
    rw [Nat.mul_succ, Nat.add_comm]
    exact first.trans ih

end Sys2Proof.Machine
end

