-- ==== Sys2Proof/Proofs/SendBlock.lean ====
section
/-! The statement of the family 41_block_transfer about `send_block`. -/

namespace Sys2Proof.Machine

/-- The bytes have gone onto the wire toward the host, and the running XOR is `x`. -/
def State.sent (s : State) (bytes : List Byte) (x : Byte) : State :=
  { s with blk.xor := x, env.txWire := s.env.txWire ++ bytes }

theorem State.sent_sent (s : State) (bytes later : List Byte) (x y : Byte) :
    (s.sent bytes x).sent later y = s.sent (bytes ++ later) y := by
  simp [State.sent]

@[simp] theorem State.sent_xor (s : State) (bytes : List Byte) (x : Byte) : (s.sent bytes x).blk.xor = x := rfl

/-- 40_serial_link R122, 10_state R27: a byte written into the free transmitter, which takes it at once. -/
theorem runs_txWrite_tx {s : State} (idle : s.trapIdle) (free : s.uart.txReg = none) (b : Byte) (rest : List Stmt)
    (ms : List Move) :
    Runs 2 (s.poised (.micro (.txWrite b) :: rest) (.controller :: .tx :: ms)) ((s.sent [b] s.blk.xor).poised rest ms) := by
  have written : step (s.poised (.micro (.txWrite b) :: rest) (.controller :: .tx :: ms)) =
      .next ({ s with uart.txReg := some b }.poised rest (.tx :: ms)) :=
    (idle.step_controller _ _ _).trans (congrArg _ (txWrite_empty (s := s.poised rest (.tx :: ms)) free b))
  refine .cons written (.cons ((step_tx (b := b) rfl rfl).trans ?_) ((runs_zero _ _).2 rfl))
  rw [State.sent, State.poised, State.poised, ← free]

/-- A statement that begins to send a byte finds the transmitter free. -/
theorem executes_sendByte {s : State} {st : Stmt} {b : Byte} {rest pc : List Stmt} (free : s.uart.txReg = none)
    (h : ∀ ms, runStmt st (s.poised rest ms) = .next ((s.poised pc ms).sendByte b)) :
    Executes 1 s (st :: rest) s (.micro (.txWrite b) :: pc) :=
  .one (fun ms => (h ms).trans (congrArg _ (sendByte_free (s := s.poised pc ms) free b))) rfl

/-- The moves in which one payload byte is sent. -/
def sendByteMoves : List Move := [.controller, .controller, .tx, .controller]

/-- 41_block_transfer R151 step 3 for one byte: it is sent and taken into the XOR. -/
theorem runs_sendBlockBytes_cons {s : State} (idle : s.trapIdle) (free : s.uart.txReg = none) (b : Byte)
    (bytes : List Byte) (rest : List Stmt) (ms : List Move) :
    Runs 4 (s.poised (.micro (.sendBlockBytes (b :: bytes)) :: rest) (sendByteMoves ++ ms))
      ((s.sent [b] (s.blk.xor ^^^ b)).poised (.micro (.sendBlockBytes bytes) :: rest) ms) := by
  have begun : Executes 1 s (.micro (.sendBlockBytes (b :: bytes)) :: rest) s
      (.micro (.txWrite b) :: .micro (.sendBlockFold b) :: .micro (.sendBlockBytes bytes) :: rest) :=
    executes_sendByte free fun _ => rfl
  have folded : Executes 1 (s.sent [b] s.blk.xor) (.micro (.sendBlockFold b) :: .micro (.sendBlockBytes bytes) :: rest)
      (s.sent [b] (s.blk.xor ^^^ b)) (.micro (.sendBlockBytes bytes) :: rest) := .one (fun _ => rfl) rfl
  exact (begun.runs_scheduled idle _).trans
    ((runs_txWrite_tx idle free b _ _).trans (folded.runs_scheduled (idle.of_trap_eq rfl) ms))

/-- 41_block_transfer R151 step 3: the bytes left are sent in order and taken into the XOR. -/
theorem runs_sendBlockBytes {s : State} (idle : s.trapIdle) (free : s.uart.txReg = none) (bytes : List Byte)
    (rest : List Stmt) (ms : List Move) :
    Runs (4 * bytes.length)
      (s.poised (.micro (.sendBlockBytes bytes) :: rest) ((List.replicate bytes.length sendByteMoves).flatten ++ ms))
      ((s.sent bytes (s.blk.xor ^^^ xorFold bytes)).poised (.micro (.sendBlockBytes []) :: rest) ms) := by
  induction bytes generalizing s with
  | nil => simp [xorFold, State.sent]
  | cons b bytes ih =>
    have first := runs_sendBlockBytes_cons idle free b bytes rest
      ((List.replicate bytes.length sendByteMoves).flatten ++ ms)
    have later := ih (s := s.sent [b] (s.blk.xor ^^^ b)) idle free
    rw [State.sent_sent, State.sent_xor, BitVec.xor_assoc, ← xorFold_cons] at later
    rw [List.length_cons, List.replicate_succ, List.flatten_cons, List.append_assoc, Nat.mul_succ, Nat.add_comm]
    exact first.trans later

/-- 41_block_transfer R151 step 4: the XOR is sent last. -/
theorem runs_sendBlockBytes_nil {s : State} (idle : s.trapIdle) (free : s.uart.txReg = none) (rest : List Stmt)
    (ms : List Move) :
    Runs 3 (s.poised (.micro (.sendBlockBytes []) :: rest) (.controller :: .controller :: .tx :: ms))
      ((s.sent [s.blk.xor] s.blk.xor).poised rest ms) :=
  have begun : Executes 1 s (.micro (.sendBlockBytes []) :: rest) s (.micro (.txWrite s.blk.xor) :: rest) :=
    executes_sendByte free fun _ => rfl
  (begun.runs_scheduled idle _).trans (runs_txWrite_tx idle free _ rest ms)

theorem sendBlockMoves_append (n : Nat) (ms : List Move) :
    sendBlockMoves n ++ ms = .controller :: .tx :: .controller :: ((List.replicate n sendByteMoves).flatten ++
      (.controller :: .controller :: .tx :: ms)) := by
  simp [sendBlockMoves, sendByteMoves]

theorem sendBlockMoves_length (n : Nat) : (sendBlockMoves n).length = 4 * n + 6 := by
  simp [sendBlockMoves]
  omega

/-- 41_block_transfer R151 from its length byte on: the frame is sent and the XOR is the payload's. -/
theorem runs_sendBlock {s : State} (idle : s.trapIdle) (free : s.uart.txReg = none) (bytes : List Byte)
    (rest : List Stmt) (ms : List Move) :
    Runs (sendBlockMoves bytes.length).length
      (s.poised (.micro (.txWrite (BitVec.ofNat 8 (bytes.length - 1))) :: .micro (.sendBlockZero bytes) :: rest)
        (sendBlockMoves bytes.length ++ ms))
      ((s.sent (frameOf bytes) (xorFold bytes)).poised rest ms) := by
  generalize hlb : BitVec.ofNat 8 (bytes.length - 1) = lb
  have zero : Executes 1 (s.sent [lb] s.blk.xor) (.micro (.sendBlockZero bytes) :: rest) (s.sent [lb] 0#8)
      (.micro (.sendBlockBytes bytes) :: rest) := .one (fun _ => rfl) rfl
  have payload := runs_sendBlockBytes (s := s.sent [lb] 0#8) idle free bytes rest
    (.controller :: .controller :: .tx :: ms)
  rw [State.sent_sent, State.sent_xor, BitVec.zero_xor] at payload
  have checksum := runs_sendBlockBytes_nil (s := s.sent ([lb] ++ bytes) (xorFold bytes)) idle free rest ms
  rw [State.sent_sent, State.sent_xor] at checksum
  have run := (runs_txWrite_tx idle free lb _ _).trans ((zero.runs_scheduled idle _).trans (payload.trans checksum))
  rw [sendBlockMoves_append, sendBlockMoves_length, frameOf, hlb,
    show 4 * bytes.length + 6 = 2 + (1 + (4 * bytes.length + 3)) by omega]
  exact run

/-- Settles O23: the frame leaves in order, and the run is as long as its schedule. -/
theorem sendBlockEmitsTheFrame : Obligations.SendBlockEmitsTheFrame := by
  intro s bytes _ _ sched free
  have run := runs_sendBlock sched.trapIdle free bytes s.fg.pc []
  have first : exec (.sendBlock bytes) s = .next (s.poised (.micro (.txWrite (BitVec.ofNat 8 (bytes.length - 1))) ::
      .micro (.sendBlockZero bytes) :: s.fg.pc) (sendBlockMoves bytes.length ++ [])) := by
    refine congrArg _ ((sendByte_free (s := s.push [.micro (.sendBlockZero bytes)]) free _).trans ?_)
    rw [List.append_nil, ← sched.schedule]
    rfl
  exact ⟨_, first, run, rfl⟩

end Sys2Proof.Machine
end

