-- ==== Sys2Proof/Proofs/ReceiveBlock.lean ====
section
/-! The statements of the family 41_block_transfer about `receive_block`. A state within the operation is written as the state
it started in with what has been received, the statements left and the moves left. -/

namespace Sys2Proof.Machine

/-! ## The length phase -/

/-- What is left of steps 1 to 3 of `receive_block` (41_block_transfer R150) after its first statement. -/
def lengthStmts (maxSize : Byte) : List Stmt :=
  [.micro (.armClamp (1 * Config.ticksPerByte)), .micro (.recvInto .blkLb), .op .validate, .micro (.blockChecked maxSize)]

/-- What is left of steps 5 to 8 once the payload's reception begins. -/
def payloadStmts : List Stmt := [.micro (.recvBuf 0), .micro (.recvInto .blkCk), .op .validate, .micro .blockPayload]

theorem receiveBlock_eq_poised (s : State) (maxSize : Byte) :
    s.receiveBlock maxSize = s.poised (lengthStmts maxSize ++ s.fg.pc) s.schedule := rfl

/-- `receive_block` completes where a run from after its first statement ends with what followed the call. -/
theorem completes_receiveBlock {s t : State} {maxSize : Byte} {ms : List Move} {k : Nat} (hms : s.schedule = ms)
    (h : Runs k (s.poised (lengthStmts maxSize ++ s.fg.pc) ms) t) (hpc : t.fg.pc = s.fg.pc) :
    Completes (.receiveBlock maxSize) s k t :=
  ⟨s.receiveBlock maxSize, rfl, by rwa [receiveBlock_eq_poised, hms], hpc⟩

/-- 41_block_transfer R150: with the checkpoint passed, step 3 goes on to step 4. -/
theorem runStmt_blockChecked_ok {s : State} (h : s.fg.ret = .ok) (maxSize : Byte) :
    runStmt (.micro (.blockChecked maxSize)) s = .next (s.push [.micro (.blockLength maxSize)]) := by
  simp [runMicro, microBlockChecked, h]

/-- With an error it returns it. -/
theorem runStmt_blockChecked_err {s : State} {e : Err} (h : s.fg.ret = .err e) (maxSize : Byte) :
    runStmt (.micro (.blockChecked maxSize)) s = .next s := by
  simp [runMicro, microBlockChecked, h]

/-- 41_block_transfer R155: a length byte above the limit is refused. -/
theorem runStmt_blockLength_of_lt {maxSize : Byte} {s : State} (h : maxSize < s.blk.lb) :
    runStmt (.micro (.blockLength maxSize)) s =
      .next (s.push [.op .flushInput, .op .statusInvalidSize, .micro (.giveResult (.err .invalidSize))]) := if_pos h

/-- A length byte up to the limit is followed by the arming of step 5 and the payload. -/
theorem runStmt_blockLength_of_le {maxSize : Byte} {s : State} (h : s.blk.lb ≤ maxSize) :
    runStmt (.micro (.blockLength maxSize)) s = .next (s.push (.op (.armTimeout (s.blk.lb.toNat + 2)) :: payloadStmts)) :=
  if_neg (BitVec.not_lt.2 h)

/-- The length byte `lb` has passed the checkpoint of step 3. -/
def State.lengthTaken (s : State) (lb : Byte) : State := { s with blk.lb := lb, link.timer := .idle, fg.ret := .ok }

/-- Its payload's reception begins: the timer runs for the rest of the frame. -/
def State.payloadBegun (s : State) (lb : Byte) : State :=
  { s with blk.lb := lb, link.timer := .running (timeoutTicks (lb.toNat + 2)), fg.ret := .ok }

/-- 41_block_transfer R150 step 3 with no flag set. -/
theorem executes_lengthChecked {s : State} (maxSize : Byte) (owed : s.link.owed = 0) (clear : s.link.clear = true)
    (rest : List Stmt) :
    Executes 2 s (.op .validate :: .micro (.blockChecked maxSize) :: rest) ((s.setTimer .idle).give .ok)
      (.micro (.blockLength maxSize) :: rest) :=
  (executes_validate_clear owed clear _).trans (.push (fun _ => runStmt_blockChecked_ok rfl maxSize) (.done _ _))

/-- 41_block_transfer R150 steps 4 and 5 for a length byte within the limit. -/
theorem executes_lengthAccepted {s : State} {maxSize : Byte} (h : s.blk.lb ≤ maxSize) (rest : List Stmt) :
    Executes 4 s (.micro (.blockLength maxSize) :: rest)
      (s.setTimer (.running (timeoutTicks (s.blk.lb.toNat + 2)))) (payloadStmts ++ rest) :=
  .push (ks := .op (.armTimeout (s.blk.lb.toNat + 2)) :: payloadStmts)
    (fun ms => runStmt_blockLength_of_le (s := s.poised rest ms) h) (executes_armTimeout s _ _)

/-- The length phase up to the test of step 4, for a clean length byte that waits in the queue. -/
theorem executes_waitingLength {s : State} {lb : Byte} {more : List RxRecord} (maxSize : Byte)
    (fifo : s.uart.rxFifo = ⟨lb, ⟨false, false⟩⟩ :: more) (skipNext : s.link.skipNext = ⟨false, false⟩)
    (owed : s.link.owed = 0) (clear : s.link.clear = true) (rest : List Stmt) :
    Executes 5 s (lengthStmts maxSize ++ rest) ((s.popRx more).lengthTaken lb) (.micro (.blockLength maxSize) :: rest) := by
  have taken := (reception_recvInto s.blk.lb .blkLb).takes_clean (s := s.setTimer (.running (timeoutTicks 1))) rfl fifo
    (by simp) skipNext owed (.op .validate :: .micro (.blockChecked maxSize) :: rest)
  have checked := executes_lengthChecked (s := ((s.setTimer (.running (timeoutTicks 1))).popRx more).store .blkLb lb)
    maxSize owed clear rest
  exact (executes_armClamp s 1 _).trans (taken.trans checked)

/-- The whole length phase, for a length byte within the limit that the host sends at the controller's pace. -/
theorem runs_lengthMoves {s : State} {lb maxSize : Byte} (idle : s.trapIdle) (serial : s.SerialIdle) (hlb : lb ≤ maxSize)
    (rest : List Stmt) (ms : List Move) :
    Runs 11 (s.poised (lengthStmts maxSize ++ rest) (lengthMoves lb ++ ms))
      ((s.payloadBegun lb).poised (payloadStmts ++ rest) ms) := by
  have armed := (executes_armClamp s 1 (.micro (.recvInto .blkLb) :: .op .validate :: .micro (.blockChecked maxSize) ::
    rest)).runs_scheduled idle (rxMoves [lb] ++ (controllerMoves 6 ++ ms))
  have taken := (reception_recvInto s.blk.lb .blkLb).runs_wireByte (s := s.setTimer (.running (timeoutTicks 1))) rfl
    { serial.listening with } idle (by simp) ⟨lb, false⟩ (.op .validate :: .micro (.blockChecked maxSize) :: rest)
    (controllerMoves 6 ++ ms)
  rw [latch_clean] at taken
  have checked := (executes_lengthChecked (s := (s.setTimer (.running (timeoutTicks 1))).store .blkLb lb) maxSize
    serial.owed serial.flags rest).trans (executes_lengthAccepted hlb rest)
  rw [lengthMoves, List.append_assoc, List.append_assoc]
  exact armed.trans (taken.trans (checked.runs_scheduled idle ms))

/-! ## Refusals and errors -/

/-- `receive_block` reports `e`: it flushes, sends the code and returns the error. -/
theorem State.Quiet.runs_reject {s : State} (q : s.Quiet) (free : s.uart.txReg = none) (e : Err) {rest : List Stmt}
    (hpc : s.fg.pc = .op .flushInput :: .op e.status :: .micro (.giveResult (.err e)) :: rest) :
    Runs 4 s (((s.reporting e).give (.err e)).goto rest) := by
  have flushed : State.Quiet (s.flushInput.goto (.op e.status :: .micro (.giveResult (.err e)) :: rest)) := { q with }
  have reporting : State.Quiet ((s.reporting e).goto (.micro (.giveResult (.err e)) :: rest)) := { q with }
  have give : Runs 1 ((s.reporting e).goto (.micro (.giveResult (.err e)) :: rest)) _ :=
    reporting.runs_stmt rfl rfl ((runs_zero _ _).2 rfl)
  have report : Runs 3 (s.flushInput.goto (.op e.status :: .micro (.giveResult (.err e)) :: rest)) _ :=
    flushed.runs_call rfl (completes_of_exec_sendByte (exec_status e _) (flushed.goto _) free) give
  exact q.runs_stmt hpc rfl report

/-- Settles O22: the length phase leaves the length byte above the limit, which is refused. -/
theorem receiveBlockRefusesALongLength : Obligations.ReceiveBlockRefusesALongLength := by
  intro s maxSize lb more q fifo free clear skipNext owed hlt
  have idle := q.trapIdle
  have taken := (executes_waitingLength maxSize fifo skipNext owed clear s.fg.pc).runs_free idle
  have refused : Executes 1 ((s.popRx more).lengthTaken lb) (.micro (.blockLength maxSize) :: s.fg.pc) _ _ :=
    .push (fun ms => runStmt_blockLength_of_lt (s := ((s.popRx more).lengthTaken lb).poised s.fg.pc ms) hlt) (.done _ _)
  have rejected := (State.trapIdle.quiet_poised (s := (s.popRx more).lengthTaken lb) idle _).runs_reject free .invalidSize
    (rest := s.fg.pc) rfl
  refine completes_receiveBlock q.schedule ?_ rfl
  rw [q.schedule]
  exact taken.trans ((refused.runs_free idle).trans rejected)

/-! ## The payload phase -/

/-- What is left of step 6 once `n` payload bytes of a frame with length byte `lb` are taken. -/
def payloadLeft (lb : Byte) (n : Nat) : List Stmt := if n ≤ lb.toNat then [.micro (.recvBuf (BitVec.ofNat 8 n))] else []

theorem payloadLeft_of_le {lb : Byte} {n : Nat} (h : n ≤ lb.toNat) :
    payloadLeft lb n = [.micro (.recvBuf (BitVec.ofNat 8 n))] := if_pos h

theorem payloadLeft_of_lt {lb : Byte} {n : Nat} (h : lb.toNat < n) : payloadLeft lb n = [] := if_neg (Nat.not_le.2 h)

/-- 41_block_transfer R150 step 6: the test for payload byte `n` stores it there; the next byte's test follows, if it is one. -/
theorem reception_recvBuf {lb : Byte} {n : Nat} (h : n ≤ lb.toNat) :
    Reception lb (.micro (.recvBuf (BitVec.ofNat 8 n))) (fun t v => t.setBuf (BitVec.ofNat 8 n) v)
      (payloadLeft lb (n + 1)) where
  run s hlb := by
    have more : BitVec.ofNat 8 n < s.blk.lb ↔ n + 1 ≤ lb.toNat := by
      rw [hlb, BitVec.lt_def, BitVec.toNat_ofNat, Nat.mod_eq_of_lt (by omega)]
      omega
    rw [payloadLeft, BitVec.ofNat_add]
    simp only [runStmt_micro, runMicro, microRecvBuf, more]
    rfl
  poised _ _ _ _ := rfl
  trap _ _ := rfl

/-- Storing the byte after the last one stored. -/
theorem bufStore_set (buf : Vector Byte 256) (bytes : List Byte) (b : Byte) {n : Nat} (hn : n = bytes.length)
    (h : n < 256) : (bufStore buf bytes).set n b h = bufStore buf (bytes ++ [b]) := by
  subst hn
  apply Vector.ext
  intro j hj
  rw [Vector.getElem_set, bufStore_getElem _ _ hj, bufStore_getElem _ _ hj]
  rcases Nat.lt_trichotomy j bytes.length with lt | rfl | gt
  · rw [if_neg lt.ne', List.getElem?_append_left lt]
  · simp
  · rw [if_neg gt.ne, List.getElem?_eq_none gt.le, List.getElem?_eq_none (by simp; omega)]

theorem bufStore_nil (buf : Vector Byte 256) : bufStore buf [] = buf := by
  apply Vector.ext
  intro j hj
  simp [bufStore_getElem _ _ hj]

/-- The payload bytes `ws` have been taken from the wire. -/
def State.payloadTaken (s : State) (ws : List WireByte) : State :=
  { s with
    blk.buf := bufStore s.blk.buf (ws.map (·.data)), link.frameError := s.link.frameError || ws.any (·.badStop) }

theorem State.Listening.payloadTaken {s : State} (h : s.Listening) (ws : List WireByte) : (s.payloadTaken ws).Listening :=
  ⟨h.wire, h.fifo, h.lost, h.skipNext, h.owed⟩

theorem State.payloadTaken_lb (s : State) (ws : List WireByte) : (s.payloadTaken ws).blk.lb = s.blk.lb := by
  simp only [State.payloadTaken]

theorem State.payloadTaken_nil (s : State) : s.payloadTaken [] = s := by
  simp [State.payloadTaken, bufStore_nil]

/-- Taking one byte more. -/
theorem State.payloadTaken_concat (s : State) (ws : List WireByte) (w : WireByte) (h : ws.length < 256) :
    State.setBuf { s.payloadTaken ws with link := (s.payloadTaken ws).link.latch ⟨w.badStop, false⟩ }
      (BitVec.ofNat 8 ws.length) w.data = s.payloadTaken (ws ++ [w]) := by
  have place : (BitVec.ofNat 8 ws.length).toNat = (ws.map (·.data)).length := by
    rw [BitVec.toNat_ofNat, Nat.mod_eq_of_lt h, List.length_map]
  have stored := bufStore_set s.blk.buf (ws.map (·.data)) w.data place (BitVec.isLt _)
  simp only [State.setBuf, State.payloadTaken, stored, Link.latch, List.map_append, List.map_cons, List.map_nil,
    List.any_append, List.any_cons, List.any_nil, Bool.or_false, Bool.or_assoc]

/-- 41_block_transfer R150 step 6: the bytes the host sends are taken in order. -/
theorem runs_payload {s : State} {lb : Byte} (hlb : s.blk.lb = lb) (listening : s.Listening) (idle : s.trapIdle)
    (timer : s.link.timer ≠ .expired) (taken ws : List WireByte) (h : taken.length + ws.length ≤ lb.toNat + 1)
    (rest : List Stmt) (ms : List Move) :
    Runs (3 * ws.length) ((s.payloadTaken taken).poised (payloadLeft lb taken.length ++ rest) (wireMoves ws ++ ms))
      ((s.payloadTaken (taken ++ ws)).poised (payloadLeft lb (taken ++ ws).length ++ rest) ms) := by
  induction ws generalizing taken with
  | nil => simp [wireMoves]
  | cons w ws ih =>
    have := lb.isLt
    rw [List.length_cons] at h
    have hle : taken.length ≤ lb.toNat := by omega
    have first := (reception_recvBuf hle).runs_wireByte (s := s.payloadTaken taken) ((s.payloadTaken_lb taken).trans hlb)
      (listening.payloadTaken taken) idle timer w rest (wireMoves ws ++ ms)
    rw [State.payloadTaken_concat s taken w (by omega)] at first
    have later := ih (taken ++ [w]) (by simp; omega)
    rw [List.append_assoc, List.length_append] at later
    rw [payloadLeft_of_le hle, List.length_cons, Nat.mul_succ, Nat.add_comm]
    exact first.trans later

/-- A payload and the checksum byte after it have been taken from the wire. -/
def State.frameTaken (s : State) (ws : List WireByte) (w : WireByte) : State :=
  { s with
    blk.buf := bufStore s.blk.buf (ws.map (·.data)), blk.ck := w.data,
    link.frameError := s.link.frameError || (ws ++ [w]).any (·.badStop) }

/-- 41_block_transfer R150 step 7: the checksum byte is taken after the payload. -/
theorem runs_checksumByte {s : State} (listening : s.Listening) (idle : s.trapIdle) (timer : s.link.timer ≠ .expired)
    (ws : List WireByte) (w : WireByte) (rest : List Stmt) (ms : List Move) :
    Runs 3 ((s.payloadTaken ws).poised (.micro (.recvInto .blkCk) :: rest) (wireMoves [w] ++ ms))
      ((s.frameTaken ws w).poised rest ms) := by
  have run := (reception_recvInto s.blk.lb .blkCk).runs_wireByte (s.payloadTaken_lb ws) (listening.payloadTaken ws)
    (idle.of_trap_eq rfl) timer w rest ms
  simpa [State.store, State.payloadTaken, State.frameTaken, Link.latch, Bool.or_assoc] using run

/-- The whole payload phase up to its checkpoint: every byte of the frame after the length byte is taken. -/
theorem runs_frame {s : State} (listening : s.Listening) (idle : s.trapIdle) (timer : s.link.timer ≠ .expired)
    {ws : List WireByte} (w : WireByte) (h : ws.length = s.blk.lb.toNat + 1) (rest : List Stmt) (ms : List Move) :
    Runs (3 * s.blk.lb.toNat + 6) (s.poised (payloadStmts ++ rest) (wireMoves (ws ++ [w]) ++ ms))
      ((s.frameTaken ws w).poised (.op .validate :: .micro .blockPayload :: rest) ms) := by
  have payload := runs_payload rfl listening idle timer [] ws (by simp [h])
    (.micro (.recvInto .blkCk) :: .op .validate :: .micro .blockPayload :: rest) (wireMoves [w] ++ ms)
  rw [State.payloadTaken_nil, List.nil_append, List.length_nil, payloadLeft_of_le (Nat.zero_le _),
    payloadLeft_of_lt (by omega)] at payload
  have checksum := runs_checksumByte listening idle timer ws w (.op .validate :: .micro .blockPayload :: rest) ms
  rw [wireMoves, List.flatMap_append, List.append_assoc,
    show 3 * s.blk.lb.toNat + 6 = 3 * ws.length + 3 by omega]
  exact payload.trans checksum

theorem State.SerialIdle.payloadBegun {s : State} (h : s.SerialIdle) (lb : Byte) : (s.payloadBegun lb).Listening :=
  { h.listening with }

theorem State.payloadBegun_timer (s : State) (lb : Byte) : (s.payloadBegun lb).link.timer ≠ .expired := by
  simp [State.payloadBegun]

/-- The length phase and the payload phase up to its checkpoint, for a frame that the host sends at the controller's pace. -/
theorem runs_wireFrame {s : State} {lb maxSize : Byte} (idle : s.trapIdle) (serial : s.SerialIdle) (hlb : lb ≤ maxSize)
    {ws : List WireByte} (w : WireByte) (h : ws.length = lb.toNat + 1) (rest : List Stmt) (ms : List Move) :
    Runs (3 * lb.toNat + 17) (s.poised (lengthStmts maxSize ++ rest) (lengthMoves lb ++ wireMoves (ws ++ [w]) ++ ms))
      (((s.payloadBegun lb).frameTaken ws w).poised (.op .validate :: .micro .blockPayload :: rest) ms) := by
  have length := runs_lengthMoves idle serial hlb rest (wireMoves (ws ++ [w]) ++ ms)
  have frame := runs_frame (serial.payloadBegun lb) idle (s.payloadBegun_timer lb) w h rest ms
  rw [List.append_assoc, show 3 * lb.toNat + 17 = 11 + (3 * lb.toNat + 6) by omega]
  exact length.trans frame

/-! ## Failures at a checkpoint -/

/-- What a reception of `receive_block` leaves of `s`: everything outside SerialLink's flags and timer, the receive queue, the
Block registers and the foreground. -/
structure ReceptionFrame (s t : State) : Prop where
  img : t.img = s.img
  bus : t.bus = s.bus
  bank : t.bank = s.bank
  port1 : t.port1 = s.port1
  trap : t.trap = s.trap
  env : t.env = s.env
  mem : t.mem = s.mem
  txReg : t.uart.txReg = s.uart.txReg
  skipNext : t.link.skipNext = s.link.skipNext
  owed : t.link.owed = s.link.owed

/-- 41_block_transfer R150: with an error the test of step 8 returns it. -/
theorem runStmt_blockPayload_err {s : State} {e : Err} (h : s.fg.ret = .err e) :
    runStmt (.micro .blockPayload) s = .next s := by
  simp [runMicro, microBlockPayload, h]

/-- With the checkpoint passed, step 9 follows. -/
theorem runStmt_blockPayload_ok {s : State} (h : s.fg.ret = .ok) :
    runStmt (.micro .blockPayload) s = .next (s.push [.blockField, .micro .blockCompare]) := by
  simp [runMicro, microBlockPayload, h]

/-- 41_block_transfer R156: a checkpoint with a flag set reports its error, which the test `m` after it returns. -/
theorem State.Quiet.runs_failedCheckpoint {s : State} (q : s.Quiet) (free : s.uart.txReg = none) (owed : s.link.owed = 0)
    {m : Micro} {rest : List Stmt} (hpc : s.fg.pc = .op .validate :: .micro m :: rest)
    (returns : ∀ (u : State) (e : Err), u.fg.ret = .err e → runStmt (.micro m) u = .next u) {e : Err} {c : Byte}
    (report : FlagsReport s.link.frameError s.link.bufferOverflow s.link.timeout e c) :
    e.code = c ∧ Runs 8 s (((s.reporting e).clearFlags.give (.err e)).goto rest) := by
  obtain ⟨flagged, rfl, hcode⟩ := report.choose
  have reported : State.Quiet (((s.reporting s.link.choose).clearFlags.give (.err s.link.choose)).goto
    (.micro m :: rest)) := { q with }
  have returned := reported.runs_stmt rfl (returns _ _ rfl) ((runs_zero _ _).2 rfl)
  have checkpoint := completes_validate_flagged (q.goto (.micro m :: rest)) free (skippedLate_none owed) flagged
  exact ⟨hcode, q.runs_call hpc checkpoint returned⟩

/-- 40_serial_link R127: Timeout is reported where the other flags are clear. -/
theorem flagsReport_timeout {l : Link} (clear : l.clear = true) :
    FlagsReport l.frameError l.bufferOverflow true .timeout 1 :=
  have ⟨frameError, bufferOverflow, _⟩ := (Link.clear_iff l).1 clear
  .inr (.inr ⟨frameError, bufferOverflow, rfl, rfl, rfl⟩)

/-- `receive_block` fails where a run from after its first statement reaches a checkpoint with a flag set. -/
theorem receiveBlockFails_of_checkpoint {s t : State} {maxSize : Byte} {ms : List Move} {m : Micro} {k : Nat} {e : Err}
    {c : Byte} (hms : s.Scheduled ms) (free : s.uart.txReg = none) (owed : s.link.owed = 0)
    (run : Runs k (s.poised (lengthStmts maxSize ++ s.fg.pc) ms) (t.poised (.op .validate :: .micro m :: s.fg.pc) []))
    (frame : ReceptionFrame s t)
    (returns : ∀ (u : State) (e : Err), u.fg.ret = .err e → runStmt (.micro m) u = .next u)
    (report : FlagsReport t.link.frameError t.link.bufferOverflow t.link.timeout e c) :
    ReceiveBlockFails s maxSize (k + 8) e c := by
  have quiet := (hms.trapIdle.of_trap_eq frame.trap).quiet_poised (.op .validate :: .micro m :: s.fg.pc)
  obtain ⟨rfl, failed⟩ := quiet.runs_failedCheckpoint (frame.txReg.trans free) (frame.owed.trans owed) rfl returns report
  refine ⟨_, completes_receiveBlock hms.schedule (run.trans failed) rfl, rfl, rfl, ?link, frame.img, frame.bus, frame.bank,
    frame.port1, frame.trap, frame.env, frame.mem, rfl⟩
  case link => simp [State.reporting, State.poised, frame.skipNext, frame.owed]

/-! ## A silent host -/

/-- The host was silent to the end: the flag is set, and free bytes stand in the Block registers `b`. -/
def State.timedOut (s : State) (b : Block) (drawn : Nat) : State :=
  { s with link.timeout := true, blk := b, freeCount := drawn }

/-- With the timer expired the receptions left of the payload phase each find Timeout. -/
theorem executes_silentPayload {s : State} {lb : Byte} (hlb : s.blk.lb = lb) (fifo : s.uart.rxFifo = [])
    (timer : s.link.timer = .expired) {n left : Nat} (h : n + left = lb.toNat + 1) (rest : List Stmt) :
    ∃ b drawn, Executes (left + 1) s (payloadLeft lb n ++ .micro (.recvInto .blkCk) :: rest) (s.timedOut b drawn) rest := by
  induction left generalizing s n with
  | zero =>
    rw [payloadLeft_of_lt (by omega)]
    exact ⟨_, _, (reception_recvInto lb .blkCk).expires hlb fifo timer rest⟩
  | succ left ih =>
    have hle : n ≤ lb.toNat := by omega
    have test := (reception_recvBuf hle).expires hlb fifo timer (.micro (.recvInto .blkCk) :: rest)
    obtain ⟨b, drawn, later⟩ := ih (s := s.setTimeout.drawn.setBuf (BitVec.ofNat 8 n) (Config.freeByte s.freeCount))
      (n := n + 1) hlb fifo timer (by omega)
    rw [payloadLeft_of_le hle, Nat.add_comm]
    exact ⟨b, drawn, test.trans later⟩

/-- Before the last byte of a frame is taken, a statement that waits for the next one is to be executed. -/
theorem exists_reception (lb : Byte) (n : Nat) (rest : List Stmt) :
    ∃ st put next later, payloadLeft lb n ++ .micro (.recvInto .blkCk) :: rest = st :: later ∧
      Reception lb st put next := by
  by_cases h : n ≤ lb.toNat
  · rw [payloadLeft_of_le h]
    exact ⟨_, _, _, _, rfl, reception_recvBuf h⟩
  · rw [payloadLeft_of_lt (Nat.lt_of_not_le h)]
    exact ⟨_, _, _, _, rfl, reception_recvInto lb .blkCk⟩

/-! ## The end of a frame -/

/-- 30_encoding R97: a payload has at most the buffer's 256 bytes. -/
theorem State.payload_length (s : State) : s.payload.length = s.blk.lb.toNat + 1 := by
  have := s.blk.lb.isLt
  rw [State.payload, State.bufBytes, State.payloadLen, List.length_take, Vector.length_toList]
  omega

/-- Storing what the front of the buffer holds changes nothing. -/
theorem bufStore_take (buf : Vector Byte 256) (n : Nat) : bufStore buf (buf.toList.take n) = buf := by
  apply Vector.ext
  intro j hj
  rw [bufStore_getElem _ _ hj, List.getElem?_take]
  split
  · simp [hj]
  · rfl

/-- 41_block_transfer R150 step 9: the frame in the Block registers has its XOR computed, over exactly its payload. -/
theorem runStmt_blockField (s : State) : runStmt .blockField s = .next { s with blk.xor := xorFold s.payload } := by
  rw [runStmt_blockField_of_decode (decode_block s.payload_length s.blk.ck [])]
  show Host.Outcome.next _ = _
  rw [State.storeFrame, State.payload, State.bufBytes, bufStore_take]

/-- 41_block_transfer R150 steps 8 and 9 with no flag set. -/
theorem executes_frameChecked {s : State} (owed : s.link.owed = 0) (clear : s.link.clear = true) (rest : List Stmt) :
    Executes 3 s (.op .validate :: .micro .blockPayload :: rest)
      { (s.setTimer .idle).give .ok with blk.xor := xorFold s.payload } (.micro .blockCompare :: rest) := by
  have computed : Executes 1 ((s.setTimer .idle).give .ok) (.blockField :: .micro .blockCompare :: rest)
      { (s.setTimer .idle).give .ok with blk.xor := xorFold s.payload } (.micro .blockCompare :: rest) :=
    .one (fun _ => runStmt_blockField _) rfl
  exact (executes_validate_clear owed clear _).trans (.push (fun _ => runStmt_blockPayload_ok rfl) computed)

/-- 41_block_transfer R150 steps 10 and 11: the checksum is right and the result is the length. -/
theorem executes_accepted {s : State} (h : s.blk.xor = s.blk.ck) (rest : List Stmt) :
    Executes 2 s (.micro .blockCompare :: rest) (s.give (.okLen (s.blk.lb.toNat + 1))) rest :=
  .push (ks := [.micro .blockOk]) (fun _ => if_pos h) (.one (fun _ => rfl) rfl)

/-- A wrong checksum is reported. -/
theorem executes_checksumWrong {s : State} (h : s.blk.xor ≠ s.blk.ck) (rest : List Stmt) :
    Executes 1 s (.micro .blockCompare :: rest) s
      ([.op .flushInput, .op .statusChecksumFailed, .micro (.giveResult (.err .checksumFailed))] ++ rest) :=
  .push (fun _ => if_neg h) (.done _ _)

/-! ## A whole frame -/

/-- The frame is received, and the checkpoint of step 8 follows. -/
def State.frameReceived (s : State) (lb : Byte) (payload : List Byte) (ck : Byte) : State :=
  { s with
    blk.lb := lb, blk.buf := bufStore s.blk.buf payload, blk.ck := ck,
    link.timer := .running (timeoutTicks (lb.toNat + 2)), fg.ret := .ok }

/-- The frame has passed that checkpoint, and its XOR is computed. -/
def State.frameChecked (s : State) (lb : Byte) (payload : List Byte) (ck : Byte) : State :=
  { s with
    blk := { buf := bufStore s.blk.buf payload, lb := lb, xor := xorFold payload, ck := ck }, link.timer := .idle,
    fg.ret := .ok }

/-- The registers hold the payload in front of what the buffer held. -/
theorem State.frameChecked_payload (s : State) {lb : Byte} {payload : List Byte} (h : payload.length = lb.toNat + 1)
    (ck : Byte) :
    (s.frameChecked lb payload ck).payload = payload ∧
      (s.frameChecked lb payload ck).blk.buf.toList.drop (lb.toNat + 1) = s.blk.buf.toList.drop (lb.toNat + 1) := by
  have stored := bufStore_toList s.blk.buf (bytes := payload) (by omega)
  refine ⟨State.payload_eq h stored, ?_⟩
  rw [← h]
  exact (congrArg (List.drop payload.length) stored).trans List.drop_left

/-- Bytes with good stop bits leave the flags as they were. -/
theorem State.frameTaken_clean (s : State) (payload : List Byte) (ck : Byte) :
    s.frameTaken (payload.map fun b => ⟨b, false⟩) ⟨ck, false⟩ =
      { s with blk.buf := bufStore s.blk.buf payload, blk.ck := ck } := by
  have good : (payload.map fun b => (⟨b, false⟩ : WireByte)).any (·.badStop) = false := by simp
  simp [State.frameTaken, Function.comp_def, good]

/-- `receive_block` up to the checkpoint of step 8, for a frame within the limit sent at the controller's pace. -/
theorem runs_frameMoves {s : State} {lb maxSize ck : Byte} {payload : List Byte} (idle : s.trapIdle)
    (serial : s.SerialIdle) (hlb : lb ≤ maxSize) (hlen : payload.length = lb.toNat + 1) (rest : List Stmt)
    (ms : List Move) :
    Runs (3 * lb.toNat + 17) (s.poised (lengthStmts maxSize ++ rest) (frameMoves lb payload ck ++ ms))
      ((s.frameReceived lb payload ck).poised (.op .validate :: .micro .blockPayload :: rest) ms) := by
  have run := runs_wireFrame idle serial hlb (ws := payload.map fun b => ⟨b, false⟩) ⟨ck, false⟩ (by simpa using hlen)
    rest ms
  rw [State.frameTaken_clean] at run
  rw [frameMoves, rxMoves, List.map_append, List.map_singleton]
  simpa only [State.frameReceived, State.payloadBegun] using run

/-- The checkpoint of step 8 and step 9 for that frame. -/
theorem executes_frameReceived {s : State} {lb ck : Byte} {payload : List Byte} (serial : s.SerialIdle)
    (hlen : payload.length = lb.toNat + 1) (rest : List Stmt) :
    Executes 3 (s.frameReceived lb payload ck) (.op .validate :: .micro .blockPayload :: rest)
      (s.frameChecked lb payload ck) (.micro .blockCompare :: rest) := by
  have checked := executes_frameChecked (s := s.frameReceived lb payload ck) serial.owed serial.flags rest
  have held : (s.frameReceived lb payload ck).payload = payload :=
    State.payload_eq hlen (bufStore_toList s.blk.buf (by omega))
  rwa [held] at checked

/-- A run that is scheduled for a whole frame, up to the comparison of step 10. -/
theorem State.Scheduled.runs_frame {s : State} {lb maxSize ck : Byte} {payload : List Byte}
    (sched : s.Scheduled (frameMoves lb payload ck)) (serial : s.SerialIdle) (hlb : lb ≤ maxSize)
    (hlen : payload.length = lb.toNat + 1) :
    Runs (3 * lb.toNat + 20) (s.poised (lengthStmts maxSize ++ s.fg.pc) (frameMoves lb payload ck))
      ((s.frameChecked lb payload ck).poised (.micro .blockCompare :: s.fg.pc) []) := by
  have received := runs_frameMoves (ck := ck) sched.trapIdle serial hlb hlen s.fg.pc []
  rw [List.append_nil] at received
  have checked := executes_frameReceived (ck := ck) serial hlen s.fg.pc
  exact received.trans (checked.runs_free (sched.trapIdle.of_trap_eq rfl))

/-- Settles O20: the frame reaches the comparison, which finds the checksum right. -/
theorem receiveBlockAcceptsAGoodFrame : Obligations.ReceiveBlockAcceptsAGoodFrame := by
  intro s maxSize lb payload sched serial hlb hlen
  have accepted : Executes 2 (s.frameChecked lb payload (xorFold payload)) (.micro .blockCompare :: s.fg.pc) _ s.fg.pc :=
    executes_accepted rfl s.fg.pc
  have run := (sched.runs_frame serial hlb hlen).trans (accepted.runs_free (sched.trapIdle.of_trap_eq rfl))
  obtain ⟨held, kept⟩ := s.frameChecked_payload hlen (xorFold payload)
  exact ⟨_, completes_receiveBlock sched.schedule run rfl, rfl, rfl, held, kept, rfl, rfl, rfl, rfl, rfl, rfl, rfl, rfl, rfl,
    rfl, rfl, rfl⟩

/-! ## The failures -/

/-- A mark on the length byte, or a flag carried into the phase. -/
theorem receiveBlockFails_length {s : State} {maxSize lb c : Byte} {marks : RxMarks} {more : List RxRecord} {e : Err}
    (q : s.Quiet) (free : s.uart.txReg = none) (skipNext : s.link.skipNext = ⟨false, false⟩) (owed : s.link.owed = 0)
    (fifo : s.uart.rxFifo = ⟨lb, marks⟩ :: more)
    (report : FlagsReport (s.link.frameError || marks.fe) (s.link.bufferOverflow || marks.ovf) s.link.timeout e c) :
    ReceiveBlockFails s maxSize 11 e c := by
  have taken := (reception_recvInto s.blk.lb .blkLb).takes (s := s.setTimer (.running (timeoutTicks 1))) rfl fifo
    (by simp) (.op .validate :: .micro (.blockChecked maxSize) :: s.fg.pc)
  rw [latchMarks_of_no_skip (s := (s.setTimer (.running (timeoutTicks 1))).popRx more) skipNext owed] at taken
  have run := ((executes_armClamp s 1 _).trans taken).runs_free q.trapIdle
  exact receiveBlockFails_of_checkpoint { q with } free owed run ⟨rfl, rfl, rfl, rfl, rfl, rfl, rfl, rfl, rfl, rfl⟩
    (fun _ _ h => runStmt_blockChecked_err h maxSize) report

/-- A host silent for the window of the length byte. -/
theorem receiveBlockFails_silentLength {s : State} {maxSize : Byte}
    (sched : s.Scheduled (controllerMoves 2 ++ testedTicks (timeoutTicks 1))) (serial : s.SerialIdle)
    (free : s.uart.txReg = none) : ReceiveBlockFails s maxSize (2 * timeoutTicks 1 + 11) .timeout 1 := by
  have idle := sched.trapIdle
  have reception := reception_recvInto s.blk.lb .blkLb
  have armed := (executes_armClamp s 1 (.micro (.recvInto .blkLb) :: .op .validate :: .micro (.blockChecked maxSize) ::
    s.fg.pc)).runs_scheduled idle (testedTicks (timeoutTicks 1))
  have ticked := reception.runs_testedTicks (s := s) rfl serial.fifo idle (one_le_timeoutTicks le_rfl)
    (.op .validate :: .micro (.blockChecked maxSize) :: s.fg.pc) []
  rw [List.append_nil] at ticked
  have expired := reception.expires (s := s.setTimer .expired) rfl serial.fifo rfl
    (.op .validate :: .micro (.blockChecked maxSize) :: s.fg.pc)
  have run := armed.trans (ticked.trans (expired.runs_free idle))
  rw [show 2 * timeoutTicks 1 + 11 = 2 + (2 * timeoutTicks 1 + 1) + 8 by omega]
  exact receiveBlockFails_of_checkpoint sched free serial.owed run ⟨rfl, rfl, rfl, rfl, rfl, rfl, rfl, rfl, rfl, rfl⟩
    (fun _ _ h => runStmt_blockChecked_err h maxSize) (flagsReport_timeout (l := s.link) serial.flags)

/-- A bad stop bit on any byte of the frame after the length byte. -/
theorem receiveBlockFails_badStop {s : State} {maxSize lb : Byte} {ws : List WireByte}
    (sched : s.Scheduled (lengthMoves lb ++ wireMoves ws)) (serial : s.SerialIdle) (hlb : lb ≤ maxSize)
    (hlen : ws.length = lb.toNat + 2) (bad : ∃ w ∈ ws, w.badStop = true) (free : s.uart.txReg = none) :
    ReceiveBlockFails s maxSize (3 * lb.toNat + 25) .frameError 5 := by
  obtain ⟨payload, w, rfl⟩ : ∃ payload w, ws = payload ++ [w] :=
    ⟨_, _, (List.dropLast_append_getLast (List.ne_nil_of_length_eq_add_one hlen)).symm⟩
  have run := runs_wireFrame sched.trapIdle serial hlb w (by simpa using hlen) s.fg.pc []
  rw [List.append_nil] at run
  have marked : ((s.payloadBegun lb).frameTaken payload w).link.frameError = true := by
    rw [State.frameTaken, List.any_eq_true.2 bad, Bool.or_true]
  exact receiveBlockFails_of_checkpoint sched free serial.owed run ⟨rfl, rfl, rfl, rfl, rfl, rfl, rfl, rfl, rfl, rfl⟩
    (fun _ _ => runStmt_blockPayload_err) (.inl ⟨marked, rfl, rfl⟩)

/-- The frame's bytes up to a stall, and the ticks that then expire the timer. -/
theorem runs_stall {s : State} {lb maxSize : Byte} (idle : s.trapIdle) (serial : s.SerialIdle) (hlb : lb ≤ maxSize)
    {ws : List WireByte} (hlen : ws.length ≤ lb.toNat + 1) (rest : List Stmt) :
    Runs (11 + (3 * ws.length + 2 * timeoutTicks (lb.toNat + 2)))
      (s.poised (lengthStmts maxSize ++ rest)
        (lengthMoves lb ++ (wireMoves ws ++ testedTicks (timeoutTicks (lb.toNat + 2)))))
      ((((s.payloadBegun lb).payloadTaken ws).setTimer .expired).poised
        (payloadLeft lb ws.length ++ .micro (.recvInto .blkCk) :: .op .validate :: .micro .blockPayload :: rest) []) := by
  have length := runs_lengthMoves idle serial hlb rest (wireMoves ws ++ testedTicks (timeoutTicks (lb.toNat + 2)))
  have payload := runs_payload (s := s.payloadBegun lb) (lb := lb) rfl (serial.payloadBegun lb) idle
    (s.payloadBegun_timer lb) [] ws (by simpa using hlen)
    (.micro (.recvInto .blkCk) :: .op .validate :: .micro .blockPayload :: rest)
    (testedTicks (timeoutTicks (lb.toNat + 2)))
  rw [State.payloadTaken_nil, List.nil_append, List.length_nil, payloadLeft_of_le (Nat.zero_le _)] at payload
  obtain ⟨st, put, next, later, hst, reception⟩ :=
    exists_reception lb ws.length (.op .validate :: .micro .blockPayload :: rest)
  have ticked := reception.runs_testedTicks (s := (s.payloadBegun lb).payloadTaken ws) (State.payloadTaken_lb _ _)
    serial.fifo (idle.of_trap_eq rfl) (one_le_timeoutTicks (n := lb.toNat + 2) (Nat.succ_pos _)) later []
  have running : ((s.payloadBegun lb).payloadTaken ws).setTimer (.running (timeoutTicks (lb.toNat + 2))) =
    (s.payloadBegun lb).payloadTaken ws := State.setTimer_self _
  rw [running, List.append_nil, ← hst] at ticked
  exact length.trans (payload.trans ticked)

/-- A host that stalls before the last byte of the frame. -/
theorem receiveBlockFails_stalled {s : State} {maxSize lb : Byte} {bytes : List Byte}
    (sched : s.Scheduled (lengthMoves lb ++ rxMoves bytes ++ testedTicks (timeoutTicks (lb.toNat + 2))))
    (serial : s.SerialIdle) (hlb : lb ≤ maxSize) (hlen : bytes.length < lb.toNat + 2) (free : s.uart.txReg = none) :
    ReceiveBlockFails s maxSize (2 * timeoutTicks (lb.toNat + 2) + 2 * bytes.length + lb.toNat + 21) .timeout 1 := by
  rw [List.append_assoc] at sched
  obtain ⟨left, hleft⟩ : ∃ left, bytes.length + left = lb.toNat + 1 := ⟨_, Nat.add_sub_of_le (Nat.le_of_lt_succ hlen)⟩
  have stalled := runs_stall sched.trapIdle serial hlb (ws := bytes.map fun b => ⟨b, false⟩) (by simp; omega) s.fg.pc
  rw [List.length_map] at stalled
  obtain ⟨b, drawn, silent⟩ := executes_silentPayload (lb := lb)
    (s := ((s.payloadBegun lb).payloadTaken (bytes.map fun b => ⟨b, false⟩)).setTimer .expired)
    (State.payloadTaken_lb _ _) serial.fifo rfl (left := left) (by simpa using hleft)
    (.op .validate :: .micro .blockPayload :: s.fg.pc)
  have run := stalled.trans (silent.runs_free (sched.trapIdle.of_trap_eq rfl))
  have clean : ((s.payloadBegun lb).payloadTaken (bytes.map fun b => ⟨b, false⟩)).link.frameError = s.link.frameError := by
    simp [State.payloadTaken, State.payloadBegun]
  rw [show 2 * timeoutTicks (lb.toNat + 2) + 2 * bytes.length + lb.toNat + 21 =
    11 + (3 * bytes.length + 2 * timeoutTicks (lb.toNat + 2)) + (left + 1) + 8 by omega]
  refine receiveBlockFails_of_checkpoint sched free serial.owed run ⟨rfl, rfl, rfl, rfl, rfl, rfl, rfl, rfl, rfl, rfl⟩
    (fun _ _ => runStmt_blockPayload_err) ?_
  have report := flagsReport_timeout serial.flags
  rw [← clean] at report
  exact report

/-- A wrong checksum. -/
theorem receiveBlockFails_checksum {s : State} {maxSize lb ck : Byte} {payload : List Byte}
    (sched : s.Scheduled (frameMoves lb payload ck)) (serial : s.SerialIdle) (hlb : lb ≤ maxSize)
    (hlen : payload.length = lb.toNat + 1) (wrong : ck ≠ xorFold payload) (free : s.uart.txReg = none) :
    ReceiveBlockFails s maxSize (3 * lb.toNat + 25) .checksumFailed 3 := by
  have idle : (s.frameChecked lb payload ck).trapIdle := sched.trapIdle.of_trap_eq rfl
  have compared := (executes_checksumWrong (s := s.frameChecked lb payload ck) wrong.symm s.fg.pc).runs_free idle
  have rejected := (idle.quiet_poised _).runs_reject free .checksumFailed (rest := s.fg.pc) rfl
  have run := (sched.runs_frame serial hlb hlen).trans (compared.trans rejected)
  obtain ⟨frameError, bufferOverflow, timeout⟩ := (Link.clear_iff _).1 serial.flags
  refine ⟨_, completes_receiveBlock sched.schedule run rfl, rfl, rfl, ?link, rfl, rfl, rfl, rfl, rfl, rfl, rfl, rfl⟩
  case link => simp [State.reporting, State.poised, State.frameChecked, frameError, bufferOverflow, timeout]

/-- Settles O21: each failure is reported at one of the two checkpoints or at the comparison. -/
theorem receiveBlockFailsWithOneStatusByte : Obligations.ReceiveBlockFailsWithOneStatusByte := by
  intro s maxSize free skipNext owed
  refine ⟨fun lb c marks more e q fifo report => receiveBlockFails_length q free skipNext owed fifo report,
    fun sched serial => receiveBlockFails_silentLength sched serial free,
    fun lb ws sched serial hlb hlen bad => receiveBlockFails_badStop sched serial hlb hlen bad free,
    fun lb bytes sched serial hlb hlen => receiveBlockFails_stalled sched serial hlb hlen free,
    fun c rest e q hpc report => ?checkpoint,
    fun lb ck payload sched serial hlb hlen wrong => receiveBlockFails_checksum sched serial hlb hlen wrong free⟩
  case checkpoint =>
    obtain ⟨rfl, failed⟩ := q.runs_failedCheckpoint free owed hpc (fun _ _ => runStmt_blockPayload_err) report
    exact failed

end Sys2Proof.Machine
end

