-- ==== Sys2Proof/Proofs/BusAccess.lean ====
section
/-! The statements of the family 42_bus_arbiter about one operation: acquiring and releasing the bus, byte access, bank switch,
the fault. -/

namespace Sys2Proof.Machine

/-! ## States by their entities -/

/-- Two states are equal where each of their entities is. -/
theorem State.eq_iff (s t : State) :
    s = t ↔ s.link = t.link ∧ s.blk = t.blk ∧ s.img = t.img ∧ s.bus = t.bus ∧ s.bank = t.bank ∧ s.port1 = t.port1 ∧
      s.trap = t.trap ∧ s.fg = t.fg ∧ s.uart = t.uart ∧ s.env = t.env ∧ s.mem = t.mem ∧ s.freeCount = t.freeCount ∧
      s.schedule = t.schedule := by
  cases s
  cases t
  simp only [State.mk.injEq]

/-! ## Releasing -/

/-- Settles O30: the owner is read off the three signals that are left (10_state R28). -/
theorem releaseBusWithdrawsTheRequest : Obligations.ReleaseBusWithdrawsTheRequest := by
  intro s
  refine ⟨s.setBusreq false, rfl, rfl, fun free => ?_, fun held => ?_⟩
  · exact (owner_target_iff _).2 ⟨free, .inl rfl⟩
  · exact (owner_controller_iff _).2 (.inl held)

theorem executes_releaseBus (s : State) (rest : List Stmt) :
    Executes 1 s (.op .releaseBus :: rest) (s.setBusreq false) rest := .one (fun _ => rfl) rfl

/-! ## The requirement of a driving operation -/

/-- 42_bus_arbiter R177: a driving operation that always goes on once allowed faults exactly where the target owns the bus. -/
theorem requireOwner_fault_iff (s : State) (f : State → State) :
    requireOwner s (fun u => .next (f u)) = .fault .driveWhileNotOwner ↔ s.owner = .targetOwned := by
  unfold requireOwner
  cases s.owner <;> simp

theorem exec_writeByteAt (a : Addr) (v : Byte) (s : State) :
    exec (.writeByteAt a v) s = requireOwner s fun u => .next (u.writeCycle a v) := rfl

theorem exec_readByteAt (a : Addr) (s : State) :
    exec (.readByteAt a) s = requireOwner s fun u => .next ((u.readCycle a).1.give (.byte (u.readCycle a).2)) := rfl

theorem exec_switchBank (v : Byte) (s : State) :
    exec (.switchBank v) s = requireOwner s fun u => .next (u.bankCycle v) := rfl

/-- The statements left after the first write of `inject_raw` from `base` (42_bus_arbiter R174). -/
def injectLater (base : Addr) : List Byte → List Stmt
  | [] => []
  | v :: rest => [.op (.inject .raw (addrPlus base 1) (v :: rest))]

theorem exec_injectRaw_cons (base : Addr) (v : Byte) (rest : List Byte) (s : State) :
    exec (.inject .raw base (v :: rest)) s =
      requireOwner s fun u => .next ((u.writeCycle base v).push (injectLater base rest)) := by
  cases rest <;> rfl

/-- Settles O32: each of the operations is one step under the requirement. -/
theorem drivingWhileNotOwnerFaults : Obligations.DrivingWhileNotOwnerFaults := by
  intro s a v
  refine ⟨?_, ?_, ?_, fun rest => ?_⟩
  · rw [exec_writeByteAt, requireOwner_fault_iff]
  · rw [exec_readByteAt, requireOwner_fault_iff]
  · rw [exec_switchBank, requireOwner_fault_iff]
  · rw [exec_injectRaw_cons, requireOwner_fault_iff]

/-- 42_bus_arbiter R176 as one update: the latch captures the level driven, which is the index then stored. -/
theorem State.bankCycle_eq (s : State) (v : Byte) :
    s.bankCycle v =
      { s with bus.dataOut := v, bus.dataDir := .inp, bank := { bankIndex := v, visibleBank := v } } := by
  simp [State.eq_iff]

/-- Settles O33: the switch is one step under the requirement. -/
theorem switchBankSetsLatchAndIndex : Obligations.SwitchBankSetsLatchAndIndex := by
  intro s v
  rw [exec_switchBank]
  refine ⟨fun owned => ?owner, fun target => requireOwner_target target _⟩
  case owner =>
    rw [requireOwner_controller owned, State.bankCycle_eq]
    exact ⟨_, rfl, rfl⟩

/-! ## Byte access -/

/-- The lines after the owner's access to `a`: all released, no strobe left, the address still in its output register (log 16). -/
def Bus.released (b : Bus) (a : Addr) : Bus :=
  { b with
    addrOut := a, dataDir := .inp, addrDir := .inp, memctlDir := .inp, memOe := false, memWe := false, memCe := false }

/-- 42_bus_arbiter R172 as one update. -/
theorem State.writeCycle_eq (s : State) (a : Addr) (v : Byte) :
    s.writeCycle a v =
      { s with bus := { s.bus.released a with dataOut := v }, mem := memWrite s.mem (s.location a) v } := by
  simp [State.eq_iff, Bus.released]

/-- 42_bus_arbiter R173 as one update. -/
theorem State.readCycle_eq (s : State) (a : Addr) :
    s.readCycle a = ({ s with bus := s.bus.released a }, s.memByte a) := by
  refine Prod.ext ?_ (s.readCycle_value a)
  simp [State.eq_iff, Bus.released]

/-- 42_bus_arbiter R177: an access leaves the three signals that decide the owner alone. -/
theorem State.owner_writeCycle (s : State) (a : Addr) (v : Byte) : (s.writeCycle a v).owner = s.owner := by
  simp [State.owner]

/-- Settles O31: the cycle's one write is at the location of the address. -/
theorem byteAccessReachesOneLocation : Obligations.ByteAccessReachesOneLocation := by
  intro s a owned
  refine ⟨fun v wf => ?write, ?read⟩
  case write =>
    rw [exec_writeByteAt, requireOwner_controller owned, State.writeCycle_eq]
    exact ⟨_, rfl, fun l => memRead_memWrite wf _ l v, memWrite_wf wf _ v, rfl, rfl⟩
  case read =>
    rw [exec_readByteAt, requireOwner_controller owned, State.readCycle_eq]
    exact ⟨_, rfl, rfl, rfl, rfl⟩

/-! ## Acquiring -/

/-- The controller has asked for the bus and the target has granted it. -/
def State.busGranted (s : State) : State := { s with bus.busreq := true, bus.busack := true }

/-- The handshake makes the controller the owner (10_state R28). -/
theorem State.owner_busGranted (s : State) : s.busGranted.owner = .controllerOwned :=
  (owner_controller_iff _).2 (.inr ⟨rfl, rfl⟩)

/-- 60_exceptions R320 (a), (b): the target's contract has the grant when it runs, is asked and is between cycles. -/
theorem moveGrant_next {s : State} (running : s.targetCondition = .running) (asked : s.bus.busreq = true)
    (between : s.env.cycle = none) : moveGrant s = .next { s with bus.busack := true } :=
  if_pos (by simp [running, asked, between])

/-- Once the request is up, a running target's scheduled grant makes the controller the owner. -/
theorem TargetRuns.step_grant {s : State} (runs : TargetRuns s) (pc : List Stmt) (ms : List Move) :
    step ((s.setBusreq true).poised pc (.grant :: ms)) = .next (s.busGranted.poised pc ms) := by
  obtain ⟨reset, clock, pending, ack, cycle⟩ := runs
  have running : ((s.setBusreq true).poised pc ms).targetCondition = .running :=
    (targetCondition_running_iff _).2 ⟨reset, clock, pending, ack⟩
  rw [step_cons (s := (s.setBusreq true).poised pc (.grant :: ms)) rfl]
  exact moveGrant_next running rfl cycle

/-- 42_bus_arbiter R170 step 2: with the acknowledgment up one test ends the wait. -/
theorem executes_awaitGrant {s : State} (ack : s.bus.busack = true) (rest : List Stmt) :
    Executes 1 s (.micro .awaitGrant :: rest) s rest :=
  .one (fun _ => if_pos ack) rfl

/-- 42_bus_arbiter R170: the request is up, the target grants, and what the bracket holds is executed by the owner. -/
theorem TargetRuns.runs_bracket {s u : State} {k : Nat} {body pc : List Stmt} (runs : TargetRuns s) (idle : s.trapIdle)
    (h : Executes k s.busGranted body u pc) :
    Runs (k + 2) ((s.setBusreq true).poised (.micro .awaitGrant :: body) [.grant]) (u.poised pc []) := by
  have acquired := (executes_awaitGrant rfl body).trans h
  rw [Nat.add_comm k 2, Nat.succ_add]
  exact .cons (runs.step_grant _ _) (acquired.runs_free (idle.of_trap_eq rfl))

/-- An operation that acquires the bus and goes on as owner completes, once granted, where what goes on ends. -/
theorem State.Scheduled.completes_bracket {s u : State} {i : Instr} {k : Nat} {body : List Stmt}
    (sched : s.Scheduled [.grant]) (runs : TargetRuns s) (first : exec i s = .next (s.push body).acquireBus)
    (h : Executes k s.busGranted (body ++ s.fg.pc) u s.fg.pc) : Completes i s (k + 2) (u.poised s.fg.pc []) := by
  have run := runs.runs_bracket sched.trapIdle h
  rw [← sched.schedule] at run
  exact ⟨_, first, run, rfl⟩

/-- In a quiet state an operation completes where its statements, itself the first, end. -/
theorem Executes.completes {s u : State} {i : Instr} {k : Nat} (h : Executes (k + 1) s (.op i :: s.fg.pc) u s.fg.pc)
    (q : s.Quiet) : Completes i s k (u.poised s.fg.pc []) := by
  cases h with
  | stmt first trap more =>
    have begun := first []
    rw [← q.schedule] at begun
    exact ⟨_, begun, q.schedule ▸ more.runs_free (q.trapIdle.of_trap_eq trap), rfl⟩

/-- Asking again changes nothing. -/
theorem State.setBusreq_self {s : State} {b : Bool} (h : s.bus.busreq = b) : s.setBusreq b = s := by
  subst h
  rfl

/-- 42_bus_arbiter R170: called by the owner `acquire_bus` returns after one test. -/
theorem executes_acquireBus_owner {s : State} (req : s.bus.busreq = true) (ack : s.bus.busack = true) (rest : List Stmt) :
    Executes 2 s (.op .acquireBus :: rest) s rest := by
  refine .stmt (t := s.setBusreq true) (pc := .micro .awaitGrant :: rest) (fun _ => rfl) rfl ?_
  rw [State.setBusreq_self req]
  exact executes_awaitGrant ack rest

/-- Settles O27: the bracket with nothing in it, and the call by the owner. -/
theorem acquireBusEndsWithTheGrant : Obligations.AcquireBusEndsWithTheGrant := by
  intro s
  refine ⟨fun sched runs => ⟨?granted, s.owner_busGranted⟩, fun q req ack => ?owner⟩
  case granted => exact sched.completes_bracket (body := []) runs rfl (.done _ _)
  case owner =>
    have completes := (executes_acquireBus_owner req ack s.fg.pc).completes q
    rwa [← q.schedule] at completes

/-- A state that a step leaves as it is stays as it is. -/
theorem runs_self {s : State} (h : step s = .next s) (k : Nat) : Runs k s s := by
  induction k with
  | zero => exact (runs_zero _ _).2 rfl
  | succ k ih => exact .cons h ih

/-- 42_bus_arbiter R170 (a): without the acknowledgment a test of the wait puts the wait back. -/
theorem State.Quiet.step_awaitGrant {s : State} {rest : List Stmt} (q : s.Quiet)
    (hpc : s.fg.pc = .micro .awaitGrant :: rest) (ack : s.bus.busack = false) : step s = .next s := by
  have test : runStmt (.micro .awaitGrant) (s.goto rest) = .next ((s.goto rest).push [.micro .awaitGrant]) := by
    simp [runMicro, microAwaitGrant, ack]
  have back : (s.goto rest).push [.micro .awaitGrant] = s.goto s.fg.pc := by
    rw [hpc]
    rfl
  rw [q.step_eq_runStmt hpc, test, back]
  rfl

/-- Settles O28: each test of the wait leaves the state as it is. -/
theorem acquireBusHangsWithoutAnAcknowledgment : Obligations.AcquireBusHangsWithoutAnAcknowledgment := by
  intro s q ack
  have waiting : s.acquireBus.Quiet := { q with }
  exact ⟨s.acquireBus, rfl, rfl, runs_self (waiting.step_awaitGrant rfl ack)⟩

end Sys2Proof.Machine
end

