-- ==== Sys2Proof/Proofs/BusRegions.lean ====
section
/-! The statements of the family 42_bus_arbiter about several bytes: `inject_raw`, `inject_image` and `read_region`. -/

namespace Sys2Proof.Machine

/-! ## Ascending addresses -/

@[simp] theorem addrPlus_zero (a : Addr) : addrPlus a 0 = a := by
  simp [addrPlus]

@[simp] theorem zero_addrPlus (n : Nat) : addrPlus 0 n = BitVec.ofNat 16 n := by
  simp [addrPlus]

/-- 20_memory R71: addresses ascend modulo 2^AW. -/
theorem addrPlus_addrPlus (a : Addr) (m n : Nat) : addrPlus (addrPlus a m) n = addrPlus a (m + n) := by
  simp [addrPlus, BitVec.ofNat_add, BitVec.add_assoc]

/-! ## What injected memory reads as -/

/-- A location that no address of the bytes maps to keeps its byte. -/
theorem memRead_injected_other {b : Byte} {bytes : List Byte} (m : List Host.Cell) {base : Addr} {l : Nat}
    (h : ∀ i < bytes.length, Config.bankMap b (addrPlus base i) ≠ l) :
    memRead (injected b m base bytes) l = memRead m l := by
  induction bytes generalizing m base with
  | nil => rfl
  | cons v rest ih =>
    have first : l ≠ Config.bankMap b base := by simpa using (h 0 (by simp)).symm
    have later : ∀ i < rest.length, Config.bankMap b (addrPlus (addrPlus base 1) i) ≠ l := fun i hi => by
      rw [addrPlus_addrPlus, Nat.add_comm]
      exact h (i + 1) (Nat.succ_lt_succ hi)
    rw [injected, ih _ later, memRead_memWrite_other _ _ first]

/-- The byte at index `i` is what the location of its address holds, where no later byte is written to that location. -/
theorem memRead_injected_of_getElem {b : Byte} {m : List Host.Cell} {base : Addr} {bytes : List Byte} (wf : memWf m)
    {i : Nat} {v : Byte} (hi : bytes[i]? = some v)
    (last : ∀ j, i < j → j < bytes.length →
      Config.bankMap b (addrPlus base j) ≠ Config.bankMap b (addrPlus base i)) :
    memRead (injected b m base bytes) (Config.bankMap b (addrPlus base i)) = v := by
  induction bytes generalizing m base i with
  | nil => simp at hi
  | cons w rest ih =>
    have ascends (j : Nat) : addrPlus (addrPlus base 1) j = addrPlus base (j + 1) := by
      rw [addrPlus_addrPlus, Nat.add_comm]
    rw [injected]
    cases i with
    | zero =>
      obtain rfl : w = v := by simpa using hi
      have kept := memRead_injected_other (bytes := rest) (memWrite m (Config.bankMap b base) w)
        (base := addrPlus base 1) (l := Config.bankMap b (addrPlus base 0)) fun j hj => by
          rw [ascends]
          exact last (j + 1) (Nat.succ_pos j) (Nat.succ_lt_succ hj)
      rw [kept, addrPlus_zero, memRead_memWrite_same wf]
    | succ i =>
      have later : ∀ j, i < j → j < rest.length →
          Config.bankMap b (addrPlus (addrPlus base 1) j) ≠ Config.bankMap b (addrPlus (addrPlus base 1) i) := by
        intro j hij hj
        rw [ascends, ascends]
        exact last (j + 1) (Nat.succ_lt_succ hij) (Nat.succ_lt_succ hj)
      rw [← ascends i]
      exact ih (memWrite_wf wf _ w) (by simpa using hi) later

/-- Settles O35: by induction on the bytes, the last write to a location deciding. -/
theorem injectedBytesAreReadBack : Obligations.InjectedBytesAreReadBack :=
  fun _ m _ _ wf => ⟨fun _ _ hi last => memRead_injected_of_getElem wf hi last, fun _ h => memRead_injected_other m h⟩

/-! ## inject_raw -/

/-- The owner has written `bytes`, at least one, from `base` upward. -/
def State.injectedAt (s : State) (base : Addr) (bytes : List Byte) : State :=
  { s with
    mem := injected s.bank.visibleBank s.mem base bytes,
    bus := { s.bus.released (addrPlus base (bytes.length - 1)) with dataOut := bytes.getLastD 0 } }

theorem State.injectedAt_singleton (s : State) (base : Addr) (v : Byte) :
    s.injectedAt base [v] = s.writeCycle base v := by
  simp [State.injectedAt, State.writeCycle_eq, injected, State.location]

/-- Writing the first byte and then the later ones. -/
theorem State.writeCycle_injectedAt (s : State) (base : Addr) (v w : Byte) (rest : List Byte) :
    (s.writeCycle base v).injectedAt (addrPlus base 1) (w :: rest) = s.injectedAt base (v :: w :: rest) := by
  simp [State.injectedAt, State.writeCycle_eq, injected, State.location, addrPlus_addrPlus, Nat.add_comm, Bus.released]

/-- 42_bus_arbiter R174: the owner writes the first byte, and the later ones follow. -/
theorem executes_injectRaw_cons {s : State} (owned : s.owner = .controllerOwned) (base : Addr) (v : Byte)
    (later : List Byte) (rest : List Stmt) :
    Executes 1 s (.op (.inject .raw base (v :: later)) :: rest) (s.writeCycle base v) (injectLater base later ++ rest) := by
  refine .one (fun ms => ?_) (State.writeCycle_trap s base v)
  rw [runStmt_op, exec_injectRaw_cons, requireOwner_controller (s := s.poised rest ms) owned, State.writeCycle_eq,
    State.writeCycle_eq]
  rfl

/-- 42_bus_arbiter R174: the owner's `inject_raw` takes one step per byte. -/
theorem executes_injectRaw {s : State} (owned : s.owner = .controllerOwned) (base : Addr) {bytes : List Byte}
    (nonempty : bytes ≠ []) (rest : List Stmt) :
    Executes bytes.length s (.op (.inject .raw base bytes) :: rest) (s.injectedAt base bytes) rest := by
  induction bytes generalizing s base with
  | nil => exact absurd rfl nonempty
  | cons v later ih =>
    have first := executes_injectRaw_cons owned base v later rest
    cases later with
    | nil =>
      rw [State.injectedAt_singleton]
      exact first
    | cons w later =>
      rw [← State.writeCycle_injectedAt, List.length_cons, Nat.add_comm]
      exact first.trans (ih ((s.owner_writeCycle base v).trans owned) (addrPlus base 1) (List.cons_ne_nil w later))

/-- Settles O34: the call is the first of its steps. -/
theorem injectRawWritesAscending : Obligations.InjectRawWritesAscending := by
  intro s base bytes q owned nonempty
  have run := executes_injectRaw owned base nonempty s.fg.pc
  rw [← Nat.sub_add_cancel (List.length_pos_iff.2 nonempty)] at run
  refine ⟨_, run.completes q, rfl, owned, rfl, ?_⟩
  rw [← q.schedule]
  rfl

/-! ## inject_image -/

/-- 42_bus_arbiter R174 step 3: the bus is released unless it is to be kept. -/
theorem executes_injectRelease {s : State} (req : s.bus.busreq = true) (keepLocked : Bool) (rest : List Stmt) :
    Executes (1 + if keepLocked then 0 else 1) s (.micro (.injectRelease keepLocked) :: rest) (s.setBusreq keepLocked)
      rest := by
  cases keepLocked with
  | true =>
    rw [State.setBusreq_self req]
    exact .one (fun _ => rfl) rfl
  | false => exact .push (ks := [.op .releaseBus]) (fun _ => rfl) (executes_releaseBus s rest)

/-- Settles O36: the bracket holds the writes and the release. -/
theorem injectImageBracketsItsWrites : Obligations.InjectImageBracketsItsWrites := by
  intro s keepLocked base bytes sched runs nonempty
  have writes := executes_injectRaw s.owner_busGranted base nonempty (.micro (.injectRelease keepLocked) :: s.fg.pc)
  have release := executes_injectRelease (s := s.busGranted.injectedAt base bytes) rfl keepLocked s.fg.pc
  have completes := sched.completes_bracket (i := .inject (.image keepLocked) base bytes) runs rfl (writes.trans release)
  rw [show 3 + bytes.length + (if keepLocked then 0 else 1) =
    bytes.length + (1 + if keepLocked then 0 else 1) + 2 by omega]
  refine ⟨_, completes, rfl, rfl, ?_⟩
  rw [← sched.schedule]
  rfl

/-! ## read_region -/

/-- 42_bus_arbiter R175 step 2 for index `i`: the byte at address `i` is read into the buffer. -/
def State.readInto (s : State) (i : Byte) : State :=
  State.setBuf { s with bus := s.bus.released (i.setWidth 16) } i (s.memByte (i.setWidth 16))

/-- The statement left after the read at index `i`. -/
def regionLater (i : Byte) : Nat → List Stmt
  | 0 => []
  | n + 1 => [.micro (.readRegion (i + 1) (n + 1))]

theorem microReadRegion_succ (i : Byte) (left : Nat) (s : State) :
    microReadRegion i (left + 1) s = requireOwner s fun u =>
      .next (((u.readCycle (i.setWidth 16)).1.setBuf i (u.readCycle (i.setWidth 16)).2).push (regionLater i left)) := by
  cases left <;> rfl

/-- 42_bus_arbiter R175 step 2: the owner reads one byte, and the reads left follow. -/
theorem executes_readRegion_succ {s : State} (owned : s.owner = .controllerOwned) (i : Byte) (left : Nat)
    (rest : List Stmt) :
    Executes 1 s (.micro (.readRegion i (left + 1)) :: rest) (s.readInto i) (regionLater i left ++ rest) := by
  refine .one (fun ms => ?_) rfl
  rw [runStmt_micro, runMicro, microReadRegion_succ, requireOwner_controller (s := s.poised rest ms) owned,
    State.readCycle_eq]
  rfl

/-- The owner has read the bytes at addresses 0 to `n - 1` into the buffer. -/
def State.regionRead (s : State) : Nat → State
  | 0 => s
  | n + 1 => (s.regionRead n).readInto (BitVec.ofNat 8 n)

theorem regionBytes_length (b : Byte) (m : List Host.Cell) (a : Addr) (n : Nat) : (regionBytes b m a n).length = n := by
  induction n generalizing a with
  | zero => rfl
  | succ n ih => rw [regionBytes, List.length_cons, ih]

/-- The last byte of a region is at the last address. -/
theorem regionBytes_succ (b : Byte) (m : List Host.Cell) (a : Addr) (n : Nat) :
    regionBytes b m a (n + 1) = regionBytes b m a n ++ [memRead m (Config.bankMap b (addrPlus a n))] := by
  induction n generalizing a with
  | zero => simp [regionBytes]
  | succ n ih => rw [regionBytes, ih, addrPlus_addrPlus, Nat.add_comm 1 n, regionBytes, List.cons_append]

/-- An index of the buffer as an address (20_memory R64). -/
theorem setWidth_ofNat_index {n : Nat} (h : n < 256) : (BitVec.ofNat 8 n).setWidth 16 = BitVec.ofNat 16 n := by
  apply BitVec.eq_of_toNat_eq
  simp only [BitVec.toNat_setWidth, BitVec.toNat_ofNat]
  omega

/-- The byte at address `n` is stored after the bytes at the addresses below it. -/
theorem bufStore_regionBytes_set (buf : Vector Byte 256) (b : Byte) (m : List Host.Cell) {n : Nat} (h : n < 256)
    (hi : (BitVec.ofNat 8 n).toNat < 256) :
    (bufStore buf (regionBytes b m 0 n)).set (BitVec.ofNat 8 n).toNat
        (memRead m (Config.bankMap b ((BitVec.ofNat 8 n).setWidth 16))) hi =
      bufStore buf (regionBytes b m 0 (n + 1)) := by
  have index : (BitVec.ofNat 8 n).toNat = (regionBytes b m 0 n).length := by
    rw [regionBytes_length, BitVec.toNat_ofNat, Nat.mod_eq_of_lt h]
  rw [bufStore_set buf _ _ index hi, setWidth_ofNat_index h, regionBytes_succ, zero_addrPlus]

/-- Reading a region as one update. -/
theorem State.regionRead_succ (s : State) {n : Nat} (h : n < 256) :
    s.regionRead (n + 1) =
      { s with
        blk.buf := bufStore s.blk.buf (regionBytes s.bank.visibleBank s.mem 0 (n + 1)),
        bus := s.bus.released (BitVec.ofNat 16 n) } := by
  induction n with
  | zero =>
    have stored := bufStore_regionBytes_set s.blk.buf s.bank.visibleBank s.mem h (BitVec.isLt _)
    rw [regionBytes, bufStore_nil] at stored
    rw [← stored]
    rfl
  | succ n ih =>
    have stored := bufStore_regionBytes_set s.blk.buf s.bank.visibleBank s.mem h (BitVec.isLt _)
    rw [State.regionRead, ih (Nat.lt_of_succ_lt h), ← stored, ← setWidth_ofNat_index h]
    rfl

/-- Reading leaves the three signals that decide the owner alone. -/
theorem State.owner_regionRead (s : State) (n : Nat) : (s.regionRead n).owner = s.owner := by
  induction n with
  | zero => rfl
  | succ n ih => exact ih

/-- 42_bus_arbiter R175 step 2: the owner's reads left take one step each. -/
theorem executes_readRegion {s : State} (owned : s.owner = .controllerOwned) (n left : Nat) (rest : List Stmt) :
    Executes (left + 1) (s.regionRead n) (.micro (.readRegion (BitVec.ofNat 8 n) (left + 1)) :: rest)
      (s.regionRead (n + left + 1)) rest := by
  have first (n left : Nat) :=
    executes_readRegion_succ ((s.owner_regionRead n).trans owned) (BitVec.ofNat 8 n) left rest
  induction left generalizing n with
  | zero => exact first n 0
  | succ left ih =>
    have later := ih (n + 1)
    rw [BitVec.ofNat_add, Nat.add_assoc n, Nat.add_comm 1 left] at later
    have run := (first n (left + 1)).trans later
    rwa [Nat.add_comm 1] at run

/-- Settles O37: the bracket holds the reads and the release. -/
theorem readRegionFillsTheBuffer : Obligations.ReadRegionFillsTheBuffer := by
  intro s count one_le le sched runs
  obtain ⟨n, rfl⟩ := Nat.exists_eq_add_of_le' one_le
  have reads := executes_readRegion s.owner_busGranted 0 n (.op .releaseBus :: s.fg.pc)
  rw [Nat.zero_add, State.regionRead_succ _ (Nat.lt_of_succ_le le)] at reads
  have completes := sched.completes_bracket (i := .readRegion (n + 1)) runs rfl
    (reads.trans (executes_releaseBus _ s.fg.pc))
  have stored := bufStore_toList s.blk.buf (bytes := regionBytes s.bank.visibleBank s.mem 0 (n + 1))
    (by rwa [regionBytes_length])
  rw [regionBytes_length] at stored
  refine ⟨_, completes, ?bytes, ?others, ?lb, ?xor, ?ck, rfl, ?frame⟩
  case bytes => exact (congrArg (List.take (n + 1)) stored).trans (List.take_left' (regionBytes_length _ _ _ _))
  case others => exact (congrArg (List.drop (n + 1)) stored).trans (List.drop_left' (regionBytes_length _ _ _ _))
  case lb | xor | ck => simp only [State.poised, State.setBusreq_blk, State.busGranted]
  case frame => simp [State.eq_iff, State.poised, State.busGranted, sched.schedule]

end Sys2Proof.Machine
end

