-- ==== Sys2Proof/Proofs/CommandLoop.lean ====
section
/-! The statements of the family 43_command_loop about the loop itself and the commands without a bus access: the label, FETCH,
the unknown command and Echo. -/

namespace Sys2Proof.Machine

/-! ## Statements of the command loop -/

/-- The statements `pc` are executed in a quiet state, with nothing else scheduled after them. -/
theorem Executes.runs_quiet {k : Nat} {s u : State} {pc pc' : List Stmt} (h : Executes k s pc u pc') (q : s.Quiet) :
    Runs k (s.goto pc) (u.poised pc' s.schedule) := by
  have run := h.runs_free q.trapIdle
  rw [← q.schedule] at run
  exact run

/-- 43_command_loop R211: the last statement of every command leads to FETCH. -/
theorem executes_toFetch (s : State) (rest : List Stmt) : Executes 1 s (.micro .toFetch :: rest) s [.op .fetch] :=
  .one (fun _ => rfl) rfl

/-- 40_serial_link R122: an operation that is `send_byte(b)`, with the transmitter free. -/
theorem executes_sendByte_op {s : State} {i : Instr} {b : Byte} (h : ∀ u, exec i u = .next (u.sendByte b))
    (free : s.uart.txReg = none) (rest : List Stmt) :
    Executes 2 s (.op i :: rest) { s with uart.txReg := some b } rest :=
  have begun : Executes 1 s (.op i :: rest) s (.micro (.txWrite b) :: rest) := executes_sendByte free fun _ => h _
  have written : Executes 1 s (.micro (.txWrite b) :: rest) { s with uart.txReg := some b } rest :=
    .one (fun ms => congrArg _ (txWrite_empty (s := s.poised rest ms) free b)) rfl
  begun.trans written

/-! ## The label -/

/-- Settles O4: the byte is decoded at the label, by its exact value. -/
theorem commandByteSelectsByExactValue : Obligations.CommandByteSelectsByExactValue := by
  intro s b rest q hpc
  have selects {i : Instr} (h : Encodes i .cmd [b]) : step s = exec i (s.goto rest) := by
    rw [q.step_eq_runStmt hpc, runStmt_command_of_decode h.decode_eq]
  refine ⟨?_, ?_, ?_, ?_, fun h₁ h₂ h₃ h₄ => selects ⟨?_, rfl⟩⟩
  iterate 4 exact fun h => selects (h ▸ ⟨rfl, rfl⟩)
  have other : b = 0 ∨ 4 < b := by bv_omega
  simpa [Instr.wellFormed] using other

/-! ## FETCH -/

/-- 43_command_loop R200: a byte waiting is taken as the command, and dispatch follows. -/
theorem exec_fetch_got {s : State} {r : RxRecord} {rest : List RxRecord} (fifo : s.uart.rxFifo = r :: rest)
    (timer : s.link.timer ≠ .expired) :
    exec .fetch s = .next ((((s.popRx rest).latchMarks r.marks).store .cmd r.data).push [.op .dispatch]) := by
  show s.recvStore _ _ _ = _
  rw [State.recvStore, recvTest_byte fifo timer]

/-- With nothing waiting and no timeout FETCH is executed again. -/
theorem exec_fetch_waiting {s : State} (fifo : s.uart.rxFifo = []) (timer : s.link.timer ≠ .expired) :
    exec .fetch s = .next (s.push [.op .fetch]) := by
  have waiting : s.recvTest = .waiting := ((recvTest_empty fifo).resolve_left fun expired => timer expired.1).2
  show s.recvStore _ _ _ = _
  rw [State.recvStore, waiting]

/-- FETCH by itself stays as it is for want of a byte. -/
theorem State.Quiet.step_fetch_waiting {s : State} (q : s.Quiet) (fifo : s.uart.rxFifo = [])
    (timer : s.link.timer ≠ .expired) (hpc : s.fg.pc = [.op .fetch]) : step s = .next s := by
  have back : (s.goto []).push [.op .fetch] = s.goto s.fg.pc := by
    rw [hpc]
    rfl
  rw [q.step_eq_runStmt hpc, runStmt_op, exec_fetch_waiting (s := s.goto []) fifo timer, back]
  rfl

/-- Settles O38: the byte's marks are latched as any byte's, and without a byte the state repeats. -/
theorem fetchWaitsForACommandByte : Obligations.FetchWaitsForACommandByte := by
  intro s idle
  have timer : s.link.timer ≠ .expired := by simp [idle]
  refine ⟨fun r rest fifo => ?taken, rfl, fun q fifo hpc => runs_self (q.step_fetch_waiting fifo timer hpc)⟩
  case taken =>
    obtain ⟨-, -, keptTimeout, keptTimer⟩ := latchMarks_keeps_flags (s.popRx rest) r.marks
    refine ⟨_, exec_fetch_got fifo timer, rfl, rfl, latchMarks_flags (s.popRx rest) r.marks, fun lossy => ?_, keptTimeout,
      keptTimer.trans idle, rfl⟩
    have latched := latchMarks_link_of_lossy lossy (s.popRx rest) r.marks
    exact ⟨congrArg Link.frameError latched, congrArg Link.bufferOverflow latched⟩

/-! ## The unknown command -/

/-- Settles O42: the flush is the first statement, and the status and the jump to FETCH are what is left. -/
theorem unknownCommandIsAnsweredWithItsStatus : Obligations.UnknownCommandIsAnsweredWithItsStatus := by
  intro s b q free
  have answered := (executes_sendByte_op (i := .statusUnknownCommand) (s := s.flushInput) (fun _ => rfl) free
    [.micro .toFetch]).trans (executes_toFetch _ [])
  exact ⟨_, rfl, rfl, answered.runs_quiet { q with }⟩

/-! ## Echo -/

/-- What is left of Echo from its checkpoint on (43_command_loop R202). -/
def echoChecked : List Stmt := [.op .validate, .micro .echoReply, .micro .toFetch]

/-- What is left of Echo after its first statement. -/
def echoStmts : List Stmt :=
  .micro (.armClamp (1 * Config.ticksPerByte)) :: .micro (.recvInto .echoByte) :: echoChecked

theorem exec_echo (s : State) : exec .echo s = .next (s.poised echoStmts s.schedule) := rfl

/-- 43_command_loop R202: Echo arms the window of one byte. -/
theorem executes_echoArmed (s : State) :
    Executes 2 s echoStmts (s.setTimer (.running (timeoutTicks 1))) (.micro (.recvInto .echoByte) :: echoChecked) :=
  executes_armClamp s 1 _

/-- 43_command_loop R202 step 4: with the checkpoint passed, the byte is sent. -/
theorem runStmt_echoReply_ok {s : State} (h : s.fg.ret = .ok) :
    runStmt (.micro .echoReply) s = .next (s.push [.op (.sendByte s.fg.echoByte)]) := by
  simp [runMicro, microEchoReply, h]

/-- With an error nothing is sent. -/
theorem runStmt_echoReply_err {s : State} {e : Err} (h : s.fg.ret = .err e) : runStmt (.micro .echoReply) s = .next s := by
  simp [runMicro, microEchoReply, h]

/-- From a checkpoint with no flag set on, the byte is sent back. -/
theorem executes_echoChecked {s : State} (owed : s.link.owed = 0) (clear : s.link.clear = true)
    (free : s.uart.txReg = none) :
    Executes 5 s echoChecked { (s.setTimer .idle).give .ok with uart.txReg := some s.fg.echoByte } [.op .fetch] :=
  have sent := executes_sendByte_op (i := .sendByte s.fg.echoByte) (s := (s.setTimer .idle).give .ok) (fun _ => rfl) free
    [.micro .toFetch]
  have replied : Executes 4 ((s.setTimer .idle).give .ok) [.micro .echoReply, .micro .toFetch] _ [.op .fetch] :=
    .push (ks := [.op (.sendByte s.fg.echoByte)]) (fun _ => runStmt_echoReply_ok rfl) (sent.trans (executes_toFetch _ []))
  (executes_validate_clear owed clear _).trans replied

/-- Settles O39: the byte waiting is taken within the window, passes the checkpoint and is sent. -/
theorem echoSendsTheByteBack : Obligations.EchoSendsTheByteBack := by
  intro s b q fifo free clear skipNext owed
  have armed := executes_echoArmed s
  have taken := (reception_recvInto s.blk.lb .echoByte).takes_clean (s := s.setTimer (.running (timeoutTicks 1))) rfl fifo
    (by simp) skipNext owed echoChecked
  have replied := executes_echoChecked (s := ((s.setTimer (.running (timeoutTicks 1))).popRx []).store .echoByte b) owed
    clear free
  exact ⟨_, _, exec_echo s, armed.runs_quiet q, rfl, (armed.trans (taken.trans replied)).runs_quiet q⟩

/-- Echo, begun in `s`, has ended in `u` with status `c` as the one byte sent: nothing is left waiting, the flags are clear, the
timer idle, and memory, the bus and the environment are untouched (43_command_loop R202). -/
def EchoReported (s u : State) (c : Byte) : Prop :=
  u.uart.txReg = some c ∧ u.uart.rxFifo = [] ∧ u.link.clear = true ∧ u.link.timer = .idle ∧ u.fg.pc = [.op .fetch] ∧
    u.mem = s.mem ∧ u.bus = s.bus ∧ u.trap = s.trap ∧ u.env = s.env

/-- An Echo that reaches its checkpoint with a flag set reports it and echoes nothing. -/
theorem echoReported_of_checkpoint {s t : State} {ms : List Move} {k : Nat} {e : Err} {c : Byte} (idle : s.trapIdle)
    (free : s.uart.txReg = none) (owed : s.link.owed = 0) (run : Runs k (s.poised echoStmts ms) (t.poised echoChecked []))
    (frame : ReceptionFrame s t)
    (report : FlagsReport t.link.frameError t.link.bufferOverflow t.link.timeout e c) :
    ∃ u, Runs (k + 9) (s.poised echoStmts ms) u ∧ EchoReported s u c := by
  have idleAfter := idle.of_trap_eq frame.trap
  obtain ⟨rfl, failed⟩ := (idleAfter.quiet_poised echoChecked).runs_failedCheckpoint (frame.txReg.trans free)
    (frame.owed.trans owed) rfl (fun _ _ => runStmt_echoReply_err) report
  have ended := (executes_toFetch ((t.reporting e).clearFlags.give (.err e)) []).runs_free idleAfter
  exact ⟨_, run.trans (failed.trans ended), rfl, rfl, rfl, rfl, rfl, frame.mem, frame.bus, frame.trap, frame.env⟩

/-- Settles O40: the byte's mark is latched beside the flags carried, and the checkpoint reports what it finds. -/
theorem echoReportsAMarkOrACarriedFlag : Obligations.EchoReportsAMarkOrACarriedFlag := by
  intro s b c fe ovf q fifo free skipNext owed flagged
  obtain ⟨e, report⟩ : ∃ e, FlagsReport (s.link.frameError || fe) (s.link.bufferOverflow || ovf) s.link.timeout e c := by
    rcases flagged with ⟨marked, rfl⟩ | ⟨carriedFe, noFe, marked, rfl⟩
    · exact ⟨_, .inl ⟨by simpa using marked, rfl, rfl⟩⟩
    · exact ⟨_, .inr (.inl ⟨by simp [carriedFe, noFe], by simpa using marked, rfl, rfl⟩)⟩
  have taken := (reception_recvInto s.blk.lb .echoByte).takes (s := s.setTimer (.running (timeoutTicks 1))) rfl fifo
    (by simp) echoChecked
  rw [latchMarks_of_no_skip (s := (s.setTimer (.running (timeoutTicks 1))).popRx []) skipNext owed] at taken
  have run := ((executes_echoArmed s).trans taken).runs_free q.trapIdle
  obtain ⟨u, reported, effect⟩ := echoReported_of_checkpoint q.trapIdle free owed run
    ⟨rfl, rfl, rfl, rfl, rfl, rfl, rfl, rfl, rfl, rfl⟩ report
  exact ⟨_, u, exec_echo s, q.schedule ▸ reported, effect⟩

/-! ### The silent host -/

/-- In the next `n` steps from `s`, and before them, the state satisfies `P`. -/
def KeepsFor (P : State → Prop) (n : Nat) (s : State) : Prop := ∀ k ≤ n, ∃ v, Runs k s v ∧ P v

theorem KeepsFor.zero {P : State → Prop} {s : State} (h : P s) : KeepsFor P 0 s := by
  intro k hk
  obtain rfl := Nat.le_zero.1 hk
  exact ⟨s, (runs_zero _ _).2 rfl, h⟩

theorem KeepsFor.cons {P : State → Prop} {n : Nat} {s t : State} (h : P s) (first : Runs 1 s t) (later : KeepsFor P n t) :
    KeepsFor P (n + 1) s := by
  rintro (_ | k) hk
  · exact ⟨s, (runs_zero _ _).2 rfl, h⟩
  · obtain ⟨v, run, hv⟩ := later k (Nat.le_of_succ_le_succ hk)
    exact ⟨v, Nat.add_comm 1 k ▸ first.trans run, hv⟩

/-- What depends neither on the timer nor on what is to be executed or scheduled is kept while the timer counts down. -/
theorem Reception.keepsFor_testedTicks {lb : Byte} {st : Stmt} {put : State → Byte → State} {next : List Stmt} {s : State}
    (h : Reception lb st put next) (hlb : s.blk.lb = lb) (fifo : s.uart.rxFifo = []) (idle : s.trapIdle)
    {P : State → Prop} (kept : ∀ t pc ms, P ((s.setTimer t).poised pc ms)) (n : Nat) (rest : List Stmt) (ms : List Move) :
    KeepsFor P (2 * n) ((s.setTimer (.running n)).poised (st :: rest) (testedTicks n ++ ms)) := by
  induction n with
  | zero => exact .zero (kept _ _ _)
  | succ n ih =>
    have waited := (h.waits (s := s.setTimer (.running (n + 1))) hlb fifo (by simp) rest).runs_scheduled idle
      (.tick :: (testedTicks n ++ ms))
    have ticked : Runs 1 ((s.setTimer (.running (n + 1))).poised (st :: rest) (.tick :: (testedTicks n ++ ms)))
        ((s.setTimer (Timer.running (n + 1)).tick).poised (st :: rest) (testedTicks n ++ ms)) :=
      .cons (step_tick rfl) ((runs_zero _ _).2 rfl)
    refine .cons (kept _ _ _) waited (.cons (kept _ _ _) ticked ?_)
    cases n with
    | zero => exact .zero (kept _ _ _)
    | succ n =>
      rw [Timer.tick_running]
      exact ih

/-- Nothing has timed out and nothing has been sent since the host's wire held `wire`. -/
def Unanswered (wire : List Byte) (v : State) : Prop :=
  v.link.timeout = false ∧ v.uart.txReg = none ∧ v.env.txWire = wire

/-- Settles O41: the window's ticks expire the timer, which the next test finds and the checkpoint reports; before that test
nothing but the timer and the position has changed. -/
theorem echoTimesOutAfterItsWindow : Obligations.EchoTimesOutAfterItsWindow := by
  intro s sched serial free
  have idle := sched.trapIdle
  have reception := reception_recvInto s.blk.lb .echoByte
  obtain ⟨-, -, noTimeout⟩ := (Link.clear_iff _).1 serial.flags
  have started : exec .echo s =
      .next (s.poised echoStmts (controllerMoves 2 ++ (testedTicks (timeoutTicks 1) ++ []))) := by
    rw [List.append_nil, ← sched.schedule]
    rfl
  have kept (t : Timer) (pc : List Stmt) (ms : List Move) : Unanswered s.env.txWire ((s.setTimer t).poised pc ms) :=
    ⟨noTimeout, free, rfl⟩
  refine ⟨_, started, ?silent, ?reported⟩
  case silent =>
    have ticked := reception.keepsFor_testedTicks (s := s) rfl serial.fifo idle kept (timeoutTicks 1) echoChecked []
    have clamped : Executes 1 s echoStmts s
        (.op (.timer (.arm (timeoutTicks 1))) :: .micro (.recvInto .echoByte) :: echoChecked) :=
      .push (fun _ => rfl) (.done _ _)
    have armed : Executes 1 s (.op (.timer (.arm (timeoutTicks 1))) :: .micro (.recvInto .echoByte) :: echoChecked)
        (s.setTimer (.running (timeoutTicks 1))) (.micro (.recvInto .echoByte) :: echoChecked) := .one (fun _ => rfl) rfl
    exact KeepsFor.cons (kept s.link.timer _ _) (clamped.runs_scheduled idle _)
      (KeepsFor.cons (kept s.link.timer _ _) (armed.runs_scheduled idle _) ticked)
  case reported =>
    have armed := (executes_echoArmed s).runs_scheduled idle (testedTicks (timeoutTicks 1) ++ [])
    have ticked := reception.runs_testedTicks (s := s) rfl serial.fifo idle (one_le_timeoutTicks le_rfl) echoChecked []
    have expired := reception.expires (s := s.setTimer .expired) rfl serial.fifo rfl echoChecked
    have run := armed.trans (ticked.trans (expired.runs_free idle))
    rw [show 2 * timeoutTicks 1 + 12 = 2 + (2 * timeoutTicks 1 + 1) + 9 by omega]
    exact echoReported_of_checkpoint idle free serial.owed run ⟨rfl, rfl, rfl, rfl, rfl, rfl, rfl, rfl, rfl, rfl⟩
      (flagsReport_timeout (l := s.link) serial.flags)

end Sys2Proof.Machine
end

