-- ==== Sys2Proof/Proofs/UploadDownload.lean ====
section
/-! The statements of the family 43_command_loop about the two commands that move a block between the host and memory. -/

namespace Sys2Proof.Machine

/-- 42_bus_arbiter R170: as `runs_bracket`, with the controller's turns and the moves `ms` scheduled after the grant. -/
theorem TargetRuns.runs_bracket_scheduled {s u : State} {k : Nat} {body pc : List Stmt} (runs : TargetRuns s)
    (idle : s.trapIdle) (h : Executes k s.busGranted body u pc) (ms : List Move) :
    Runs (k + 2) ((s.setBusreq true).poised (.micro .awaitGrant :: body) (.grant :: (controllerMoves (k + 1) ++ ms)))
      (u.poised pc ms) := by
  have acquired := (executes_awaitGrant rfl body).trans h
  rw [Nat.add_comm 1 k] at acquired
  exact .cons (runs.step_grant _ _) (acquired.runs_scheduled (idle.of_trap_eq rfl) ms)

/-- Clearing flags that are clear only stops the timer. -/
theorem Link.clearFlags_of_clear {l : Link} (h : l.clear = true) :
    { l with frameError := false, bufferOverflow := false, timeout := false, timer := .idle } =
      { l with timer := .idle } := by
  obtain ⟨frameError, bufferOverflow, timeout⟩ := (Link.clear_iff l).1 h
  simp only [frameError, bufferOverflow, timeout]

/-! ## UploadToRam -/

/-- What is left of UploadToRam after its first statement (43_command_loop R203). -/
def uploadStmts : List Stmt := lengthStmts Config.uploadMaxLb ++ [.micro .uploadChecked]

theorem exec_uploadToRam (s : State) : exec .uploadToRam s = .next (s.poised uploadStmts s.schedule) := rfl

/-- A frame's moves begin with the two turns in which the window of its length byte is armed. -/
theorem frameMoves_eq (lb : Byte) (payload : List Byte) (ck : Byte) :
    frameMoves lb payload ck =
      controllerMoves 2 ++ (rxMoves [lb] ++ (controllerMoves 6 ++ rxMoves (payload ++ [ck]))) := by
  simp only [frameMoves, lengthMoves, List.append_assoc]

/-- 43_command_loop R203 step 1: UploadToRam arms the window of one byte. -/
theorem runs_uploadArmed {s : State} (idle : s.trapIdle) (lb : Byte) (payload : List Byte) (ck : Byte) (ms : List Move) :
    ∃ pc ms', Runs 2 (s.poised uploadStmts (frameMoves lb payload ck ++ ms))
      ((s.setTimer (.running (timeoutTicks 1))).poised pc ms') := by
  rw [frameMoves_eq, List.append_assoc]
  exact ⟨_, _, (executes_armClamp s 1 _).runs_scheduled idle _⟩

/-- 43_command_loop R203 step 2: any error skips the injection. -/
theorem runStmt_uploadChecked_err {s : State} {e : Err} (h : s.fg.ret = .err e) :
    runStmt (.micro .uploadChecked) s = .next (s.goto [.op .fetch]) := by
  simp [runMicro, microUploadChecked, h]

/-- With a length received, step 3 follows. -/
theorem runStmt_uploadChecked_okLen {s : State} {n : Nat} (h : s.fg.ret = .okLen n) :
    runStmt (.micro .uploadChecked) s = .next (s.push [.micro .uploadLength]) := by
  simp [runMicro, microUploadChecked, h]

/-- What step 4's bus bracket holds, and the statements after it. -/
def uploadBody (payload : List Byte) : List Stmt :=
  [.op (.inject .raw 0 payload), .micro (.injectRelease false), .op .statusOk, .micro .toFetch]

/-- 43_command_loop R203 steps 2 to 4, up to the request for the bus. -/
theorem executes_uploadChecked {s : State} {n : Nat} (h : s.fg.ret = .okLen n) :
    Executes 3 s [.micro .uploadChecked] (s.setBusreq true) (.micro .awaitGrant :: uploadBody s.payload) := by
  have requested : Executes 1 s [.micro (.uploadInject s.payloadLen), .op .statusOk, .micro .toFetch] (s.setBusreq true)
      (.micro .awaitGrant :: uploadBody s.payload) := .one (fun _ => rfl) rfl
  exact .push (ks := [.micro .uploadLength]) (fun ms => runStmt_uploadChecked_okLen (s := s.poised [] ms) h)
    (.push (ks := [.micro (.uploadInject s.payloadLen), .op .statusOk, .micro .toFetch]) (fun _ => rfl) requested)

/-- The payload has been written from address 0 within one bus bracket, and Ok is sent. -/
def State.uploaded (s : State) (payload : List Byte) : State :=
  { (s.busGranted.injectedAt 0 payload).setBusreq false with uart.txReg := some 0 }

/-- 43_command_loop R203 steps 4 to 6, by the owner of the bus. -/
theorem executes_uploadBody {s : State} (free : s.uart.txReg = none) {payload : List Byte} (nonempty : payload ≠ []) :
    Executes (payload.length + 5) s.busGranted (uploadBody payload) (s.uploaded payload) [.op .fetch] := by
  have writes := executes_injectRaw s.owner_busGranted 0 nonempty
    [.micro (.injectRelease false), .op .statusOk, .micro .toFetch]
  have release := executes_injectRelease (s := s.busGranted.injectedAt 0 payload) rfl false [.op .statusOk, .micro .toFetch]
  have reported := executes_sendByte_op (i := .statusOk) (s := (s.busGranted.injectedAt 0 payload).setBusreq false)
    (fun _ => rfl) free [.micro .toFetch]
  exact writes.trans (release.trans (reported.trans (executes_toFetch _ [])))

/-- `receive_block` has accepted the payload (41_block_transfer R150). -/
def State.frameAccepted (s : State) (lb : Byte) (payload : List Byte) : State :=
  (s.frameChecked lb payload (xorFold payload)).give (.okLen (lb.toNat + 1))

theorem State.frameAccepted_payload (s : State) {lb : Byte} {payload : List Byte} (h : payload.length = lb.toNat + 1) :
    (s.frameAccepted lb payload).payload = payload := (s.frameChecked_payload h _).1

/-- 43_command_loop R203 for a good frame: it is received and its payload is written within one bus bracket. -/
theorem runs_upload {s : State} {lb : Byte} {payload : List Byte} (idle : s.trapIdle) (runs : TargetRuns s)
    (serial : s.SerialIdle) (free : s.uart.txReg = none) (hlb : lb ≤ Config.uploadMaxLb)
    (hlen : payload.length = lb.toNat + 1) :
    Runs (4 * lb.toNat + 33)
      (s.poised uploadStmts (frameMoves lb payload (xorFold payload) ++ (controllerMoves 8 ++ [.grant])))
      (((s.frameAccepted lb payload).uploaded payload).poised [.op .fetch] []) := by
  have nonempty : payload ≠ [] := List.ne_nil_of_length_eq_add_one hlen
  have received := runs_frameMoves (ck := xorFold payload) idle serial hlb hlen [.micro .uploadChecked]
    (controllerMoves 8 ++ [.grant])
  have checked := executes_uploadChecked (s := s.frameAccepted lb payload) rfl
  rw [s.frameAccepted_payload hlen] at checked
  have accepted := (executes_frameReceived (ck := xorFold payload) serial hlen [.micro .uploadChecked]).trans
    ((executes_accepted rfl _).trans checked)
  have written := TargetRuns.runs_bracket (s := s.frameAccepted lb payload) runs (idle.of_trap_eq rfl)
    (executes_uploadBody (s := s.frameAccepted lb payload) free nonempty)
  rw [show 4 * lb.toNat + 33 = 3 * lb.toNat + 17 + (8 + (payload.length + 5 + 2)) by omega]
  exact received.trans ((accepted.runs_scheduled (idle.of_trap_eq rfl) [.grant]).trans written)

/-- 43_command_loop R203: a reception that fails with `e` leaves the state as `receive_block` left it, at FETCH. -/
theorem runs_upload_failed {s : State} {k : Nat} {e : Err} {c : Byte} (idle : s.trapIdle)
    (h : ReceiveBlockFails (s.goto [.micro .uploadChecked]) Config.uploadMaxLb k e c) :
    ∃ u : State, Runs (k + 1) (s.poised uploadStmts s.schedule) (u.goto [.op .fetch]) ∧
      u.uart = { rxFifo := [], rxLost := false, txReg := some c } ∧
      u.link = { s.link with frameError := false, bufferOverflow := false, timeout := false, timer := .idle } ∧
      u.img = s.img ∧ u.bus = s.bus ∧ u.bank = s.bank ∧ u.port1 = s.port1 ∧ u.trap = s.trap ∧ u.env = s.env ∧
      u.mem = s.mem ∧ u.schedule = [] := by
  obtain ⟨u, ⟨t, first, run, hpc⟩, ret, uart, link, img, bus, bank, port1, trap, env, mem, schedule⟩ := h
  cases first
  have idleAfter : u.trapIdle := idle.of_trap_eq trap
  have quiet : u.Quiet := ⟨schedule, idleAfter.1, idleAfter.2⟩
  have skipped : Runs 1 u (u.goto [.op .fetch]) :=
    quiet.runs_stmt hpc (runStmt_uploadChecked_err (s := u.goto []) ret) ((runs_zero _ _).2 rfl)
  exact ⟨u, run.trans skipped, uart, link, img, bus, bank, port1, trap, env, mem, schedule⟩

/-- Settles O43: a frame accepted is injected, and an error at step 2 leads to FETCH at once. -/
theorem uploadWritesItsPayloadAtZeroOrNothing : Obligations.UploadWritesItsPayloadAtZeroOrNothing := by
  intro s
  refine ⟨fun lb payload sched runs serial free hlb hlen => ?accepted,
    fun lb ck payload sched serial free hlb hlen wrong => ?refused, fun rest e q hpc ret => ?failed⟩
  case accepted =>
    have idle := sched.trapIdle
    rw [List.append_assoc] at sched
    obtain ⟨pc, ms, armed⟩ := runs_uploadArmed idle lb payload (xorFold payload) (controllerMoves 8 ++ [.grant])
    exact ⟨_, _, _, by rw [exec_uploadToRam, sched.schedule], armed, rfl, runs_upload idle runs serial free hlb hlen, rfl, rfl,
      rfl, rfl, rfl, rfl, rfl, rfl, rfl, rfl, rfl⟩
  case refused =>
    have fails := receiveBlockFails_checksum (s := s.goto [.micro .uploadChecked]) { sched with } { serial with } hlb hlen
      wrong free
    obtain ⟨u, run, uart, link, img, bus, bank, port1, trap, env, mem, schedule⟩ := runs_upload_failed sched.trapIdle fails
    refine ⟨_, _, exec_uploadToRam s, run, rfl, mem, ?uart, bus, ?link, img, bank, port1, trap, env, schedule⟩
    case uart => rw [State.goto_uart, uart, ← serial.fifo, ← serial.lost]
    case link => exact link.trans (Link.clearFlags_of_clear serial.flags)
  case failed =>
    rw [q.step_eq_runStmt hpc, runStmt_uploadChecked_err (s := s.goto rest) ret]
    rfl

/-! ## DownloadFromRam -/

/-- What the bus bracket of DownloadFromRam holds, and the statements after it (43_command_loop R204). -/
def downloadBody : List Stmt :=
  [.micro (.readRegion 0 Config.regionLen), .op .releaseBus, .micro .downloadSend, .micro .toFetch]

theorem exec_downloadFromRam (s : State) :
    exec .downloadFromRam s = .next ((s.setBusreq true).poised (.micro .awaitGrant :: downloadBody) s.schedule) := rfl

/-- The 16 bytes at addresses 0 to 15 of the visible bank. -/
def State.region (s : State) : List Byte := regionBytes s.bank.visibleBank s.mem 0 Config.regionLen

theorem State.region_length (s : State) : s.region.length = 16 := regionBytes_length _ _ _ _

/-- The region is in the buffer, and the bus is released. -/
def State.regionHeld (s : State) : State :=
  { s with
    blk.buf := bufStore s.blk.buf s.region, bus := { s.busGranted.bus.released 15 with busreq := false } }

theorem State.regionHeld_trap (s : State) : s.regionHeld.trap = s.trap := by
  simp only [State.regionHeld]

/-- The owner's 16 reads and the release as one update. -/
theorem State.regionRead_setBusreq (s : State) : (s.busGranted.regionRead 16).setBusreq false = s.regionHeld := by
  rw [State.regionRead_succ _ (by decide)]
  rfl

/-- The front of the buffer is the region. -/
theorem State.regionHeld_bufBytes (s : State) : s.regionHeld.bufBytes Config.regionLen = s.region := by
  have stored := bufStore_toList s.blk.buf (bytes := s.region) (by rw [s.region_length]; decide)
  exact (congrArg (List.take 16) stored).trans (List.take_left' s.region_length)

/-- 43_command_loop R204 step 2: the frame of the region begins with its length byte. -/
theorem executes_downloadSend {s : State} (free : s.uart.txReg = none) (rest : List Stmt) :
    Executes 1 s (.micro .downloadSend :: rest) s
      (.micro (.txWrite (BitVec.ofNat 8 ((s.bufBytes Config.regionLen).length - 1))) ::
        .micro (.sendBlockZero (s.bufBytes Config.regionLen)) :: rest) :=
  executes_sendByte free fun _ => rfl

/-- 43_command_loop R204 up to the length byte of the frame, by the owner of the bus. -/
theorem executes_downloadBody {s : State} (free : s.uart.txReg = none) :
    Executes 18 s.busGranted downloadBody s.regionHeld
      [.micro (.txWrite (BitVec.ofNat 8 (s.region.length - 1))), .micro (.sendBlockZero s.region), .micro .toFetch] := by
  have reads : Executes 16 s.busGranted downloadBody (s.busGranted.regionRead 16) _ :=
    executes_readRegion s.owner_busGranted 0 15 [.op .releaseBus, .micro .downloadSend, .micro .toFetch]
  have released := executes_releaseBus (s.busGranted.regionRead 16) [.micro .downloadSend, .micro .toFetch]
  rw [State.regionRead_setBusreq] at released
  have begun := executes_downloadSend (s := s.regionHeld) free [.micro .toFetch]
  rw [State.regionHeld_bufBytes] at begun
  exact reads.trans (released.trans begun)

/-- 43_command_loop R204 steps 2 and 3, from the length byte on. -/
theorem runs_downloadSend {s : State} (idle : s.trapIdle) (free : s.uart.txReg = none) (bytes : List Byte) :
    Runs ((sendBlockMoves bytes.length).length + 1)
      (s.poised [.micro (.txWrite (BitVec.ofNat 8 (bytes.length - 1))), .micro (.sendBlockZero bytes), .micro .toFetch]
        (sendBlockMoves bytes.length))
      ((s.sent (frameOf bytes) (xorFold bytes)).poised [.op .fetch] []) := by
  have sent := runs_sendBlock idle free bytes [.micro .toFetch] []
  rw [List.append_nil] at sent
  exact sent.trans ((executes_toFetch (s.sent (frameOf bytes) (xorFold bytes)) []).runs_free idle)

/-- Settles O44: the bracket holds the 16 reads, and the frame of the region is sent after it. -/
theorem downloadSendsTheRegion : Obligations.DownloadSendsTheRegion := by
  intro s sched runs free
  have idle := sched.trapIdle
  have started : exec .downloadFromRam s = .next ((s.setBusreq true).poised (.micro .awaitGrant :: downloadBody)
      (.grant :: (controllerMoves 19 ++ sendBlockMoves s.region.length))) := by
    rw [exec_downloadFromRam, sched.schedule, s.region_length]
    rfl
  have read := runs.runs_bracket_scheduled idle (executes_downloadBody free) (sendBlockMoves s.region.length)
  have run := read.trans (runs_downloadSend (idle.of_trap_eq s.regionHeld_trap) free s.region)
  rw [← Nat.add_assoc, Nat.add_right_comm, s.region_length] at run
  have frameLength : (frameOf s.region).length = 18 := by simp [frameOf, s.region_length]
  refine ⟨_, _, started, rfl, run, rfl, List.length_append.trans (congrArg _ frameLength), rfl, rfl, ?mem, ?link, ?img,
    ?bank, ?port1, ?trap, ?uart, rfl⟩
  all_goals simp only [State.poised, State.sent, State.regionHeld]

end Sys2Proof.Machine
end

