-- ==== Sys2Proof/Proofs/LoadBinary.lean ====
section
/-! The statements of the family 43_command_loop about LoadBinary: its steps up to the load protocol, and its two endings. -/

namespace Sys2Proof.Machine

/-! ## The target under reset -/

/-- A turn of the controller: the moves before it and after it. With nothing scheduled every step is one. -/
inductive Turn : List Move → List Move → Prop
  | scheduled (ms : List Move) : Turn (.controller :: ms) ms
  | free : Turn [] []

/-- At the controller's turn the first statement is executed. -/
theorem State.trapIdle.step_turn {s : State} (idle : s.trapIdle) {ms ms' : List Move} (turn : Turn ms ms') (st : Stmt)
    (rest : List Stmt) : step (s.poised (st :: rest) ms) = runStmt st (s.poised rest ms') := by
  cases turn with
  | scheduled => exact idle.step_controller st rest ms'
  | free => exact idle.step_free st rest

/-- 60_exceptions R324: a target held in reset has no request pending, so the trap stays idle. -/
theorem State.trapIdle.holdTarget {s : State} (idle : s.trapIdle) : s.holdTarget.trapIdle := ⟨idle.1, .inr rfl⟩

/-- The target is held with its clock stopped and the trap disabled (43_command_loop R206 steps 1 to 3). -/
def State.targetHeld (s : State) : State := ((s.setClock false).holdTarget).setTrapEnable false

theorem State.trapIdle.targetHeld {s : State} (idle : s.trapIdle) : s.targetHeld.trapIdle := ⟨idle.1, .inl rfl⟩

/-- 10_state R28: the controller owns the bus of a target held in reset, without a handshake. -/
theorem State.owner_targetHeld (s : State) : s.targetHeld.owner = .controllerOwned :=
  (owner_controller_iff _).2 (.inl rfl)

/-- What follows the bootstrap in LoadBinary (43_command_loop R206 steps 7 to 9). -/
def loadStmts : List Stmt := [.op .loadProtocol, .micro .loadResult, .micro .toFetch]

/-- What is left of LoadBinary once the target is held. -/
def bootstrapStmts : List Stmt :=
  .op (.inject .raw 0 Config.bootstrap) :: .micro .releaseReset :: .micro .startClock :: loadStmts

theorem exec_loadBinary (s : State) :
    exec .loadBinary s =
      .next ((s.setClock false).poised (.micro .assertReset :: .micro .disableTrap :: bootstrapStmts) s.schedule) := rfl

/-- 43_command_loop R206 steps 2 and 3, in two turns of the controller. -/
theorem runs_targetHeld {s : State} (idle : s.trapIdle) {ms ms₁ ms₂ : List Move} (first : Turn ms ms₁)
    (second : Turn ms₁ ms₂) (rest : List Stmt) :
    Runs 2 ((s.setClock false).poised (.micro .assertReset :: .micro .disableTrap :: rest) ms)
      (s.targetHeld.poised rest ms₂) := by
  have stopped : (s.setClock false).trapIdle := idle
  exact .cons (stopped.step_turn first _ _) (.cons (stopped.holdTarget.step_turn second _ _) ((runs_zero _ _).2 rfl))

/-- The bootstrap is in memory, and the target is released and clocked (43_command_loop R206 steps 4 to 6). -/
def State.bootstrapped (s : State) : State :=
  ((s.targetHeld.injectedAt 0 Config.bootstrap).freeTarget).setClock true

/-- SerialLink and the UART have no part in it. -/
theorem State.bootstrapped_link (s : State) : s.bootstrapped.link = s.link := by
  simp [State.bootstrapped, State.targetHeld, State.injectedAt]

theorem State.bootstrapped_uart (s : State) : s.bootstrapped.uart = s.uart := by
  simp [State.bootstrapped, State.targetHeld, State.injectedAt]

theorem State.trapIdle.bootstrapped {s : State} (idle : s.trapIdle) : s.bootstrapped.trapIdle := ⟨idle.1, .inl rfl⟩

/-- 43_command_loop R206 steps 4 to 6. -/
theorem executes_bootstrap (s : State) :
    Executes (Config.bootstrap.length + 2) s.targetHeld bootstrapStmts s.bootstrapped loadStmts := by
  have written := executes_injectRaw s.owner_targetHeld 0 (List.cons_ne_nil Config.bootFirst Config.bootRest)
    (.micro .releaseReset :: .micro .startClock :: loadStmts)
  have released : Executes 1 (s.targetHeld.injectedAt 0 Config.bootstrap)
      (.micro .releaseReset :: .micro .startClock :: loadStmts)
      (s.targetHeld.injectedAt 0 Config.bootstrap).freeTarget (.micro .startClock :: loadStmts) := .one (fun _ => rfl) rfl
  have clocked : Executes 1 (s.targetHeld.injectedAt 0 Config.bootstrap).freeTarget (.micro .startClock :: loadStmts)
      s.bootstrapped loadStmts := .one (fun _ => rfl) rfl
  exact written.trans (released.trans clocked)

/-- 43_command_loop R206 steps 2 to 6, with the controller's turns scheduled. -/
theorem runs_bootstrap_scheduled {s : State} (idle : s.trapIdle) (ms : List Move) :
    Runs (Config.bootstrap.length + 4)
      ((s.setClock false).poised (.micro .assertReset :: .micro .disableTrap :: bootstrapStmts)
        (controllerMoves (Config.bootstrap.length + 4) ++ ms)) (s.bootstrapped.poised loadStmts ms) := by
  have held := runs_targetHeld idle (.scheduled (.controller :: (controllerMoves (Config.bootstrap.length + 2) ++ ms)))
    (.scheduled _) bootstrapStmts
  have run := held.trans ((executes_bootstrap s).runs_scheduled idle.targetHeld ms)
  rwa [Nat.add_comm 2] at run

/-- Settles O46: the target is held, and the owner by reset writes the bootstrap and lets the target go. -/
theorem loadBinaryInjectsTheBootstrapUnderReset : Obligations.LoadBinaryInjectsTheBootstrapUnderReset := by
  intro s q
  have idle := q.trapIdle
  have held := runs_targetHeld idle .free .free bootstrapStmts
  have run := held.trans ((executes_bootstrap s).runs_free idle.targetHeld)
  rw [show 2 + (Config.bootstrap.length + 2) = 4 + Config.bootstrap.length by omega] at run
  refine ⟨_, _, exec_loadBinary s, rfl, q.schedule ▸ run, ?_⟩
  simp [State.poised, State.bootstrapped, State.targetHeld, State.injectedAt, Bus.released, loadStmts]

/-! ## The endings -/

/-- LoadBinary has failed: the clock is stopped and the target held in reset (43_command_loop R207). -/
def State.loadFailed (s : State) : State := (s.setClock false).holdTarget

/-- LoadBinary has succeeded: the trap is enabled and the bus released (43_command_loop R208). -/
def State.loadSucceeded (s : State) : State := (s.setTrapEnable true).setBusreq false

/-- 43_command_loop R207. -/
theorem completes_loadFailure {s : State} (q : s.Quiet) : Completes .loadFailure s 1 s.loadFailed :=
  have stopped : ((s.setClock false).push [.micro .assertReset]).Quiet := { q with }
  ⟨_, rfl, stopped.runs_stmt rfl rfl ((runs_zero _ _).2 rfl), rfl⟩

/-- 43_command_loop R208, with no request pending. -/
theorem completes_loadSuccess {s : State} (q : s.Quiet) (pending : s.trap.pending = false) :
    Completes .loadSuccess s 1 s.loadSucceeded :=
  have enabled : ((s.setTrapEnable true).push [.op .releaseBus]).Quiet := ⟨q.schedule, q.notInTrap, .inr pending⟩
  ⟨_, rfl, enabled.runs_stmt rfl rfl ((runs_zero _ _).2 rfl), rfl⟩

/-- 60_exceptions R300: with nothing scheduled the trap is entered where it may be. -/
theorem step_enters {s : State} (schedule : s.schedule = []) (ready : s.trapReady = true) :
    step s = exec .ioTrapDispatcher s := by
  have notInTrap : s.trap.inTrap = false := by
    simp only [State.trapReady, Bool.and_eq_true, Bool.not_eq_true'] at ready
    exact ready.2
  rw [step_nil schedule, controllerStep, if_neg (by simp [notInTrap]), if_pos ready]

/-- 43_command_loop R206 step 8: only `Done` leads to the success ending. -/
theorem runStmt_loadResult_done {s : State} (h : s.fg.ret = .done) :
    runStmt (.micro .loadResult) s = .next (s.push [.op .loadSuccess]) := by
  simp [runMicro, microLoadResult, h]

theorem runStmt_loadResult_aborted {s : State} (h : s.fg.ret = .aborted) :
    runStmt (.micro .loadResult) s = .next (s.push [.op .loadFailure]) := by
  simp [runMicro, microLoadResult, h]

/-- `Aborted` leads to the failure ending. -/
theorem State.Quiet.runs_loadResult_aborted {s : State} {rest : List Stmt} (q : s.Quiet)
    (hpc : s.fg.pc = .micro .loadResult :: rest) (ret : s.fg.ret = .aborted) : Runs 3 s (s.loadFailed.goto rest) :=
  have ended := ((q.goto rest).push _).runs_call rfl (completes_loadFailure (q.goto rest)) ((runs_zero _ _).2 rfl)
  q.runs_stmt hpc (runStmt_loadResult_aborted (s := s.goto rest) ret) ended

/-- `Done` leads to the success ending. -/
theorem State.Quiet.runs_loadResult_done {s : State} {rest : List Stmt} (q : s.Quiet)
    (hpc : s.fg.pc = .micro .loadResult :: rest) (ret : s.fg.ret = .done) (pending : s.trap.pending = false) :
    Runs 3 s (s.loadSucceeded.goto rest) :=
  have ended := ((q.goto rest).push _).runs_call rfl (completes_loadSuccess (q.goto rest) pending) ((runs_zero _ _).2 rfl)
  q.runs_stmt hpc (runStmt_loadResult_done (s := s.goto rest) ret) ended

/-! ## A load whose host is silent -/

/-- What is left of the load protocol from the checkpoint of the size on (44_load_protocol R230). -/
def sizeChecked : List Stmt := [.op .validate, .micro .sizeChecked]

/-- The size is awaited: the timer runs for its two bytes. -/
def State.sizeAwaited (s : State) : State :=
  (s.setLoadState .awaitSize).setTimer (.running (timeoutTicks 2))

/-- 44_load_protocol R230 steps 1 and 2. -/
theorem executes_loadProtocol (s : State) (rest : List Stmt) :
    Executes 4 s (.op .loadProtocol :: rest) s.sizeAwaited
      (.micro (.recvInto .sizeHi) :: .micro (.recvInto .sizeLo) :: sizeChecked ++ rest) :=
  .stmt (t := s.setLoadState .awaitSize) (fun _ => rfl) rfl (executes_armTimeout (s.setLoadState .awaitSize) 2 _)

/-- 44_load_protocol R230 step 5: an error aborts the load. -/
theorem runStmt_sizeChecked_err {s : State} {e : Err} (h : s.fg.ret = .err e) :
    runStmt (.micro .sizeChecked) s = .next s.abortLoad := by
  simp [runMicro, microSizeChecked, h]

/-- The host sent nothing: both size bytes are free bytes, and the flag is set. -/
def State.sizeTimedOut (s : State) (hi lo : Byte) : State :=
  { s with link.timeout := true, link.timer := .expired, fg.sizeHi := hi, fg.sizeLo := lo, freeCount := s.freeCount + 2 }

/-- 44_load_protocol R230 steps 3 and 4 with the timer expired. -/
theorem executes_silentSize {s : State} (fifo : s.uart.rxFifo = []) (rest : List Stmt) :
    ∃ hi lo, Executes 2 (s.setTimer .expired) (.micro (.recvInto .sizeHi) :: .micro (.recvInto .sizeLo) :: rest)
      (s.sizeTimedOut hi lo) rest := by
  have high := (reception_recvInto s.blk.lb .sizeHi).expires (s := s.setTimer .expired) rfl fifo rfl
    (.micro (.recvInto .sizeLo) :: rest)
  have low := (reception_recvInto s.blk.lb .sizeLo).expires
    (s := (s.setTimer .expired).setTimeout.drawn.store .sizeHi (Config.freeByte s.freeCount)) rfl fifo rfl rest
  exact ⟨_, _, high.trans low⟩

/-- The load is aborted with Timeout reported, and the target held. -/
def State.loadTimedOut (s : State) : State :=
  ((s.reporting .timeout).clearFlags.give (.err .timeout)).abortLoad.loadFailed

/-- From the checkpoint of the size, with Timeout to report, LoadBinary ends. -/
theorem State.Quiet.runs_sizeTimedOut {s : State} (q : s.Quiet) (free : s.uart.txReg = none) (owed : s.link.owed = 0)
    (hpc : s.fg.pc = sizeChecked ++ [.micro .loadResult, .micro .toFetch])
    (report : FlagsReport s.link.frameError s.link.bufferOverflow s.link.timeout .timeout 1) :
    Runs 12 s (s.loadTimedOut.goto [.op .fetch]) := by
  obtain ⟨flagged, chosen, -⟩ := report.choose
  have checkpoint := completes_validate_flagged
    (q.goto [.micro .sizeChecked, .micro .loadResult, .micro .toFetch]) free (skippedLate_none owed) flagged
  rw [State.goto_link, chosen] at checkpoint
  have reported : ((s.reporting .timeout).clearFlags.give (.err .timeout)).Quiet := { q with }
  have aborted : ((s.reporting .timeout).clearFlags.give (.err .timeout)).abortLoad.Quiet := { q with }
  have failed : s.loadTimedOut.Quiet := ⟨q.schedule, q.notInTrap, .inr rfl⟩
  have ended : Runs 1 (s.loadTimedOut.goto [.micro .toFetch]) (s.loadTimedOut.goto [.op .fetch]) :=
    (failed.goto _).runs_stmt rfl rfl ((runs_zero _ _).2 rfl)
  have result := (aborted.goto [.micro .loadResult, .micro .toFetch]).runs_loadResult_aborted rfl rfl
  have checked := (reported.goto [.micro .sizeChecked, .micro .loadResult, .micro .toFetch]).runs_stmt rfl
    (runStmt_sizeChecked_err rfl) (result.trans ended)
  exact q.runs_call hpc checkpoint checked

/-- What a load whose host is silent at the size leaves: both size bytes are free bytes, and Timeout is reported. -/
def State.silentLoad (s : State) (hi lo : Byte) : State := ((s.setLoadState .awaitSize).sizeTimedOut hi lo).loadTimedOut

/-- 44_load_protocol R230 with a host silent for the window of the size, and LoadBinary's end. -/
theorem runs_silentLoad {s : State} (idle : s.trapIdle) (fifo : s.uart.rxFifo = []) (free : s.uart.txReg = none)
    (owed : s.link.owed = 0) (clear : s.link.clear = true) :
    ∃ hi lo, Runs (2 * timeoutTicks 2 + 18) (s.poised loadStmts (controllerMoves 4 ++ (testedTicks (timeoutTicks 2) ++ [])))
      ((s.silentLoad hi lo).poised [.op .fetch] []) := by
  have awaited := (executes_loadProtocol s [.micro .loadResult, .micro .toFetch]).runs_scheduled idle
    (testedTicks (timeoutTicks 2) ++ [])
  have ticked := (reception_recvInto s.blk.lb .sizeHi).runs_testedTicks (s := s.setLoadState .awaitSize) rfl fifo idle
    (one_le_timeoutTicks (n := 2) (by decide))
    (.micro (.recvInto .sizeLo) :: sizeChecked ++ [.micro .loadResult, .micro .toFetch]) []
  obtain ⟨hi, lo, silent⟩ := executes_silentSize (s := s.setLoadState .awaitSize) fifo
    (sizeChecked ++ [.micro .loadResult, .micro .toFetch])
  have expired : ((s.setLoadState .awaitSize).sizeTimedOut hi lo).trapIdle := idle
  have ended := (expired.quiet_poised (sizeChecked ++ [.micro .loadResult, .micro .toFetch])).runs_sizeTimedOut free owed rfl
    (flagsReport_timeout (l := s.link) clear)
  rw [show 2 * timeoutTicks 2 + 18 = 4 + (2 * timeoutTicks 2 + (2 + 12)) by omega]
  exact ⟨hi, lo, awaited.trans (ticked.trans ((silent.runs_free idle).trans ended))⟩

/-- What such a LoadBinary leaves of its memory, lines, registers and byte sent. -/
theorem State.silentLoad_bootstrapped (s : State) (hi lo : Byte) (clear : s.link.clear = true) :
    (s.bootstrapped.silentLoad hi lo).link = { s.link with timer := .idle } ∧
      (s.bootstrapped.silentLoad hi lo).uart = { rxFifo := [], rxLost := false, txReg := some 1 } ∧
      (s.bootstrapped.silentLoad hi lo).img.loadState = .aborted ∧
      (s.bootstrapped.silentLoad hi lo).mem = injected s.bank.visibleBank s.mem 0 Config.bootstrap ∧
      (s.bootstrapped.silentLoad hi lo).bus.tgtReset = true ∧ (s.bootstrapped.silentLoad hi lo).bus.tgtClkRun = false ∧
      (s.bootstrapped.silentLoad hi lo).trap.enable = false ∧
      (s.bootstrapped.silentLoad hi lo).bus.busreq = s.bus.busreq := by
  rw [← Link.clearFlags_of_clear clear]
  simp [State.silentLoad, State.loadTimedOut, State.loadFailed, State.abortLoad, State.reporting, State.sizeTimedOut,
    State.bootstrapped, State.targetHeld, State.injectedAt, Bus.released, Err.code]

/-- Settles O45: each ending is two statements, and a silent host leads through the checkpoint of the size to the first. -/
theorem loadBinaryEndings : Obligations.LoadBinaryEndings := by
  refine ⟨fun s q => ⟨⟨_, completes_loadFailure q, rfl⟩, fun pending => ⟨_, completes_loadSuccess q pending, rfl⟩,
    fun pending => ⟨_, rfl, rfl, step_enters q.schedule ?ready⟩, fun rest hpc ret => q.runs_loadResult_aborted hpc ret,
    fun rest hpc ret pending => q.runs_loadResult_done hpc ret pending⟩, fun s sched serial free => ?silent⟩
  case ready => simp [State.trapReady, pending, q.notInTrap]
  case silent =>
    have idle := sched.trapIdle
    obtain ⟨hi, lo, silent⟩ := runs_silentLoad idle.bootstrapped (by rw [s.bootstrapped_uart, serial.fifo])
      (by rw [s.bootstrapped_uart, free]) (by rw [s.bootstrapped_link, serial.owed])
      (by rw [s.bootstrapped_link, serial.flags])
    have run := (runs_bootstrap_scheduled idle _).trans silent
    have moves : s.schedule = controllerMoves (Config.bootstrap.length + 4) ++
        (controllerMoves 4 ++ (testedTicks (timeoutTicks 2) ++ [])) := by
      rw [sched.schedule, Nat.add_comm 8, List.append_nil, ← List.append_assoc]
      exact congrArg (· ++ _) (List.replicate_add (Config.bootstrap.length + 4) 4 Move.controller)
    rw [← moves, show Config.bootstrap.length + 4 + (2 * timeoutTicks 2 + 18) =
      Config.bootstrap.length + 2 * timeoutTicks 2 + 22 by omega] at run
    obtain ⟨link, uart, loadState, mem, reset, clock, enable, busreq⟩ := s.silentLoad_bootstrapped hi lo serial.flags
    refine ⟨_, _, exec_loadBinary s, run, rfl, uart.trans ?_, loadState, mem, reset, clock, enable, busreq, link, rfl⟩
    rw [← serial.fifo, ← serial.lost]

end Sys2Proof.Machine
end

