-- ==== Sys2Proof/Proofs/LoadProtocol.lean ====
section
/-! The statements of the family 44_load_protocol: the loop over the blocks, a block refused or accepted, the size and its
announcement, and the load of size 0. -/

namespace Sys2Proof.Machine

/-! ## The loop test and the failed phases -/

/-- The load protocol has returned `Done` (44_load_protocol R230 step 21). -/
def State.loadDone (s : State) : State := (s.setLoadState .done).give .done

/-- 44_load_protocol R233: the loop ends where nothing remains. -/
theorem runStmt_blocksLoop_of_eq {s : State} (h : s.img.remainingSize = 0) :
    runStmt (.micro .blocksLoop) s = .next (s.push [.micro .loadDone]) := if_pos h

/-- With something remaining the next block is received, any length byte admitted. -/
theorem runStmt_blocksLoop_of_ne {s : State} (h : s.img.remainingSize ≠ 0) :
    runStmt (.micro .blocksLoop) s = .next (s.push [.op (.receiveBlock 255), .micro .blockReceived]) := if_neg h

/-- 44_load_protocol R237: with nothing remaining the protocol ends. -/
theorem executes_blocksLoop_done {s : State} (h : s.img.remainingSize = 0) (rest : List Stmt) :
    Executes 2 s (.micro .blocksLoop :: rest) s.loadDone rest :=
  .push (ks := [.micro .loadDone]) (fun ms => runStmt_blocksLoop_of_eq (s := s.poised rest ms) h) (.one (fun _ => rfl) rfl)

/-- 44_load_protocol R230 step 13: an error of `receive_block` aborts the load. -/
theorem runStmt_blockReceived_err {s : State} {e : Err} (h : s.fg.ret = .err e) :
    runStmt (.micro .blockReceived) s = .next s.abortLoad := by
  simp [runMicro, microBlockReceived, h]

/-- With a block received its length is tested. -/
theorem runStmt_blockReceived_okLen {s : State} {n : Nat} (h : s.fg.ret = .okLen n) :
    runStmt (.micro .blockReceived) s = .next (s.push [.micro .requireLb]) := by
  simp [runMicro, microBlockReceived, h]

/-- Statements executed from the foreground position of a quiet state. -/
theorem Executes.runs_quiet_at {k : Nat} {s u : State} {pc pc' : List Stmt} (h : Executes k s pc u pc') (q : s.Quiet)
    (hpc : s.fg.pc = pc) : Runs k s (u.poised pc' s.schedule) := by
  have run := h.runs_quiet q
  rw [← hpc] at run
  exact run

/-- Settles O49: each test decides by the result or by what remains. -/
theorem loadProtocolTransitions : Obligations.LoadProtocolTransitions := by
  intro s rest q
  refine ⟨fun e hpc ret => ?failed, fun hpc nothing => ?done, fun hpc remains => ?next⟩
  case failed =>
    rcases hpc with hpc | hpc
    · rw [q.step_eq_runStmt hpc, runStmt_sizeChecked_err (s := s.goto rest) ret]
      rfl
    · rw [q.step_eq_runStmt hpc, runStmt_blockReceived_err (s := s.goto rest) ret]
      rfl
  case done => exact (executes_blocksLoop_done nothing rest).runs_quiet_at q hpc
  case next =>
    rw [q.step_eq_runStmt hpc, runStmt_blocksLoop_of_ne (s := s.goto rest) remains]
    rfl

/-! ## The length test of a block -/

/-- 44_load_protocol R234: no required length is cut off by the byte that holds it. -/
theorem requiredLb_toNat (remaining : Size) : (requiredLb remaining).toNat = min remaining.toNat 256 - 1 := by
  rw [requiredLb, BitVec.toNat_ofNat]
  omega

theorem eq_requiredLb_iff (lb : Byte) (remaining : Size) :
    lb = requiredLb remaining ↔ lb.toNat = min remaining.toNat 256 - 1 := by
  rw [BitVec.toNat_eq, requiredLb_toNat]

/-- 44_load_protocol R230 step 15: a block of the required length is taken. -/
theorem runStmt_checkLb_of_eq {s : State} {required : Byte} (h : s.blk.lb = required) :
    runStmt (.micro (.checkLb required)) s = .next (s.push [.micro .takeBlock]) := if_pos h

/-- Any other block is refused. -/
theorem runStmt_checkLb_of_ne {s : State} {required : Byte} (h : s.blk.lb ≠ required) :
    runStmt (.micro (.checkLb required)) s = .next (s.push [.op .statusInvalidSize, .micro .loadAbort]) := if_neg h

/-- 44_load_protocol R230 steps 13 and 14: a block received meets the test of its length. -/
theorem executes_blockReceived {s : State} {n : Nat} (ret : s.fg.ret = .okLen n) (rest : List Stmt) :
    Executes 2 s (.micro .blockReceived :: rest) s (.micro (.checkLb (requiredLb s.img.remainingSize)) :: rest) :=
  .push (ks := [.micro .requireLb]) (fun ms => runStmt_blockReceived_okLen (s := s.poised rest ms) ret)
    (.push (ks := [.micro (.checkLb (requiredLb s.img.remainingSize))]) (fun _ => rfl) (.done _ _))

/-- 44_load_protocol R234: a block of another length is answered with InvalidSize, and the protocol aborts. -/
theorem executes_wrongLength {s : State} (free : s.uart.txReg = none) {required : Byte} (h : s.blk.lb ≠ required)
    (rest : List Stmt) :
    Executes 4 s (.micro (.checkLb required) :: rest) (State.abortLoad { s with uart.txReg := some 2 }) rest :=
  have aborted : Executes 1 { s with uart.txReg := some 2 } (.micro .loadAbort :: rest)
      (State.abortLoad { s with uart.txReg := some 2 }) rest := .one (fun _ => rfl) rfl
  have reported := executes_sendByte_op (i := .statusInvalidSize) (fun _ => rfl) free (.micro .loadAbort :: rest)
  .push (ks := [.op .statusInvalidSize, .micro .loadAbort]) (fun ms => runStmt_checkLb_of_ne (s := s.poised rest ms) h)
    (reported.trans aborted)

/-- Settles O51: the length byte is not the required one, so the test of step 15 refuses the block. -/
theorem blockOfTheWrongLengthAborts : Obligations.BlockOfTheWrongLengthAborts := by
  intro s rest n q free hpc ret _ wrong
  have refused := executes_wrongLength free (mt (eq_requiredLb_iff _ _).1 wrong) rest
  exact ((executes_blockReceived ret rest).trans refused).runs_quiet_at q hpc

/-! ## A block accepted -/

/-- The block held is the last one: nothing remains after its payload (44_load_protocol R230 step 16). -/
def State.finalBlock (s : State) : Bool := decide (s.payloadLen = s.img.remainingSize.toNat)

theorem State.finalBlock_iff (s : State) :
    s.finalBlock = true ↔ s.blk.lb.toNat + 1 = s.img.remainingSize.toNat := decide_eq_true_iff

/-- What follows the injection of an accepted block (44_load_protocol R230 steps 18 to 20 and the loop). -/
def blockInjectedStmts (n : Nat) (rest : List Stmt) : List Stmt :=
  .micro (.advanceAddr n) :: .op .statusOk :: .micro (.reduceRemaining n) :: .micro .blocksLoop :: rest

/-- What the bus bracket of the injection holds, and the statements after it. -/
def blockBody (s : State) (rest : List Stmt) : List Stmt :=
  .op (.inject .raw s.img.nextAddr s.payload) :: .micro (.injectRelease s.finalBlock) ::
    blockInjectedStmts s.payloadLen rest

/-- 44_load_protocol R230 steps 15 to 17, up to the request for the bus. -/
theorem executes_takeBlock {s : State} {required : Byte} (h : s.blk.lb = required) (rest : List Stmt) :
    Executes 3 s (.micro (.checkLb required) :: rest) (s.setBusreq true) (.micro .awaitGrant :: blockBody s rest) := by
  have requested : Executes 1 s (.micro (.injectBlock s.payloadLen s.finalBlock) :: blockInjectedStmts s.payloadLen rest)
      (s.setBusreq true) (.micro .awaitGrant :: blockBody s rest) := .one (fun _ => rfl) rfl
  exact .push (ks := [.micro .takeBlock]) (fun ms => runStmt_checkLb_of_eq (s := s.poised rest ms) h)
    (.push (ks := .micro (.injectBlock s.payloadLen s.finalBlock) :: blockInjectedStmts s.payloadLen [])
      (fun _ => rfl) requested)

/-- Ok is sent for a block of `n` bytes, which is counted (44_load_protocol R236). -/
def State.blockCounted (s : State) (n : Nat) : State :=
  { s with
    uart.txReg := some 0, img.nextAddr := addrPlus s.img.nextAddr n,
    img.remainingSize := s.img.remainingSize - BitVec.ofNat 16 n }

/-- 44_load_protocol R230 steps 18 to 20. -/
theorem executes_blockInjected {s : State} (free : s.uart.txReg = none) (n : Nat) (rest : List Stmt) :
    Executes 4 s (blockInjectedStmts n rest) (s.blockCounted n) (.micro .blocksLoop :: rest) := by
  have advanced : Executes 1 s (blockInjectedStmts n rest) { s with img.nextAddr := addrPlus s.img.nextAddr n }
      (.op .statusOk :: .micro (.reduceRemaining n) :: .micro .blocksLoop :: rest) := .one (fun _ => rfl) rfl
  have reported := executes_sendByte_op (i := .statusOk) (s := { s with img.nextAddr := addrPlus s.img.nextAddr n })
    (fun _ => rfl) free (.micro (.reduceRemaining n) :: .micro .blocksLoop :: rest)
  have reduced : Executes 1 { s with img.nextAddr := addrPlus s.img.nextAddr n, uart.txReg := some 0 }
      (.micro (.reduceRemaining n) :: .micro .blocksLoop :: rest) (s.blockCounted n) (.micro .blocksLoop :: rest) :=
    .one (fun _ => rfl) rfl
  exact advanced.trans (reported.trans reduced)

/-- The owner has written the block held at the next address. -/
def State.blockWritten (s : State) : State := s.busGranted.injectedAt s.img.nextAddr s.payload

/-- The block held is in memory at the next address, acknowledged and counted, the bus kept only if it was the last. -/
def State.blockLoaded (s : State) : State :=
  (s.blockWritten.setBusreq s.finalBlock).blockCounted s.payloadLen

theorem State.payload_ne_nil (s : State) : s.payload ≠ [] := List.ne_nil_of_length_eq_add_one s.payload_length

/-- 44_load_protocol R235, R236, by the owner of the bus. -/
theorem executes_blockBody {s : State} (free : s.uart.txReg = none) (rest : List Stmt) :
    Executes (s.payload.length + (1 + if s.finalBlock then 0 else 1) + 4) s.busGranted (blockBody s rest) s.blockLoaded
      (.micro .blocksLoop :: rest) := by
  have writes : Executes s.payload.length s.busGranted (blockBody s rest) s.blockWritten _ :=
    executes_injectRaw s.owner_busGranted s.img.nextAddr s.payload_ne_nil
      (.micro (.injectRelease s.finalBlock) :: blockInjectedStmts s.payloadLen rest)
  have release := executes_injectRelease (s := s.blockWritten) rfl s.finalBlock (blockInjectedStmts s.payloadLen rest)
  have counted := executes_blockInjected (s := s.blockWritten.setBusreq s.finalBlock) free s.payloadLen rest
  exact (writes.trans release).trans counted

/-- 44_load_protocol R236: a payload within what remains is subtracted without a borrow. -/
theorem toNat_sub_ofNat_of_le {remaining : Size} {n : Nat} (h : n ≤ remaining.toNat) :
    (remaining - BitVec.ofNat 16 n).toNat = remaining.toNat - n := by
  have := remaining.isLt
  rw [BitVec.toNat_sub_of_le, BitVec.toNat_ofNat, Nat.mod_eq_of_lt (by omega)]
  rw [BitVec.le_def, BitVec.toNat_ofNat, Nat.mod_eq_of_lt (by omega)]
  exact h

/-- Nothing remains exactly where the payload was all that remained. -/
theorem sub_ofNat_eq_zero_iff {remaining : Size} {n : Nat} (h : n ≤ remaining.toNat) :
    remaining - BitVec.ofNat 16 n = 0 ↔ n = remaining.toNat := by
  rw [BitVec.toNat_eq, toNat_sub_ofNat_of_le h]
  simp only [BitVec.ofNat_eq_ofNat, BitVec.toNat_ofNat]
  omega

/-- Settles O50: the length is the required one, and the injection's bracket ends locked where nothing remains. -/
theorem acceptedBlockIsInjectedAndAcknowledged : Obligations.AcceptedBlockIsInjectedAndAcknowledged := by
  intro s rest n sched runs free hpc ret remains required
  have idle := sched.trapIdle
  have within : s.blk.lb.toNat + 1 ≤ s.img.remainingSize.toNat := by
    have : s.img.remainingSize.toNat ≠ 0 := mt (BitVec.eq_of_toNat_eq (y := 0#16)) remains
    omega
  have accepted := ((executes_blockReceived ret rest).trans
    (executes_takeBlock ((eq_requiredLb_iff _ _).2 required) rest)).runs_scheduled idle [.grant]
  have run := accepted.trans (runs.runs_bracket idle (executes_blockBody free rest))
  rw [← hpc, ← sched.schedule, s.payload_length,
    show 2 + 3 + (s.blk.lb.toNat + 1 + (1 + if s.finalBlock then 0 else 1) + 4 + 2) =
      s.blk.lb.toNat + 13 + if s.finalBlock then 0 else 1 by omega] at run
  simp only [State.finalBlock_iff] at run
  refine ⟨_, run, rfl, rfl, rfl, toNat_sub_ofNat_of_le within, rfl, ?busreq, rfl, rfl, rfl, rfl, rfl⟩
  case busreq => exact decide_eq_decide.2 (sub_ofNat_eq_zero_iff within).symm

/-! ## The size and its announcement -/

/-- Both bytes of the size are received within their window (44_load_protocol R231). -/
def State.sizeReceived (s : State) (hi lo : Byte) : State := (s.sizeAwaited.store .sizeHi hi).store .sizeLo lo

/-- 44_load_protocol R230 steps 3 and 4: the size the host sends is received, high byte first. -/
theorem runs_sizeBytes {s : State} (idle : s.trapIdle) (serial : s.SerialIdle) (hi lo : Byte) (rest : List Stmt)
    (ms : List Move) :
    Runs 6 (s.sizeAwaited.poised (.micro (.recvInto .sizeHi) :: .micro (.recvInto .sizeLo) :: rest) (rxMoves [hi, lo] ++ ms))
      ((s.sizeReceived hi lo).poised rest ms) := by
  have high := (reception_recvInto s.blk.lb .sizeHi).runs_wireByte (s := s.sizeAwaited) rfl { serial.listening with } idle
    (by simp [State.sizeAwaited]) ⟨hi, false⟩ (.micro (.recvInto .sizeLo) :: rest) (rxMoves [lo] ++ ms)
  have low := (reception_recvInto s.blk.lb .sizeLo).runs_wireByte (s := s.sizeAwaited.store .sizeHi hi) rfl
    { serial.listening with } idle (by simp [State.sizeAwaited]) ⟨lo, false⟩ rest ms
  rw [latch_clean] at high low
  exact high.trans low

/-- The size has passed its checkpoint, and the counters start from it (44_load_protocol R230 steps 5 and 6). -/
def State.sizeAccepted (s : State) (hi lo : Byte) : State :=
  (((s.sizeReceived hi lo).setTimer .idle).give .ok).setSize hi lo

/-- The protocol's steps from the size field on, as its checkpoint leaves them to be executed. -/
def announceStmts : List Stmt :=
  [.sizeField, .op .acquireBus, .micro .writeCount, .op .releaseBus, .op .statusOk, .micro .enterBlocks, .micro .blocksLoop]

/-- What the bus bracket of the announcement holds, and the statements after it (44_load_protocol R230 steps 8 to 12). -/
def announceBody : List Stmt :=
  [.micro .writeCount, .op .releaseBus, .op .statusOk, .micro .enterBlocks, .micro .blocksLoop]

/-- 44_load_protocol R230 step 5: with the checkpoint passed the announcement follows. -/
theorem runStmt_sizeChecked_ok {s : State} (h : s.fg.ret = .ok) :
    runStmt (.micro .sizeChecked) s = .next (s.push announceStmts) := by
  simp [runMicro, microSizeChecked, h, announceStmts]

/-- 44_load_protocol R230 step 6: the two bytes received are the size field. -/
theorem runStmt_sizeField (s : State) : runStmt .sizeField s = .next (s.setSize s.fg.sizeHi s.fg.sizeLo) :=
  runStmt_sizeField_of_decode (i := .size s.fg.sizeHi s.fg.sizeLo) (Encodes.decode_eq ⟨rfl, rfl⟩)

/-- 44_load_protocol R230 steps 5 to 7, up to the request for the bus. -/
theorem executes_sizeAccepted {s : State} (serial : s.SerialIdle) (hi lo : Byte) (rest : List Stmt) :
    Executes 4 (s.sizeReceived hi lo) (sizeChecked ++ rest) ((s.sizeAccepted hi lo).setBusreq true)
      (.micro .awaitGrant :: announceBody ++ rest) := by
  have validated := executes_validate_clear (s := s.sizeReceived hi lo) serial.owed serial.flags
    (.micro .sizeChecked :: rest)
  have requested : Executes 1 (s.sizeAccepted hi lo) (.op .acquireBus :: announceBody ++ rest)
      ((s.sizeAccepted hi lo).setBusreq true) (.micro .awaitGrant :: announceBody ++ rest) := .one (fun _ => rfl) rfl
  have sized : Executes 2 (((s.sizeReceived hi lo).setTimer .idle).give .ok) (announceStmts ++ rest)
      ((s.sizeAccepted hi lo).setBusreq true) (.micro .awaitGrant :: announceBody ++ rest) :=
    .stmt (t := s.sizeAccepted hi lo) (fun _ => runStmt_sizeField _) rfl requested
  exact validated.trans (.push (fun _ => runStmt_sizeChecked_ok rfl) sized)

/-- 44_load_protocol R232: the owner writes the low 8 bits of the block count to the count cell. -/
theorem executes_writeCount {s : State} (owned : s.owner = .controllerOwned) (rest : List Stmt) :
    Executes 1 s (.micro .writeCount :: rest) (s.writeCycle Config.countCell (s.img.blockCount.setWidth 8)) rest := by
  refine .one (fun ms => ?_) (State.writeCycle_trap s _ _)
  rw [runStmt_micro, runMicro, microWriteCount, requireOwner_controller (s := s.poised rest ms) owned, State.writeCycle_eq,
    State.writeCycle_eq]
  rfl

/-- The owner has written the block count to its cell. -/
def State.countWritten (s : State) : State :=
  s.busGranted.writeCycle Config.countCell (s.img.blockCount.setWidth 8)

/-- The block count is in its cell, the bus released, Ok sent, and blocks are awaited (44_load_protocol R232). -/
def State.countAnnounced (s : State) : State :=
  State.setLoadState { s.countWritten.setBusreq false with uart.txReg := some 0 } .awaitBlocks

/-- 44_load_protocol R230 steps 8 to 11, by the owner of the bus. -/
theorem executes_announceBody {s : State} (free : s.uart.txReg = none) (rest : List Stmt) :
    Executes 5 s.busGranted (announceBody ++ rest) s.countAnnounced (.micro .blocksLoop :: rest) := by
  have written : Executes 1 s.busGranted (announceBody ++ rest) s.countWritten _ :=
    executes_writeCount s.owner_busGranted (.op .releaseBus :: .op .statusOk :: .micro .enterBlocks ::
      .micro .blocksLoop :: rest)
  have released := executes_releaseBus s.countWritten (.op .statusOk :: .micro .enterBlocks :: .micro .blocksLoop :: rest)
  have reported := executes_sendByte_op (i := .statusOk) (s := s.countWritten.setBusreq false) (fun _ => rfl) free
    (.micro .enterBlocks :: .micro .blocksLoop :: rest)
  have entered : Executes 1 { s.countWritten.setBusreq false with uart.txReg := some 0 }
      (.micro .enterBlocks :: .micro .blocksLoop :: rest) s.countAnnounced (.micro .blocksLoop :: rest) :=
    .one (fun _ => rfl) rfl
  exact written.trans (released.trans (reported.trans entered))

/-- The state in which the protocol awaits blocks after the size `hi lo`. -/
def State.sizeAnnounced (s : State) (hi lo : Byte) : State := (s.sizeAccepted hi lo).countAnnounced

/-- 44_load_protocol R230 steps 3 to 11, the host sending the size at the controller's pace. -/
theorem runs_sizeAnnounced {s : State} (idle : s.trapIdle) (runs : TargetRuns s) (serial : s.SerialIdle)
    (free : s.uart.txReg = none) (hi lo : Byte) (rest : List Stmt) :
    Runs 17
      (s.sizeAwaited.poised (.micro (.recvInto .sizeHi) :: .micro (.recvInto .sizeLo) :: sizeChecked ++ rest)
        (rxMoves [hi, lo] ++ (controllerMoves 4 ++ [.grant])))
      ((s.sizeAnnounced hi lo).poised (.micro .blocksLoop :: rest) []) := by
  have received := runs_sizeBytes idle serial hi lo (sizeChecked ++ rest) (controllerMoves 4 ++ [.grant])
  have accepted := (executes_sizeAccepted serial hi lo rest).runs_scheduled idle [.grant]
  have announced := TargetRuns.runs_bracket (s := s.sizeAccepted hi lo) runs idle
    (executes_announceBody (s := s.sizeAccepted hi lo) free rest)
  exact received.trans (accepted.trans announced)

/-- What is left of `load_protocol` after its first statement, up to the checkpoint of the size. -/
def sizeStmts : List Stmt :=
  .op (.armTimeout 2) :: .micro (.recvInto .sizeHi) :: .micro (.recvInto .sizeLo) :: sizeChecked

theorem exec_loadProtocol (s : State) :
    exec .loadProtocol s = .next ((s.setLoadState .awaitSize).poised (sizeStmts ++ s.fg.pc) s.schedule) := rfl

/-- Settles O48: the size is awaited and announced. -/
theorem loadProtocolAnnouncesTheBlockCount : Obligations.LoadProtocolAnnouncesTheBlockCount := by
  intro s hi lo sched runs serial free
  have idle := sched.trapIdle
  have armed := (executes_armTimeout (s.setLoadState .awaitSize) 2 (.micro (.recvInto .sizeHi) ::
    .micro (.recvInto .sizeLo) :: sizeChecked ++ s.fg.pc)).runs_scheduled idle
      (rxMoves [hi, lo] ++ (controllerMoves 4 ++ [.grant]))
  have run := armed.trans (runs_sizeAnnounced idle runs serial free hi lo s.fg.pc)
  rw [← List.append_assoc, ← List.append_assoc, ← sched.schedule] at run
  exact ⟨_, _, exec_loadProtocol s, rfl, run, rfl, rfl, sizeOf_toNat hi lo, rfl, blockCountOf_toNat _, rfl, rfl, rfl, rfl,
    rfl, rfl, rfl, rfl⟩

/-! ## The load of size 0 -/

/-- The bootstrap runs: the target is out of reset with its clock on, no request pending and no cycle in progress. -/
theorem State.bootstrapped_targetRuns (s : State) : TargetRuns s.bootstrapped := ⟨rfl, rfl, rfl, rfl, rfl⟩

/-- Starting the bootstrap leaves the serial link idle. -/
theorem State.SerialIdle.bootstrapped {s : State} (h : s.SerialIdle) : s.bootstrapped.SerialIdle := { h with }

/-- LoadBinary has loaded nothing: no block is awaited, the trap is enabled and the bus released (44_load_protocol R239). -/
def State.emptyLoaded (s : State) : State := ((s.bootstrapped.sizeAnnounced 0 0).loadDone).loadSucceeded

/-- 43_command_loop R208 and R206 step 9: a load that is done ends at FETCH. -/
theorem State.Quiet.runs_loaded {s : State} (q : s.Quiet) (hpc : s.fg.pc = [.micro .loadResult, .micro .toFetch])
    (ret : s.fg.ret = .done) (pending : s.trap.pending = false) : Runs 4 s (s.loadSucceeded.goto [.op .fetch]) :=
  have succeeded : (s.loadSucceeded.goto [.micro .toFetch]).Quiet := ⟨q.schedule, q.notInTrap, .inr pending⟩
  (q.runs_loadResult_done hpc ret pending).trans (succeeded.runs_stmt rfl rfl ((runs_zero _ _).2 rfl))

/-- LoadBinary from after its first statement, for a host that sends the size 0. -/
theorem runs_emptyLoad {s : State} (idle : s.trapIdle) (serial : s.SerialIdle) (free : s.uart.txReg = none) :
    Runs (Config.bootstrap.length + 31)
      ((s.setClock false).poised (.micro .assertReset :: .micro .disableTrap :: bootstrapStmts)
        (controllerMoves (Config.bootstrap.length + 4) ++
          (controllerMoves 4 ++ (rxMoves [0, 0] ++ (controllerMoves 4 ++ [.grant])))))
      (s.emptyLoaded.poised [.op .fetch] []) := by
  have booted := runs_bootstrap_scheduled idle (controllerMoves 4 ++ (rxMoves [0, 0] ++ (controllerMoves 4 ++ [.grant])))
  have awaited := (executes_loadProtocol s.bootstrapped [.micro .loadResult, .micro .toFetch]).runs_scheduled
    idle.bootstrapped (rxMoves [0, 0] ++ (controllerMoves 4 ++ [.grant]))
  have announced := runs_sizeAnnounced idle.bootstrapped s.bootstrapped_targetRuns serial.bootstrapped
    (s.bootstrapped_uart ▸ free) 0 0 [.micro .loadResult, .micro .toFetch]
  have idleAfter : (s.bootstrapped.sizeAnnounced 0 0).trapIdle := idle.bootstrapped
  have done := (executes_blocksLoop_done (s := s.bootstrapped.sizeAnnounced 0 0) rfl
    [.micro .loadResult, .micro .toFetch]).runs_free idleAfter
  have loaded : (s.bootstrapped.sizeAnnounced 0 0).loadDone.trapIdle := idleAfter
  have ended := (loaded.quiet_poised [.micro .loadResult, .micro .toFetch]).runs_loaded rfl rfl rfl
  exact booted.trans (awaited.trans (announced.trans (done.trans ended)))

/-- Settles O47: the size 0 is announced, the loop test ends the protocol at once, and LoadBinary succeeds. -/
theorem loadOfSizeZeroCompletes : Obligations.LoadOfSizeZeroCompletes := by
  intro s sched serial free
  have run := runs_emptyLoad sched.trapIdle serial free
  have moves : s.schedule = controllerMoves (Config.bootstrap.length + 4) ++
      (controllerMoves 4 ++ (rxMoves [0, 0] ++ (controllerMoves 4 ++ [.grant]))) := by
    have turns : controllerMoves (8 + Config.bootstrap.length) =
        controllerMoves (Config.bootstrap.length + 4) ++ controllerMoves 4 := by
      rw [Nat.add_comm 8]
      exact List.replicate_add (Config.bootstrap.length + 4) 4 Move.controller
    rw [sched.schedule, turns]
    simp only [List.append_assoc]
  rw [← moves] at run
  exact ⟨_, _, exec_loadBinary s, run, rfl, rfl, rfl, rfl, rfl, rfl, rfl, rfl, rfl, rfl, rfl⟩

end Sys2Proof.Machine
end

