-- ==== Sys2Proof/Proofs/IoPorts.lean ====
section
/-! The statements of the family 45_io_ports: what each port operation does, the console write that never waits, and the
independence of a port operation from the foreground, the trap enable and the bus request. -/

namespace Sys2Proof.Machine

/-! ## The port-1 line -/

/-- 10_state R34: LEDSW shows the controller's own level while it drives the line, else the switch's. -/
theorem sampleLedsw_eq (s : State) : s.sampleLedsw = if s.port1.dir = .out then s.port1.out else s.port1.ext := by
  unfold State.sampleLedsw
  cases s.port1.dir <;> rfl

/-- 45_io_ports R276: a port-1 Write is the sub-command its data byte encodes. -/
theorem exec_port1Write (s : State) : exec .port1Write s = exec (decodeLedcmd s.trap.ioData) s := by
  change execPort1Write s = _
  unfold execPort1Write decodeLedcmd
  split_ifs <;> rfl

/-- The same for a data byte whose sub-command is known. -/
theorem exec_port1Write_of_decode {s : State} {b : Byte} {i : Instr} (hb : s.trap.ioData = b) (hi : decodeLedcmd b = i) :
    exec .port1Write s = exec i s := by
  rw [exec_port1Write, hb, hi]

/-- Settles O52: a port-1 Write goes through the decoder of its data byte, every other operation is one assignment. -/
theorem portOperationsHaveTheirEffects : Obligations.PortOperationsHaveTheirEffects := by
  intro s
  refine ⟨rfl, fun _ _ => rfl, ?line, rfl, rfl, rfl, rfl, rfl, rfl, fun _ => rfl, fun h => exec_port1Write_of_decode h rfl,
    fun h => exec_port1Write_of_decode h rfl, fun h => exec_port1Write_of_decode h rfl,
    fun h => exec_port1Write_of_decode h rfl, fun h => exec_port1Write_of_decode rfl (decodeLedcmd_none ?above)⟩
  case line =>
    rw [← sampleLedsw_eq]
    rfl
  case above => exact decide_eq_true h

/-! ## The console write -/

/-- 40_serial_link R122, 45_io_ports R261 (b): into an occupied register the write draws which byte it keeps (log 9). -/
theorem txWrite_draws {s : State} {p : Byte} (h : s.uart.txReg = some p) (b : Byte) :
    s.txWrite b = { s.drawn with uart.txReg := some (if Config.freeBit s.freeCount then b else p) } := by
  simp only [State.txWrite, h]

/-- `tx_write` reaches the transmit register and the counter of free values alone. -/
theorem txWrite_frame (s : State) (b : Byte) :
    { s.txWrite b with uart.txReg := s.uart.txReg, freeCount := s.freeCount } = s := by
  unfold State.txWrite
  split <;> rfl

/-- 45_io_ports R261 (b): an occupied register keeps its byte or takes the new one. -/
theorem txWrite_occupied {s : State} {p : Byte} (h : s.uart.txReg = some p) (b : Byte) :
    (s.txWrite b).uart.txReg = some p ∨ (s.txWrite b).uart.txReg = some b := by
  rcases txWrite_cases s b with taken | ⟨-, -, kept⟩
  · exact .inr (by rw [taken])
  · exact .inl (by rw [kept, h])

/-- Settles O53: both writes are `tx_write`, in one step. -/
theorem consoleWriteNeverWaits : Obligations.ConsoleWriteNeverWaits := fun s =>
  ⟨fun empty => congrArg _ (txWrite_empty empty _),
    fun _ occupied => ⟨_, rfl, txWrite_occupied occupied _, txWrite_frame s _⟩,
    fun b _ occupied => ⟨_, rfl, txWrite_occupied occupied b, txWrite_frame s b⟩⟩

/-! ## Independence of the foreground, the trap enable and the bus request -/

/-- The same state but for the foreground, the trap enable and the bus request. -/
def State.serviced (s : State) (f : Foreground) (enable busreq : Bool) : State :=
  { s with fg := f, trap.enable := enable, bus.busreq := busreq }

/-- What no port operation touches (45_io_ports R274, R275). -/
def State.portFrame (s : State) :
    Link × Block × Image × Foreground × List Host.Cell × Trap × Env × List RxRecord × Bool :=
  (s.link, s.blk, s.img, s.fg, s.mem, s.trap, s.env, s.uart.rxFifo, s.bus.busreq)

/-- From each state `op` completes within its frame, with one effect whenever it is serviced (45_io_ports R275). -/
def ServicedAlike (op : State → Result) : Prop :=
  ∀ (s : State) (f : Foreground) (enable busreq : Bool), ∃ t, op s = .next t ∧ t.portFrame = s.portFrame ∧
    op (s.serviced f enable busreq) = .next (t.serviced f enable busreq)

/-- An update of the state that keeps the frame and commutes with the change of what it must not depend on. -/
theorem ServicedAlike.of_update {op : State → Result} {g : State → State} (total : ∀ s, op s = .next (g s))
    (frame : ∀ s, (g s).portFrame = s.portFrame)
    (alike : ∀ s f enable busreq, g (s.serviced f enable busreq) = (g s).serviced f enable busreq) : ServicedAlike op :=
  fun s f enable busreq => ⟨g s, total s, frame s, by rw [total, alike]⟩

/-- Which byte is lost depends on the register and the counter of free values alone. -/
theorem txWrite_serviced (s : State) (b : Byte) (f : Foreground) (enable busreq : Bool) :
    (s.serviced f enable busreq).txWrite b = (s.txWrite b).serviced f enable busreq := by
  cases h : s.uart.txReg with
  | none =>
    rw [txWrite_empty h, txWrite_empty (s := s.serviced f enable busreq) h]
    rfl
  | some p =>
    rw [txWrite_draws h, txWrite_draws (s := s.serviced f enable busreq) h]
    rfl

theorem port0Write_servicedAlike : ServicedAlike (exec .port0Write) :=
  .of_update (g := fun s => s.txWrite s.trap.ioData) (fun _ => rfl)
    (fun s => (congrArg State.portFrame (txWrite_frame s s.trap.ioData) :)) fun s => txWrite_serviced s s.trap.ioData

/-- 45_io_ports R264 to R268: an LED sub-command reaches the port-1 line alone. -/
theorem decodeLedcmd_servicedAlike (b : Byte) : ServicedAlike (exec (decodeLedcmd b)) := by
  unfold decodeLedcmd
  split_ifs <;> exact .of_update (fun _ => rfl) (fun _ => rfl) fun _ _ _ _ => rfl

/-- The sub-command is chosen by the data byte, which the request holds. -/
theorem port1Write_servicedAlike : ServicedAlike (exec .port1Write) := by
  intro s f enable busreq
  simp only [exec_port1Write]
  exact decodeLedcmd_servicedAlike s.trap.ioData s f enable busreq

/-- 45_io_ports R275: no port operation depends on when it is serviced. -/
theorem exec_port_servicedAlike {i : Instr} (hi : i.port = true) : ServicedAlike (exec i) := by
  cases i with
  | port0Write => exact port0Write_servicedAlike
  | port1Write => exact port1Write_servicedAlike
  | port0Read | port1Read | port2Read | port2Write | portUnknown _ _ =>
    exact .of_update (fun _ => rfl) (fun _ => rfl) fun _ _ _ _ => rfl
  | _ => cases hi

/-- Settles O54: the frame of R275, taken apart. -/
theorem portOperationsIgnoreTheForeground : Obligations.PortOperationsIgnoreTheForeground := by
  intro i s f enable busreq hi
  obtain ⟨t, completes, frame, alike⟩ := exec_port_servicedAlike hi s f enable busreq
  simp only [State.portFrame, Prod.mk.injEq] at frame
  obtain ⟨link, blk, img, fg, mem, trap, env, rxFifo, request⟩ := frame
  exact ⟨t, completes, link, blk, img, fg, mem, trap, env, rxFifo, request, alike⟩

end Sys2Proof.Machine
end

