-- ==== Sys2Proof/Proofs/TargetContract.lean ====
section
/-! The statement of the family 60_exceptions about the target: which of its moves its contract has, and what they lead to. -/

namespace Sys2Proof.Machine

/-- 93 U22: a move of the target leads to its next state where it is enabled and to no other state. -/
theorem targetMove_next_iff {m : Move} {enabled : Bool} {t u : State} :
    targetMove m enabled t = .next u ↔ enabled = true ∧ u = t := by
  refine ⟨targetMove_next, fun ⟨on, same⟩ => ?_⟩
  rw [targetMove, if_pos on, same]

/-- 60_exceptions R320 (a), (b). -/
theorem moveGrant_next_iff {s t : State} :
    moveGrant s = .next t ↔ s.targetCondition = .running ∧ s.bus.busreq = true ∧ s.env.cycle = none ∧
      t = { s with bus.busack := true } := by
  simp only [moveGrant, targetMove_next_iff, Bool.and_eq_true, beq_iff_eq, and_assoc]

/-- 60_exceptions R320 (d). -/
theorem moveUngrant_next_iff {s t : State} :
    moveUngrant s = .next t ↔ s.targetCondition = .granted ∧ s.bus.busreq = false ∧
      t = { s with bus.busack := false } := by
  simp only [moveUngrant, targetMove_next_iff, Bool.and_eq_true, beq_iff_eq, Bool.not_eq_true', and_assoc]

/-- 60_exceptions R319, R320 (a), R321. -/
theorem moveCycleStart_next_iff {c : BusCycle} {s t : State} :
    moveCycleStart c s = .next t ↔ s.targetCondition = .running ∧ s.bus.busreq = false ∧ s.env.cycle = none ∧
      (s.env.fresh = true → c = .memRead 0) ∧ t = s.startCycle c := by
  simp only [moveCycleStart, targetMove_next_iff, mayStart_iff, and_assoc]

/-- 60_exceptions R320 (a), R321: the cycle in progress ends also where the request rose after it began. -/
theorem moveCycleEnd_next_iff {c : BusCycle} {s t : State} (hc : s.env.cycle = some c) :
    moveCycleEnd s = .next t ↔ s.targetCondition = .running ∧ t = s.finishCycle c := by
  simp only [moveCycleEnd, hc, targetMove_next_iff, beq_iff_eq]

/-- Settles O29: each move is enabled by its conditions, and a cycle ends with the effect of its kind. -/
theorem targetMovesOnlyWithinItsContract : Obligations.TargetMovesOnlyWithinItsContract := by
  intro s t ms
  refine ⟨fun hs => ?grant, fun hs => ?ungrant, fun c hs => ?cycleStart, fun a hs hc => ?memRead,
    fun a v hs hc => ?memWrite, fun p d v hs hc => ?io, fun hs hc => ?noCycle⟩
  all_goals rw [step_cons hs]
  case grant => exact moveGrant_next_iff (s := { s with schedule := ms })
  case ungrant => exact moveUngrant_next_iff (s := { s with schedule := ms })
  case cycleStart => exact moveCycleStart_next_iff (s := { s with schedule := ms })
  case memRead => exact moveCycleEnd_next_iff (s := { s with schedule := ms }) hc
  case memWrite => exact moveCycleEnd_next_iff (s := { s with schedule := ms }) hc
  case io => exact moveCycleEnd_next_iff (s := { s with schedule := ms }) hc
  case noCycle =>
    intro ended
    obtain ⟨c, inProgress, -, -⟩ := moveCycleEnd_next ended
    exact absurd (hc.symm.trans inProgress) (by simp)

end Sys2Proof.Machine
end

