-- ==== Sys2Proof/Proofs/ControlLines.lean ====
section
/-! The statement of the family 60_exceptions about the trap enable, the target's reset and its clock: which statements write
them. -/

namespace Sys2Proof.Machine

/-- The trap enable, the target's reset and its clock (60_exceptions R306, 10_state R32). -/
def State.controls (s : State) : Bool × Bool × Bool := (s.trap.enable, s.bus.tgtReset, s.bus.tgtClkRun)

/-- From `s` to `t` none of the three has changed. -/
def ControlsKept (s t : State) : Prop := t.controls = s.controls

theorem ControlsKept.of_lines {s t : State} (trap : t.trap = s.trap) (bus : t.bus = s.bus) : ControlsKept s t := by
  rw [ControlsKept, State.controls, trap, bus, State.controls]

theorem ControlsKept.trans {s t u : State} (first : ControlsKept s t) (second : ControlsKept t u) : ControlsKept s u :=
  Eq.trans second first

/-- The statements of LoadBinary that write one of the three (43_command_loop R206 to R208). -/
def Stmt.writesControls : Stmt → Bool
  | .command b => b == 1
  | .op .loadBinary => true
  | .op .loadFailure => true
  | .op .loadSuccess => true
  | .micro .assertReset => true
  | .micro .disableTrap => true
  | .micro .releaseReset => true
  | .micro .startClock => true
  | _ => false

/-- They stop the clock, start it, hold and free the target, clear the mask and set it. -/
theorem Stmt.writesControls_cases {st : Stmt} (h : st.writesControls = true) :
    (st = .command 1 ∨ st = .op .loadBinary ∨ st = .op .loadFailure) ∨ st = .micro .startClock ∨
      (st = .micro .assertReset ∨ st = .micro .releaseReset) ∨ st = .micro .disableTrap ∨ st = .op .loadSuccess := by
  unfold Stmt.writesControls at h
  split at h <;> simp_all

/-- 43_command_loop R201: the command byte 1 alone stands for LoadBinary. -/
theorem decodeCmd_writesControls (b : Byte) : (Stmt.op (decodeCmd b)).writesControls = (b == 1) := by
  unfold decodeCmd
  split_ifs <;> simp_all [Stmt.writesControls]

/-- 45_io_ports R260: no port operation writes one of the three. -/
theorem decodePort_not_writesControls (dir : IoDir) (port : Port) :
    (Stmt.op (decodePort dir port)).writesControls = false := by
  unfold decodePort
  cases dir <;> split_ifs <;> rfl

/-! ## Tests of recv_byte and the driving operations -/

theorem controlsKept_of_got {s u : State} {d : Byte} (h : s.recvTest = .got d u) : ControlsKept s u := by
  obtain ⟨r, rest, v, -, rfl | rfl, -, rfl⟩ := recvTest_got h <;> exact .of_lines rfl rfl

theorem controlsKept_of_expired {s u : State} (h : s.recvTest = .expired u) : ControlsKept s u := by
  obtain ⟨-, v, rfl | rfl, rfl⟩ := recvTest_expired h <;> exact .of_lines rfl rfl

/-- `x <- recv_byte()` keeps the three, where storing the byte does. -/
theorem recvStore_controlsKept {s : State} {put : State → Byte → State} {again : Stmt} {next : List Stmt}
    (hput : ∀ u v, ControlsKept u (put u v)) : NextSatisfies (ControlsKept s) (s.recvStore put again next) := by
  refine nextSatisfies_recvStore (fun d u hu => ?got) (fun u v hu => ?expired) (.of_lines rfl rfl)
  case got => exact ((controlsKept_of_got hu).trans (hput u d)).trans (.of_lines rfl rfl)
  case expired => exact ((controlsKept_of_expired hu).trans (hput u.drawn v)).trans (.of_lines rfl rfl)

theorem store_controlsKept (s : State) (d : RxDst) (v : Byte) : ControlsKept s (s.store d v) :=
  .of_lines (State.store_trap s d v) (State.store_bus s d v)

theorem execRecvByte_controlsKept (s : State) : NextSatisfies (ControlsKept s) (execRecvByte s) := by
  unfold execRecvByte
  cases hr : s.recvTest with
  | got d u => exact nextSatisfies_next.2 ((controlsKept_of_got hr).trans rfl)
  | expired u => exact nextSatisfies_next.2 ((controlsKept_of_expired hr).trans rfl)
  | waiting => exact nextSatisfies_next.2 (.of_lines rfl rfl)

theorem sendByte_controlsKept (s : State) (b : Byte) : ControlsKept s (s.sendByte b) :=
  .of_lines (State.sendByte_trap s b) (State.sendByte_bus s b)

theorem sendBlock_controlsKept (s : State) (bytes : List Byte) : ControlsKept s (s.sendBlock bytes) :=
  .of_lines (State.sendBlock_trap s bytes) (State.sendBlock_bus s bytes)

theorem txWrite_controlsKept (s : State) (b : Byte) : ControlsKept s (s.txWrite b) :=
  .of_lines (State.txWrite_trap s b) (State.txWrite_bus s b)

theorem writeCycle_controlsKept (s : State) (a : Addr) (v : Byte) : ControlsKept s (s.writeCycle a v) := by
  simp [ControlsKept, State.controls]

theorem readCycle_controlsKept (s : State) (a : Addr) : ControlsKept s (s.readCycle a).1 := by
  simp [ControlsKept, State.controls]

/-! ## The operations and statements -/

/-- An operation that is none of the three of LoadBinary keeps the three lines. -/
theorem exec_controlsKept (s : State) {i : Instr} (hi : (Stmt.op i).writesControls = false) :
    NextSatisfies (ControlsKept s) (exec i s) := by
  cases i with
  | loadBinary | loadFailure | loadSuccess => simp [Stmt.writesControls] at hi
  | fetch => exact recvStore_controlsKept fun u v => store_controlsKept u .cmd v
  | recvByte => exact execRecvByte_controlsKept s
  | statusReserved b => exact nextSatisfies_refused _
  | statusOk | statusTimeout | statusInvalidSize | statusChecksumFailed | statusUnknownCommand | statusFrameError
  | statusBufferOverflow | sendByte _ => exact nextSatisfies_next.2 (sendByte_controlsKept s _)
  | sendBlock bytes => exact nextSatisfies_next.2 (sendBlock_controlsKept s bytes)
  | port0Write => exact nextSatisfies_next.2 (txWrite_controlsKept s _)
  | port1Write =>
    simp only [exec, execPort1Write]
    split_ifs <;> exact nextSatisfies_next.2 rfl
  | validate =>
    exact nextSatisfies_ite (nextSatisfies_refused _) (nextSatisfies_ite (nextSatisfies_next.2 rfl) (nextSatisfies_next.2 rfl))
  | timer op => cases op <;> exact nextSatisfies_next.2 rfl
  | block lb payload ck => exact nextSatisfies_next.2 (.of_lines (by simp) (by simp))
  | writeByteAt a v => exact nextSatisfies_execWriteByteAt (writeCycle_controlsKept s a v)
  | readByteAt a => exact nextSatisfies_execReadByteAt ((readCycle_controlsKept s a).trans rfl)
  | switchBank v => exact nextSatisfies_execSwitchBank rfl
  | inject form base bytes =>
    cases form with
    | raw => exact nextSatisfies_injectRaw rfl fun v _ _ => (writeCycle_controlsKept s base v).trans (.of_lines rfl rfl)
    | image keepLocked => exact nextSatisfies_next.2 rfl
  | _ => exact nextSatisfies_next.2 rfl

/-- A statement that is none of the four of LoadBinary keeps the three lines. -/
theorem runMicro_controlsKept (s : State) {m : Micro} (hm : (Stmt.micro m).writesControls = false) :
    NextSatisfies (ControlsKept s) (runMicro m s) := by
  cases m with
  | assertReset | disableTrap | releaseReset | startClock => simp [Stmt.writesControls] at hm
  | recvInto d => exact recvStore_controlsKept fun u v => store_controlsKept u d v
  | recvBuf i => exact recvStore_controlsKept fun _ _ => rfl
  | txWrite b => exact nextSatisfies_next.2 (txWrite_controlsKept s b)
  | sendBlockBytes bytes => cases bytes <;> exact nextSatisfies_next.2 (sendByte_controlsKept _ _)
  | downloadSend => exact nextSatisfies_next.2 (sendBlock_controlsKept s _)
  | readRegion i left => exact nextSatisfies_microReadRegion (.of_lines rfl rfl) fun _ _ _ =>
      (readCycle_controlsKept s (i.setWidth 16)).trans (.of_lines rfl rfl)
  | writeCount => exact nextSatisfies_microWriteCount (writeCycle_controlsKept s _ _)
  | blockLength _ | blockCompare | awaitGrant | injectRelease _ | blocksLoop | checkLb _ =>
    exact nextSatisfies_ite (nextSatisfies_next.2 rfl) (nextSatisfies_next.2 rfl)
  | blockChecked _ | blockPayload | echoReply | uploadChecked | loadResult | sizeChecked | blockReceived =>
    simp only [runMicro, microBlockChecked, microBlockPayload, microEchoReply, microUploadChecked, microLoadResult,
      microSizeChecked, microBlockReceived]
    split <;> exact nextSatisfies_next.2 rfl
  | _ => exact nextSatisfies_next.2 rfl

theorem runStmt_controlsKept (s : State) {st : Stmt} (hst : st.writesControls = false) :
    NextSatisfies (ControlsKept s) (runStmt st s) := by
  cases st with
  | op i => exact exec_controlsKept s hst
  | command b => exact exec_controlsKept s ((decodeCmd_writesControls b).trans hst)
  | sizeField => exact nextSatisfies_next.2 rfl
  | blockField =>
    refine nextSatisfies_runDecoded fun i l hdec => ?_
    obtain ⟨lb, payload, ck, rfl⟩ := eq_block_of_decode hdec
    exact exec_controlsKept s rfl
  | micro m => exact runMicro_controlsKept s hst

/-- 60_exceptions R302, R303: the dispatcher keeps the three lines. -/
theorem trapStep_controlsKept (s : State) : NextSatisfies (ControlsKept s) (trapStep s) := by
  unfold trapStep
  cases s.trap.pos with
  | dispatchPort =>
    simp only [decode_ioreqWord, runDecoded_ok]
    exact exec_controlsKept (s.setTrapPos .complete) (decodePort_not_writesControls _ _)
  | awaitAck => exact nextSatisfies_ite (nextSatisfies_next.2 rfl) (nextSatisfies_next.2 rfl)
  | releaseData =>
    simp only [trapReleaseData]
    split <;> exact nextSatisfies_next.2 rfl
  | complete | pulseWaitAck | dropRequest | ret => exact nextSatisfies_next.2 rfl

/-- No move of the environment reaches one of the three: they are the controller's outputs and mask. -/
theorem runMove_controlsKept (s : State) {m : Move} (hm : m.environmental = true) :
    NextSatisfies (ControlsKept s) (runMove m s) := by
  cases m with
  | controller | foreground => simp [Move.environmental] at hm
  | hostTake => exact nextSatisfies_next.2 (.of_lines (State.hostTake_trap s) (State.hostTake_bus s))
  | rx => exact nextSatisfies_next.2 (.of_lines (State.receiveWire_trap s) (State.receiveWire_bus s))
  | tx => exact nextSatisfies_next.2 (.of_lines (State.transmit_trap s) (State.transmit_bus s))
  | grant | ungrant | cycleStart c => exact nextSatisfies_targetMove fun _ => rfl
  | cycleEnd =>
    intro t ht
    obtain ⟨c, -, -, rfl⟩ := moveCycleEnd_next ht
    cases c <;> rfl
  | hostSend _ _ | loseMarks _ _ | tick | switchLevel _ => exact nextSatisfies_next.2 rfl

/-! ## Every step -/

/-- What a step can do to the three: each changes only where the foreground stands at a statement that writes it, and then
holds what that statement writes. -/
structure ControlsStep (s t : State) : Prop where
  enable : t.trap.enable = s.trap.enable ∨
    (∃ rest, s.fg.pc = .micro .disableTrap :: rest ∧ t.trap.enable = false) ∨
    (∃ rest, s.fg.pc = .op .loadSuccess :: rest ∧ t.trap.enable = true)
  reset : t.bus.tgtReset = s.bus.tgtReset ∨
    (∃ rest, s.fg.pc = .micro .assertReset :: rest ∧ t.bus.tgtReset = true) ∨
    (∃ rest, s.fg.pc = .micro .releaseReset :: rest ∧ t.bus.tgtReset = false)
  clock : t.bus.tgtClkRun = s.bus.tgtClkRun ∨
    (∃ rest, (s.fg.pc = .command 1 :: rest ∨ s.fg.pc = .op .loadBinary :: rest ∨ s.fg.pc = .op .loadFailure :: rest) ∧
      t.bus.tgtClkRun = false) ∨
    (∃ rest, s.fg.pc = .micro .startClock :: rest ∧ t.bus.tgtClkRun = true)

theorem ControlsKept.controlsStep {s t : State} (kept : ControlsKept s t) : ControlsStep s t := by
  simp only [ControlsKept, State.controls, Prod.mk.injEq] at kept
  obtain ⟨enable, reset, clock⟩ := kept
  exact ⟨.inl enable, .inl reset, .inl clock⟩

/-- A statement of LoadBinary that writes one of the three leaves the other two. -/
theorem runStmt_controlsStep {s : State} {st : Stmt} {rest : List Stmt} (hpc : s.fg.pc = st :: rest)
    (hst : st.writesControls = true) : NextSatisfies (ControlsStep s) (runStmt st (s.goto rest)) := by
  rcases Stmt.writesControls_cases hst with (rfl | rfl | rfl) | rfl | (rfl | rfl) | rfl | rfl <;>
    refine nextSatisfies_next.2 ?_
  case inl.inl => exact ⟨.inl rfl, .inl rfl, .inr (.inl ⟨rest, .inl hpc, rfl⟩)⟩
  case inl.inr.inl => exact ⟨.inl rfl, .inl rfl, .inr (.inl ⟨rest, .inr (.inl hpc), rfl⟩)⟩
  case inl.inr.inr => exact ⟨.inl rfl, .inl rfl, .inr (.inl ⟨rest, .inr (.inr hpc), rfl⟩)⟩
  case inr.inl => exact ⟨.inl rfl, .inl rfl, .inr (.inr ⟨rest, hpc, rfl⟩)⟩
  case inr.inr.inl.inl => exact ⟨.inl rfl, .inr (.inl ⟨rest, hpc, rfl⟩), .inl rfl⟩
  case inr.inr.inl.inr => exact ⟨.inl rfl, .inr (.inr ⟨rest, hpc, rfl⟩), .inl rfl⟩
  case inr.inr.inr.inl => exact ⟨.inr (.inl ⟨rest, hpc, rfl⟩), .inl rfl, .inl rfl⟩
  case inr.inr.inr.inr => exact ⟨.inr (.inr ⟨rest, hpc, rfl⟩), .inl rfl, .inl rfl⟩

theorem foregroundStep_controlsStep (s : State) : NextSatisfies (ControlsStep s) (foregroundStep s) := by
  refine nextSatisfies_foregroundStep (fun _ t ht => ?fetch) fun st rest hpc => ?stmt
  case fetch => exact (exec_controlsKept s (i := .fetch) rfl t ht).controlsStep
  case stmt =>
    cases hst : st.writesControls with
    | true => exact runStmt_controlsStep hpc hst
    | false => exact fun t ht => ControlsKept.controlsStep (s := s) (runStmt_controlsKept (s.goto rest) hst t ht)

theorem step_controlsStep (s : State) : NextSatisfies (ControlsStep s) (step s) := by
  refine nextSatisfies_step (fun ms _ t ht => ?trap) (fun ms _ => ?enter) (fun ms _ t ht => ?foreground)
    fun m ms hm t ht => ?environment
  case trap => exact ControlsKept.controlsStep (s := s) (trapStep_controlsKept { s with schedule := ms } t ht)
  case enter => exact nextSatisfies_next.2 (ControlsKept.controlsStep rfl)
  case foreground => exact { foregroundStep_controlsStep { s with schedule := ms } t ht with }
  case environment => exact ControlsKept.controlsStep (s := s) (runMove_controlsKept { s with schedule := ms } hm t ht)

/-- Settles O59: the foreground's statement alone can write one of the three. -/
theorem onlyLoadBinaryControlsTrapAndTarget : Obligations.OnlyLoadBinaryControlsTrapAndTarget := by
  intro s t hstep
  obtain ⟨enable, reset, clock⟩ := step_controlsStep s t hstep
  exact ⟨enable, reset, clock⟩

end Sys2Proof.Machine
end

