-- ==== Sys2Proof/Proofs/TrapContext.lean ====
section
/-! The statements of the family 60_exceptions about the I/O trap: entry and return, the completion handshake, a request served
whole. -/

namespace Sys2Proof.Machine

/-! ## Entry and return -/

/-- 60_exceptions R300. -/
theorem State.trapReady_iff (s : State) :
    s.trapReady = true ↔ s.trap.enable = true ∧ s.trap.pending = true ∧ s.trap.inTrap = false := by
  simp only [State.trapReady, Bool.and_eq_true, Bool.not_eq_true', and_assoc]

/-- Settles O55: entry touches the trap registers alone, return the bit `in_trap` alone. -/
theorem trapEntryAndReturn : Obligations.TrapEntryAndReturn := by
  intro s
  refine ⟨fun schedule enable pending outside => step_enters schedule ?ready, fun ms schedule outside => ?delayed,
    ⟨s.enterTrap, rfl, rfl, rfl, rfl, rfl, rfl, rfl, rfl, rfl, rfl⟩, rfl⟩
  case ready => exact s.trapReady_iff.2 ⟨enable, pending, outside⟩
  case delayed =>
    rw [step_cons schedule]
    exact if_neg (by simp [outside])

/-! ## The dispatcher's turn -/

/-- The dispatcher stands at `p`, with the moves `ms` scheduled. -/
def State.trapAt (s : State) (p : TrapPos) (ms : List Move) : State := { s with trap.pos := p, schedule := ms }

/-- At the controller's turn the dispatcher executes the statement it stands at (60_exceptions R302). -/
theorem step_trapAt {s : State} (inTrap : s.trap.inTrap = true) (p : TrapPos) {ms ms' : List Move} (turn : Turn ms ms') :
    step (s.trapAt p ms) = trapStep (s.trapAt p ms') := by
  cases turn with
  | scheduled =>
    rw [step_cons (s := s.trapAt p (.controller :: ms')) rfl]
    exact controllerStep_inTrap (s := s.trapAt p ms') inTrap
  | free => exact step_eq_trapStep rfl inTrap

/-! ## The completion handshake -/

/-- The handshake after a grant: the cycle is over, DATA is released after a Read, the request is withdrawn (60_exceptions
R303, R322). -/
def State.handshaken (s : State) : State :=
  { s with
    bus.busreq := false, bus.busack := true, bus.dataDir := if s.trap.ioDir = .read then .inp else s.bus.dataDir,
    trap.pending := false, env.iotrap := false,
    env.tgtData := if s.trap.ioDir = .read then s.sampleData else s.env.tgtData }

/-- 60_exceptions R303 step 1: the request is up and the pulse follows. -/
theorem exec_completeTrap (s : State) :
    exec .completeTrap s = .next ((s.setBusreq true).trapAt .pulseWaitAck s.schedule) := rfl

/-- 60_exceptions R303 step 2: at the pulse the target takes the level on DATA on a Read (R322). -/
theorem trapPulse_eq (s : State) (p : TrapPos) (ms : List Move) :
    trapPulse (s.trapAt p ms) = .next (s.pulseWaitAck.trapAt .awaitAck ms) := rfl

/-- 60_exceptions R303 step 3: with the acknowledgment up one test ends the wait. -/
theorem trapAwaitAck_acknowledged {s : State} (ack : s.bus.busack = true) (p : TrapPos) (ms : List Move) :
    trapAwaitAck (s.trapAt p ms) = .next (s.trapAt .releaseData ms) := if_pos ack

/-- 60_exceptions R303 step 4: the controller lets DATA go after a Read; on a Write it never drove it. -/
theorem trapReleaseData_eq (s : State) (p : TrapPos) (ms : List Move) :
    trapReleaseData (s.trapAt p ms) =
      .next ((s.setDataDir (if s.trap.ioDir = .read then .inp else s.bus.dataDir)).trapAt .dropRequest ms) := by
  have direction : (s.trapAt p ms).trap.ioDir = s.trap.ioDir := rfl
  rw [trapReleaseData, direction]
  cases s.trap.ioDir <;> rfl

/-- 60_exceptions R322: once the pulse has ended its cycle, the target grants the bus it is asked for. -/
theorem step_grant_after_pulse {s : State} (reset : s.bus.tgtReset = false) (clock : s.bus.tgtClkRun = true)
    (ack : s.bus.busack = false) (cycle : s.env.cycle = none) (ms : List Move) :
    step ((s.setBusreq true).pulseWaitAck.trapAt .awaitAck (.grant :: ms)) =
      .next (s.busGranted.pulseWaitAck.trapAt .awaitAck ms) := by
  have running : ((s.setBusreq true).pulseWaitAck.trapAt .awaitAck ms).targetCondition = .running :=
    (targetCondition_running_iff _).2 ⟨reset, clock, rfl, ack⟩
  rw [step_cons (s := (s.setBusreq true).pulseWaitAck.trapAt .awaitAck (.grant :: ms)) rfl]
  exact moveGrant_next running rfl cycle

/-- The statements after the grant, together. -/
theorem State.handshaken_eq (s : State) :
    (s.busGranted.pulseWaitAck.setDataDir (if s.trap.ioDir = .read then .inp else s.bus.dataDir)).setBusreq false =
      s.handshaken := by
  cases direction : s.trap.ioDir <;>
    simp [State.eq_iff, State.handshaken, State.busGranted, State.sampleData, direction]

/-- 60_exceptions R303 steps 2 to 5: the pulse, the grant, the test of the wait, the release of DATA, the withdrawal. -/
theorem runs_handshake {s : State} (inTrap : s.trap.inTrap = true) (reset : s.bus.tgtReset = false)
    (clock : s.bus.tgtClkRun = true) (ack : s.bus.busack = false) (cycle : s.env.cycle = none) :
    Runs 5 ((s.setBusreq true).trapAt .pulseWaitAck [.controller, .grant]) (s.handshaken.trapAt .ret []) := by
  rw [← s.handshaken_eq]
  have pulse := step_trapAt (s := s.setBusreq true) inTrap .pulseWaitAck (.scheduled [.grant])
  have grant := step_grant_after_pulse reset clock ack cycle []
  have test := step_trapAt (s := s.busGranted.pulseWaitAck) inTrap .awaitAck .free
  have release := step_trapAt (s := s.busGranted.pulseWaitAck) inTrap .releaseData .free
  have withdraw := step_trapAt (s := s.busGranted.pulseWaitAck.setDataDir
    (if s.trap.ioDir = .read then .inp else s.bus.dataDir)) inTrap .dropRequest .free
  exact .cons (pulse.trans (trapPulse_eq _ _ _)) (.cons grant (.cons (test.trans (trapAwaitAck_acknowledged rfl _ _))
    (.cons (release.trans (trapReleaseData_eq _ _ _)) (.cons withdraw ((runs_zero _ _).2 rfl)))))

/-- Settles O56: the first statement, and the five steps of its handshake. -/
theorem completionHandshake : Obligations.CompletionHandshake := by
  intro s inTrap schedule reset clock ack cycle
  refine ⟨_, exec_completeTrap s, rfl, ?_⟩
  rw [schedule]
  exact runs_handshake inTrap reset clock ack cycle

/-! ## A request served whole -/

/-- 45_io_ports R272, R274: a port operation leaves the schedule alone, and the bus but for the answer a Read drives on
DATA. -/
theorem exec_port_bus {dir : IoDir} {port : Port} {s t : State} (h : exec (decodePort dir port) s = .next t) :
    t.schedule = s.schedule ∧
      (t.bus = s.bus ∨ dir = .read ∧ ∃ v, t.bus = { s.bus with dataDir := .out, dataOut := v }) := by
  rcases decodePort_cases dir port with ⟨-, he | he | he⟩ | ⟨hd, he | he | he⟩ | he <;> rw [he] at h
  case inl.inl =>
    cases h
    exact ⟨State.txWrite_schedule s _, .inl (State.txWrite_bus s _)⟩
  case inl.inr.inl =>
    rw [exec_port1Write] at h
    unfold decodeLedcmd at h
    split_ifs at h <;> cases h <;> exact ⟨rfl, .inl rfl⟩
  case inr.inl.inr.inl | inr.inl.inr.inr =>
    cases h
    exact ⟨rfl, .inr ⟨hd, _, rfl⟩⟩
  all_goals
    cases h
    exact ⟨rfl, .inl rfl⟩

/-- 45_io_ports R260: each direction and port selects a port operation. -/
theorem decodePort_port (dir : IoDir) (port : Port) : (decodePort dir port).port = true := by
  unfold decodePort
  cases dir <;> split_ifs <;> rfl

/-- 60_exceptions R303: the three signals of the target a port operation leaves as they are, and DATA, which is released after
the handshake where it was before the operation. -/
theorem exec_port_lines {dir : IoDir} {port : Port} {s t : State} (h : exec (decodePort dir port) s = .next t) :
    t.bus.tgtReset = s.bus.tgtReset ∧ t.bus.tgtClkRun = s.bus.tgtClkRun ∧ t.bus.busack = s.bus.busack ∧
      (s.bus.dataDir = .inp → (if dir = .read then .inp else t.bus.dataDir) = LineDir.inp) := by
  obtain ⟨-, bus | ⟨read, v, bus⟩⟩ := exec_port_bus h
  · rw [bus]
    exact ⟨rfl, rfl, rfl, fun released => by rw [released, ite_self]⟩
  · rw [bus, if_pos read]
    exact ⟨rfl, rfl, rfl, fun _ => rfl⟩

/-- The request sampled from the lines, its port operation next (60_exceptions R301, R302). -/
def State.requested (s : State) (ms : List Move) : State := s.enterTrap.trapAt .complete ms

/-- 60_exceptions R301, R302: the entry, and the operation the sampled word selects. -/
theorem runs_portOperation {s q : State} {ms : List Move} (schedule : s.schedule = .controller :: .controller :: ms)
    (ready : s.trapReady = true) (operation : exec (decodePort s.env.rw s.env.pa) (s.requested ms) = .next q) :
    Runs 2 s q := by
  obtain ⟨-, -, outside⟩ := s.trapReady_iff.1 ready
  have entered : step s = .next (s.enterTrap.trapAt .dispatchPort (.controller :: ms)) := by
    rw [step_cons schedule]
    exact (if_neg (by simp [outside])).trans (if_pos ready)
  have selected := trapStep_dispatchPort_of_decode (s := s.enterTrap.trapAt .dispatchPort ms) rfl
    (decode_ioreqWord s.env.rw s.env.pa)
  have dispatched := step_trapAt (s := s.enterTrap) rfl .dispatchPort (.scheduled ms)
  exact .cons entered (.cons ((dispatched.trans selected).trans operation) ((runs_zero _ _).2 rfl))

/-- 60_exceptions R302 steps 3 and 4: the handshake of a running target, and the return. -/
theorem runs_completion {s : State} (inTrap : s.trap.inTrap = true) (pos : s.trap.pos = .complete)
    (schedule : s.schedule = [.controller, .controller, .grant]) (reset : s.bus.tgtReset = false)
    (clock : s.bus.tgtClkRun = true) (ack : s.bus.busack = false) (cycle : s.env.cycle = none) :
    Runs 7 s (s.handshaken.trapAt .ret []).leaveTrap := by
  have here : s = s.trapAt .complete [.controller, .controller, .grant] := by
    rw [State.trapAt, ← pos, ← schedule]
  have begun := step_trapAt inTrap .complete (.scheduled [.controller, .grant])
  rw [← here] at begun
  have returned := step_trapAt (s := s.handshaken) inTrap .ret .free
  exact .cons begun ((runs_handshake inTrap reset clock ack cycle).trans (.cons returned ((runs_zero _ _).2 rfl)))

/-- 45_io_ports R269: after a port-2 Read DATA shows the bank index. -/
theorem sampleData_port2Read {s t : State} (h : exec .port2Read s = .next t) : t.sampleData = s.bank.bankIndex := by
  cases h
  rfl

/-- 45_io_ports R263: after a port-1 Read DATA shows the level of LEDSW in bit 0. -/
theorem sampleData_port1Read {s t : State} (h : exec .port1Read s = .next t) :
    t.sampleData = if s.sampleLedsw then 1 else 0 := by
  cases h
  rfl

/-- Settles O57: the entry and the operation are two steps, the handshake and the return seven. -/
theorem trapRequestIsServedWhole : Obligations.TrapRequestIsServedWhole := by
  intro s schedule enable pending outside reset clock ack cycle released
  have sampled : s.sampleData = s.env.dataIn := by rw [State.sampleData, released]
  have requested : s.requested (controllerMoves 2 ++ [.grant]) =
      { s with
        schedule := controllerMoves 2 ++ [.grant], trap.inTrap := true, trap.ioPort := s.env.pa,
        trap.ioDir := s.env.rw, trap.ioData := s.env.dataIn, trap.pos := .complete } := by
    rw [← sampled]
    rfl
  rw [← requested]
  obtain ⟨q, operation, frame, -⟩ := exec_port_servicedAlike (decodePort_port s.env.rw s.env.pa)
    (s.requested (controllerMoves 2 ++ [.grant])) s.fg s.trap.enable s.bus.busreq
  simp only [State.portFrame, Prod.mk.injEq] at frame
  obtain ⟨link, blk, img, fg, mem, trap, env, -, -⟩ := frame
  obtain ⟨resetKept, clockKept, ackKept, dataReleased⟩ := exec_port_lines operation
  obtain ⟨moves, -⟩ := exec_port_bus operation
  have served := runs_portOperation schedule (s.trapReady_iff.2 ⟨enable, pending, outside⟩) operation
  have completed := runs_completion (s := q) (by rw [trap]; rfl) (by rw [trap]; rfl) moves (resetKept.trans reset)
    (clockKept.trans clock) (ackKept.trans ack) (by rw [env]; exact cycle)
  have direction : q.trap.ioDir = s.env.rw := by rw [trap]; rfl
  have taken (read : s.env.rw = .read) : (q.handshaken.trapAt .ret []).leaveTrap.env.tgtData = q.sampleData :=
    if_pos (direction.trans read)
  refine ⟨q, _, operation, served.trans completed, fg, link, blk, img, mem, rfl, rfl, rfl, rfl, rfl, ?enabled, rfl, ?data,
    rfl, taken, fun read port => (taken read).trans ?bankIndex, fun read port => (taken read).trans ?ledsw⟩
  case enabled => exact (congrArg Trap.enable trap).trans enable
  case data =>
    change (if q.trap.ioDir = .read then LineDir.inp else q.bus.dataDir) = .inp
    rw [direction]
    exact dataReleased released
  case bankIndex =>
    rw [read, port] at operation
    exact sampleData_port2Read (s := s.requested _) operation
  case ledsw =>
    rw [read, port] at operation
    exact sampleData_port1Read (s := s.requested _) operation

end Sys2Proof.Machine
end
